-- ==== Sys2Proof/Word.lean ====
section
/-! DEFINITION. The word types of the controller (00_scope.md R7, R8): all values are unsigned. -/

namespace Sys2Proof

/-- A host register or a command word: 32 bits (R20, R80). -/
abbrev Word := BitVec 32

/-- One byte on the bus (R7). -/
abbrev Byte := BitVec 8

/-- A 16-bit key mask, or the used half of RESULT (R7, R32). -/
abbrev Mask := BitVec 16

end Sys2Proof
end

