-- ==== Sys2Proof/Config.lean ====
section
/-! DEFINITION. What an implementation fixes (the parameters of 00_scope.md R6) and the free values: opaque constants
with no body, so that no proof can see what they are. -/

namespace Sys2Proof

/-- The outcomes of a start condition (R11, R60). -/
inductive StartAnswer where
  | ok
  | busError
  | arbLost
deriving DecidableEq, Repr, Inhabited

/-- The outcomes of an address phase and of a transmit phase (R11, R60). -/
inductive AckAnswer where
  | ack
  | nack
  | arbLost
deriving DecidableEq, Repr, Inhabited

/-- The fixed 16-symbol alphabet of the keypad (43_translate.md R201, R203). -/
inductive KeySymbol where
  | d0 | d1 | d2 | d3 | d4 | d5 | d6 | d7 | d8 | d9
  | a | b | c | d
  | star | hash
deriving DecidableEq, Repr, Inhabited

/-- The parameters of R6 that a model takes as arguments: the OPEN ones, the keypad's wiring (U12) and KEYMAP (U13).
They stay fixed while the machine runs. -/
structure Params where
  /-- `PERIPH_ADDR`. -/
  periphAddr : BitVec 7
  /-- `BASE` divided by 64: `BASE` is aligned to 64 bytes by construction. -/
  baseBlock : Nat
  /-- `F_CLK`, a whole number of cycles a second: the spec gives it no number type (log entry 26, DESIGN CHOICE). -/
  fClk : Nat
  /-- `ROW_REG`. -/
  rowReg : BitVec 3
  /-- `COL_REG`. -/
  colReg : BitVec 3
  /-- `ROW_BIT(r)` for r = 0, 1, 2, 3. -/
  rowBit : Vector (BitVec 3) 4
  /-- `COL_SHIFT`: columns are bits `COL_SHIFT` to `COL_SHIFT + 3` of a byte, so it is at most 4. -/
  colShift : Fin 5
  /-- `ROW_SETTLE`, in microseconds (log entry 16). -/
  rowSettle : Nat
  /-- `KEYMAP[0..15]`. -/
  keymap : Vector KeySymbol 16
deriving DecidableEq, Repr, Inhabited

namespace Config

/-- OPEN: the expander's bus address (R6, D20). -/
opaque periphAddr : BitVec 7

/-- OPEN: the window's host address divided by 64 (R6, R70). -/
opaque baseBlock : Nat

/-- OPEN: the frequency of the controller's clock (R6, D27), a whole number of cycles a second (log entry 26, DESIGN
CHOICE). -/
opaque fClk : Nat

/-- OPEN: the bus clock frequency as a function of `F_CLK` and DIV (R6, R35, R138); its value too is a whole number of
cycles a second (log entry 26, DESIGN CHOICE). -/
opaque sclFreq : Nat → Byte → Nat

/-- Free value: the environment's answer to the n-th bus phase, if that is a start condition (R60, U6). -/
opaque freeStart : Nat → StartAnswer

/-- Free value: the environment's answer to the n-th bus phase, if that is an address or transmit phase (R60, U6). -/
opaque freeAck : Nat → AckAnswer

/-- Free value: the byte the environment supplies in the n-th bus phase, if that is a receive phase (R60, U6). -/
opaque freeByte : Nat → Byte

/-- Free value: by how many clock cycles the n-th debounce wait exceeds its least length (R178: "the 20 ms is a lower
bound and the model assumes no upper bound"; U11). -/
opaque freeWait : Nat → Nat

end Config

end Sys2Proof
end

