-- ==== Sys2Proof/Machine/Params.lean ====
section
/-! DEFINITION. The values the spec gives its parameters (00_scope.md R6; KEYMAP in 43_translate.md R201). -/

namespace Sys2Proof.Machine

/-- `READ_FAIL_VALUE` (R6, D23). -/
def readFailValue : Byte := 0xFF#8

/-- `NONE_CODE` (R6, R203). -/
def noneCode : Byte := 0x00#8

/-- `T_DEBOUNCE` in microseconds: 20 ms (R6, R178). -/
def tDebounce : Nat := 20000

/-- KEYMAP as R201 gives it, bit 0 first. -/
def defaultKeymap : Vector KeySymbol 16 :=
  #v[.star, .d0, .hash, .d, .d7, .d8, .d9, .c, .d4, .d5, .d6, .b, .d1, .d2, .d3, .a]

/-- The parameters of the machine at reset: R6's values, and opaque constants for those R6 leaves OPEN. -/
def defaultParams : Params where
  periphAddr := Config.periphAddr
  baseBlock := Config.baseBlock
  fClk := Config.fClk
  rowReg := 3#3
  colReg := 1#3
  rowBit := #v[0#3, 1#3, 2#3, 3#3]
  colShift := 4
  rowSettle := 0
  keymap := defaultKeymap

/-- `BASE`, the host address of the window, aligned to 64 bytes (R6, R70). -/
def paramBase (p : Params) : Nat := 64 * p.baseBlock

/-- R178: `ceil(0.020 * F_CLK)`, the least number of clock cycles of the debounce wait. -/
def debounceCycles (p : Params) : Nat := (p.fClk * tDebounce + 999999) / 1000000

end Sys2Proof.Machine
end

