-- ==== Sys2Proof/Syntax.lean ====
section
/-! DEFINITION. The command set: one constructor per row of spec/opcode_table.json (30_encoding.md R81 to R84),
and the assembler's abstract syntax (R88). -/

namespace Sys2Proof

/-- The direction bit of an address phase (R57, R81): 0 = WRITE, 1 = READ. -/
inductive Dir where
  | write
  | read
deriving DecidableEq, Repr, Inhabited

/-- The twelve commands (R83), each with the fields of its format (R82). Every value of every field is legal (R84). -/
inductive Instr where
  /-- START, format A (R104). -/
  | start (addr : BitVec 7) (dir : Dir)
  /-- REPSTART, format A (R108). -/
  | repstart (addr : BitVec 7) (dir : Dir)
  /-- START_RETRY, format A (R112). -/
  | startRetry (addr : BitVec 7) (dir : Dir)
  /-- WRITE_BYTE, format B (R118). -/
  | writeByte (data : Byte)
  /-- READ_BYTE, format K (R122): `ack` = true sends acknowledge. -/
  | readByte (ack : Bool)
  /-- STOP, format N (R126). -/
  | stop
  /-- WRITE_REG, format RW (R152). -/
  | writeReg (reg : BitVec 3) (data : Byte)
  /-- READ_REG, format RR (R156). -/
  | readReg (reg : BitVec 3)
  /-- SCAN_ROW, format S (R172). -/
  | scanRow (row : BitVec 2)
  /-- SCAN_KEYPAD, format N (R174). -/
  | scanKeypad
  /-- SCAN_EDGE, format N (R176). -/
  | scanEdge
  /-- TRANSLATE, format T (R200). -/
  | translate (mask : Mask)
deriving DecidableEq, Repr, Inhabited

/-- The names of the expander's registers, in the order of 20_memory.md R51. -/
inductive RegName where
  | in0 | in1 | out0 | out1 | pol0 | pol1 | cfg0 | cfg1
deriving DecidableEq, Repr

/-- An address operand of the assembler (R88): a number, or `PERIPH`. -/
inductive AsmAddr where
  | num (n : Nat)
  | periph
deriving DecidableEq, Repr

/-- A register operand of the assembler (R88): a number, or a name of R51. -/
inductive AsmReg where
  | num (n : Nat)
  | name (r : RegName)
deriving DecidableEq, Repr

/-- One line of the assembler (R88): a mnemonic with operands that are not yet checked against their ranges. -/
inductive Asm where
  | start (addr : AsmAddr) (dir : Dir)
  | repstart (addr : AsmAddr) (dir : Dir)
  | startRetry (addr : AsmAddr) (dir : Dir)
  | writeByte (data : Nat)
  | readByte (ack : Bool)
  | stop
  | writeReg (reg : AsmReg) (data : Nat)
  | readReg (reg : AsmReg)
  | scanRow (row : Nat)
  | scanKeypad
  | scanEdge
  | translate (mask : Nat)
deriving DecidableEq, Repr

end Sys2Proof
end

