-- ==== Sys2Proof/Machine/State.lean ====
section
/-! DEFINITION. The state of the controller, plain data (10_state.md; 20_memory.md R60 to R65 for the environment),
the stops of the model and the state after reset (70_reset_and_hazards.md R261). -/

namespace Sys2Proof.Machine

/-- Who owns the bus and in which direction (R31). -/
inductive BusMode where
  | idle
  | owned
  | mt
  | mr
deriving DecidableEq, Repr, Inhabited

/-- The thirteen legal status codes of BUSSTAT (R34): "No other value is ever held." -/
inductive BusStat where
  | busError | startSent | repStartSent | slawAck | slawNack | txAck | txNack
  | arbLost | slarAck | slarNack | rxAck | rxNack | noInfo
deriving DecidableEq, Repr, Inhabited

/-- One event of the bus trace (R62). -/
inductive Event where
  /-- Start condition on an idle bus. -/
  | s
  /-- Repeated start. -/
  | sr
  /-- A start condition that failed, with the BUSSTAT code. -/
  | sfail (code : Byte)
  /-- Address phase: the address byte and the response. -/
  | a (b : Byte) (resp : AckAnswer)
  /-- Transmit phase: the data byte and the response. -/
  | t (b : Byte) (resp : AckAnswer)
  /-- Receive phase: the byte and the acknowledge sent. -/
  | r (b : Byte) (ack : Bool)
  /-- Stop condition. -/
  | p
  /-- A wait of at least so many microseconds. -/
  | w (micros : Nat)
deriving DecidableEq, Repr, Inhabited

/-- A line driver of the bus engine (R40). -/
inductive Drive where
  | low
  | released
deriving DecidableEq, Repr, Inhabited

/-- The debounce timer (R39). -/
inductive Timer where
  | idle
  /-- So many clock cycles are left of the wait. -/
  | counting (left : Nat)
deriving DecidableEq, Repr, Inhabited

/-- What a command writes at its completion (R221), one alternative for each form the command rules use. -/
inductive Report where
  /-- START, REPSTART, WRITE_BYTE: RESULT and FAIL are the outcome of the one sequence run (R104, R118). -/
  | outcome
  /-- START_RETRY, STOP, TRANSLATE: RESULT is a value and FAIL is 0 (R112, R126, R200). -/
  | value (v : Mask)
  /-- READ_BYTE: RESULT is the byte received and FAIL is 0 (R122). -/
  | byte
  /-- WRITE_REG: RESULT 0x0000 and FAIL from FAILACC (R152). -/
  | access
  /-- READ_REG: RESULT is the byte read and FAIL from FAILACC (R156). -/
  | accessByte
  /-- SCAN_ROW: RESULT is the nibble and FAIL from FAILACC (R172). -/
  | row
  /-- SCAN_KEYPAD: RESULT is ACC and FAIL from FAILACC (R174). -/
  | mask
  /-- SCAN_EDGE: steps 4 to 7 of R176 and FAIL from FAILACC. -/
  | edge
deriving DecidableEq, Repr, Inhabited

/-- One step of a command's step sequence; `STEP` of R36 is the list of the steps that are left. -/
inductive SeqOp where
  /-- First line of retry_seq: ATTEMPTS <- 0 (R103). -/
  | retryBegin
  /-- Head of the loop of retry_seq: count the attempt and run start_seq (R103). -/
  | attempt (addr : BitVec 7) (dir : Dir)
  /-- Tail of the loop of retry_seq: return if the start was ok, else stop and go round (R103). -/
  | retryUnlessOk (addr : BitVec 7) (dir : Dir)
  /-- The start condition of start_seq (R101). -/
  | start (addr : BitVec 7) (dir : Dir)
  /-- The address phase of start_seq (R101). -/
  | address (addr : BitVec 7) (dir : Dir)
  /-- stop_seq (R102). -/
  | stop
  /-- write_seq (R116). -/
  | tx (b : Byte)
  /-- read_seq (R117). -/
  | rx (ack : Bool)
  /-- OR the last step's failure into FAILACC (R153 to R155). -/
  | noteFail
  /-- Wait(ROW_SETTLE) of scan_row_seq (R171). -/
  | settle
  /-- ACC <- 0x0000 (R173). -/
  | accZero
  /-- ACC <- (ACC << 4) | nibble (R173). -/
  | accRow
  /-- S1 <- ACC (R176 step 1). -/
  | saveS1
  /-- S2 <- ACC (R176 step 3). -/
  | saveS2
  /-- Load the debounce timer (R178). -/
  | waitBegin
  /-- One cycle of the debounce timer; at its end the wait is recorded (R178). -/
  | waitTick
  /-- Completion (R221). -/
  | finish (r : Report)
deriving DecidableEq, Repr, Inhabited

/-- A byte store: cells at strictly rising addresses, none equal to what an unlisted address reads as. -/
abbrev Memory := List Host.Cell

/-- The storage expander SIMX (R64): `MX[0..7]`, the pointer `PX`, and whether the next byte transmitted is the
first after an address with direction WRITE. -/
structure SimX where
  mx : Memory
  px : BitVec 3
  pointerNext : Bool
deriving DecidableEq, Repr, Inhabited

/-- The device at the other end of the bus (R60, R64, R65, R69). -/
inductive Device where
  /-- Any peripheral at all: every answer is a free draw (R60). -/
  | free
  /-- No peripheral: every address phase is answered NACK (R69). -/
  | absent
  /-- The storage expander SIMX (R64). -/
  | simx (m : SimX)
  /-- The keypad expander SIMK (R65); `keys` gives PRESSED for each coming read of COL_REG (bit 4r+c set: the key
  at row r, column c is pressed); its last entry stays. -/
  | simk (m : SimX) (keys : List Mask)
deriving DecidableEq, Repr, Inhabited

/-- The environment (R60): answers that are fixed in advance, taken first; then the device's; then free draws,
numbered by `draws`. `waits` and `waited` do the same for the debounce waits: by how many cycles each exceeds its least
length (R178, log entry 15). -/
structure Env where
  device : Device
  starts : List StartAnswer
  addrs : List AckAnswer
  txs : List AckAnswer
  rxs : List Byte
  waits : List Nat
  draws : Nat
  waited : Nat
deriving DecidableEq, Repr, Inhabited

/-- One action of the host (R52, R260, R285). Offsets are from `BASE` and have 6 bits (R50). -/
inductive HostAccess where
  /-- `MemRead(BASE + off, n)`. -/
  | read (off : BitVec 6) (n : Nat)
  /-- `MemWrite(BASE + off, n, v)`. -/
  | write (off : BitVec 6) (n : Nat) (v : Word)
  /-- The reset input is asserted (R260): while the bus engine is in the phase that the sequencer makes next, or not
  (R263: "If the command was in a bus phase"). -/
  | assertReset (inPhase : Bool)
  /-- The reset input is released (R264). -/
  | releaseReset
deriving DecidableEq, Repr, Inhabited

/-- One entry of the host's schedule: the access, and for how many sequencer steps of a running command the host
then stays quiet (log entry 1). -/
structure HostTurn where
  access : HostAccess
  quiet : Nat
deriving DecidableEq, Repr, Inhabited

/-- The spec gives the controller no trap and nothing that stops it (R227, R229): there is no fault. -/
inductive Fault where
deriving DecidableEq, Repr

/-- The stops that are no behaviour of the controller. -/
inductive Refusal where
  /-- Raised by an arm of `exec` whose instruction has no meaning yet; no arm raises it. Safe. -/
  | notModelled (mnemonic : String)
  /-- Raised by `step` for a host access of another width than 4 bytes or at an offset that is not a multiple of 4:
  "A model refuses it" (R53, U1). Safe. -/
  | narrowOrMisaligned
deriving DecidableEq, Repr

/-- The state. The first group is the host-visible registers of R20 (STATUS by its fields, R23); the second the
hidden state of R31 and R36 to R40; the third is the model's own: the sequencer's latches, the bus trace, the
parameters, the environment and the host (INVENTORY.md, State). -/
structure State where
  cmd : Word
  busy : Bool
  done : Bool
  fail : Bool
  seqErr : Bool
  illegal : Bool
  ovr : Bool
  result : Mask
  debounce : Mask
  busStat : BusStat
  div : Byte
  attempts : BitVec 16
  mode : BusMode
  cur : Word
  todo : List SeqOp
  failAcc : Bool
  acc : Mask
  s1 : Mask
  s2 : Mask
  timer : Timer
  sclDrv : Drive
  sdaDrv : Drive
  rx : Byte
  stepFail : Bool
  trace : List Event
  par : Params
  env : Env
  inReset : Bool
  host : List HostTurn
  quiet : Nat
  rdata : Word
deriving DecidableEq, Repr

/-- The machine right after reset (R261): DEBOUNCE 0xFFFF, BUSSTAT 0xF8, everything else 0 and idle. ACC, S1, S2 and
the latches are log entries 5 and 6; nothing is scheduled by the host and the environment is the free one
(log entries 2 and 7). -/
def State.reset : State where
  cmd := 0#32
  busy := false
  done := false
  fail := false
  seqErr := false
  illegal := false
  ovr := false
  result := 0#16
  debounce := 0xFFFF#16
  busStat := .noInfo
  div := 0#8
  attempts := 0#16
  mode := .idle
  cur := 0#32
  todo := []
  failAcc := false
  acc := 0#16
  s1 := 0#16
  s2 := 0#16
  timer := .idle
  sclDrv := .released
  sdaDrv := .released
  rx := 0#8
  stepFail := false
  trace := []
  par := defaultParams
  env := { device := .free, starts := [], addrs := [], txs := [], rxs := [], waits := [], draws := 0, waited := 0 }
  inReset := false
  host := []
  quiet := 0
  rdata := 0#32

end Sys2Proof.Machine
end

