-- ==== Sys2Proof/Machine/Memory.lean ====
section
/-! DEFINITION. Reading and writing the byte store of SIMX (20_memory.md R64). The controller itself has no memory. -/

namespace Sys2Proof.Machine

/-- What an unlisted address reads as: "all 0x00 at the start" (R64). -/
def unlistedByte : Byte := 0x00#8

/-- Read one byte. -/
def Memory.read : Memory → Nat → Byte
  | [], _ => unlistedByte
  | (b, x) :: m, a => if a = b then x else Memory.read m a

/-- Put a cell in front, unless it holds what an unlisted address reads as. -/
def Memory.cons (a : Nat) (v : Byte) (m : Memory) : Memory :=
  if v = unlistedByte then m else (a, v) :: m

/-- Write one byte, keeping the canonical form. -/
def Memory.write : Memory → Nat → Byte → Memory
  | [], a, v => Memory.cons a v []
  | (b, x) :: m, a, v =>
    if a < b then Memory.cons a v ((b, x) :: m)
    else if a = b then Memory.cons a v m
    else (b, x) :: Memory.write m a v

/-- The canonical form: addresses strictly rising, no cell equal to what an unlisted address reads as. -/
abbrev Memory.wf (m : Memory) : Prop :=
  m.Pairwise (fun x y => x.1 < y.1) ∧ ∀ c ∈ m, c.2 ≠ unlistedByte

end Sys2Proof.Machine
end

