-- ==== Sys2Proof/Machine/Env.lean ====
section
/-! DEFINITION. The bus environment (20_memory.md R60 to R69): what it answers in each phase, and what it holds
afterwards. A scripted answer comes first, then the device's, then a free draw. -/

namespace Sys2Proof.Machine

/-- SIMX sees an address phase: a WRITE address makes the next transmitted byte the register number (R64). -/
def SimX.afterAddress (m : SimX) (b : Byte) : SimX := { m with pointerNext := !b.getLsbD 0 }

/-- SIMX sees a transmitted byte: the first sets `PX`, a later one sets `MX[PX]` (R64). -/
def SimX.afterTx (m : SimX) (b : Byte) : SimX :=
  if m.pointerNext then { m with px := b.extractLsb' 0 3, pointerNext := false }
  else { m with mx := m.mx.write m.px.toNat b }

/-- SIMX answers a receive phase with `MX[PX]` (R64). -/
def SimX.byte (m : SimX) : Byte := m.mx.read m.px.toNat

/-- `MX[ROW_REG][ROW_BIT(r)]`: the level of row r's line (R65). -/
def SimX.rowLevel (p : Params) (m : SimX) (r : Fin 4) : Bool :=
  (m.mx.read p.rowReg.toNat).getLsbD (p.rowBit.get r).toNat

/-- Column c is pulled low by a pressed key whose row is driven low (R65). -/
def SimX.columnLow (p : Params) (m : SimX) (pressed : Mask) (c : Nat) : Bool :=
  (List.finRange 4).any fun r => pressed.getLsbD (4 * r.val + c) && !m.rowLevel p r

/-- One bit of a byte set to a level. -/
def setBit (v : Byte) (i : Nat) (level : Bool) : Byte :=
  if level then v ||| (1#8 <<< i) else v &&& ~~~(1#8 <<< i)

/-- SIMK's answer to a read of COL_REG: the row lines as driven, the columns as pulled (R65). Bits that carry no
line keep `MX[COL_REG]` (log entry 12). -/
def SimX.columns (p : Params) (m : SimX) (pressed : Mask) : Byte :=
  let rows := (List.finRange 4).foldl (fun v r => setBit v (p.rowBit.get r).toNat (m.rowLevel p r))
    (m.mx.read p.colReg.toNat)
  (List.range 4).foldl (fun v c => setBit v (p.colShift.val + c) (!m.columnLow p pressed c)) rows

/-- The environment's answer to a start condition. -/
def Env.startAnswer (e : Env) : StartAnswer :=
  match e.starts, e.device with
  | x :: _, _ => x
  | [], .simx _ => .ok
  | [], .simk _ _ => .ok
  | [], .free => Config.freeStart e.draws
  | [], .absent => Config.freeStart e.draws

/-- The environment after a start condition. -/
def Env.afterStart (e : Env) : Env := { e with starts := e.starts.tail, draws := e.draws + 1 }

/-- SIMX acknowledges its own address only (R64). -/
def addressMatches (p : Params) (b : Byte) : AckAnswer :=
  if b.extractLsb' 1 7 = p.periphAddr then .ack else .nack

/-- The environment's answer to the address byte `b`. -/
def Env.addressAnswer (p : Params) (e : Env) (b : Byte) : AckAnswer :=
  match e.addrs, e.device with
  | x :: _, _ => x
  | [], .simx _ => addressMatches p b
  | [], .simk _ _ => addressMatches p b
  | [], .absent => .nack
  | [], .free => Config.freeAck e.draws

/-- The environment after the address byte `b`. -/
def Env.afterAddress (e : Env) (b : Byte) : Env :=
  { e with
    addrs := e.addrs.tail
    draws := e.draws + 1
    device := match e.device with
      | .simx m => .simx (m.afterAddress b)
      | .simk m ks => .simk (m.afterAddress b) ks
      | .free => .free
      | .absent => .absent }

/-- The environment's answer to a transmitted byte. -/
def Env.txAnswer (e : Env) : AckAnswer :=
  match e.txs, e.device with
  | x :: _, _ => x
  | [], .simx _ => .ack
  | [], .simk _ _ => .ack
  | [], .free => Config.freeAck e.draws
  | [], .absent => Config.freeAck e.draws

/-- The environment after the transmitted byte `b`. -/
def Env.afterTx (e : Env) (b : Byte) : Env :=
  { e with
    txs := e.txs.tail
    draws := e.draws + 1
    device := match e.device with
      | .simx m => .simx (m.afterTx b)
      | .simk m ks => .simk (m.afterTx b) ks
      | .free => .free
      | .absent => .absent }

/-- The byte the environment supplies in a receive phase. -/
def Env.rxAnswer (p : Params) (e : Env) : Byte :=
  match e.rxs, e.device with
  | x :: _, _ => x
  | [], .simx m => m.byte
  | [], .simk m ks => if m.px = p.colReg then m.columns p (ks.headD 0#16) else m.byte
  | [], .free => Config.freeByte e.draws
  | [], .absent => Config.freeByte e.draws

/-- PRESSED for the next read of COL_REG; the last entry stays. -/
def nextKeys : List Mask → List Mask
  | _ :: k :: ks => k :: ks
  | ks => ks

/-- The environment after a receive phase. -/
def Env.afterRx (p : Params) (e : Env) : Env :=
  { e with
    rxs := e.rxs.tail
    draws := e.draws + 1
    device := match e.device with
      | .simk m ks => .simk m (if m.px = p.colReg then nextKeys ks else ks)
      | .simx m => .simx m
      | .free => .free
      | .absent => .absent }

/-- By how many clock cycles the next debounce wait exceeds its least length (R178). -/
def Env.extraWait (e : Env) : Nat :=
  match e.waits with
  | x :: _ => x
  | [] => Config.freeWait e.waited

/-- The environment once a debounce wait has been started. -/
def Env.afterWait (e : Env) : Env := { e with waits := e.waits.tail, waited := e.waited + 1 }

/-- The device after a reset that cut a transaction short: the peripheral may be in the middle of a byte, and its later
answers are free draws (R263, R267, U17). An absent peripheral stays absent (R69). -/
def Device.cut : Device → Device
  | .absent => .absent
  | .free => .free
  | .simx _ => .free
  | .simk _ _ => .free

end Sys2Proof.Machine
end

