-- ==== Sys2Proof/WellFormed.lean ====
section
/-! DEFINITION. Which commands and which assembler lines are well formed (30_encoding.md R84, R88). -/

namespace Sys2Proof

/-- R84: every value of every field is legal, so no command is ill formed; each constructor says so by itself. -/
def Instr.wellFormed : Instr → Bool
  | .start _ _ => true
  | .repstart _ _ => true
  | .startRetry _ _ => true
  | .writeByte _ => true
  | .readByte _ => true
  | .stop => true
  | .writeReg _ _ => true
  | .readReg _ => true
  | .scanRow _ => true
  | .scanKeypad => true
  | .scanEdge => true
  | .translate _ => true

/-- R88: `addr` is a number 0x00 to 0x7F or `PERIPH`. -/
def AsmAddr.inRange : AsmAddr → Bool
  | .num n => decide (n ≤ 0x7F)
  | .periph => true

/-- R88: `reg` is a number 0 to 7 or a name. -/
def AsmReg.inRange : AsmReg → Bool
  | .num n => decide (n ≤ 7)
  | .name _ => true

/-- R88: "An operand out of its range is an assembly error, not a word." -/
def Asm.wellFormed : Asm → Bool
  | .start a _ => a.inRange
  | .repstart a _ => a.inRange
  | .startRetry a _ => a.inRange
  | .writeByte n => decide (n ≤ 0xFF)
  | .readByte _ => true
  | .stop => true
  | .writeReg r n => r.inRange && decide (n ≤ 0xFF)
  | .readReg r => r.inRange
  | .scanRow n => decide (n ≤ 3)
  | .scanKeypad => true
  | .scanEdge => true
  | .translate n => decide (n ≤ 0xFFFF)

end Sys2Proof
end

