-- ==== Sys2Proof/Decode.lean ====
section
/-! DEFINITION. The decoder, total on all 2^32 words (30_encoding.md R87), the encoder written from the same
patterns (R82), the rows of the opcode table and the assembler (R88). -/

namespace Sys2Proof

/-- Why a word does not decode (R85, R86). -/
inductive Illegal where
  /-- OP is 0x0, 0xD, 0xE or 0xF (R86). -/
  | reservedOpcode
  /-- A 1 in a bit that is neither OP nor a field of the opcode's format (R85). -/
  | reservedBit
deriving DecidableEq, Repr

/-- What the decoder answers (R87). -/
inductive Decoded where
  | command (i : Instr)
  | illegal (why : Illegal)
deriving DecidableEq, Repr

/-- The direction a bit names (R57). -/
def Dir.ofBit (b : Bool) : Dir := if b then .read else .write

/-- The bit of a direction (R57): WRITE 0, READ 1. -/
def Dir.bit : Dir → BitVec 1
  | .write => 0#1
  | .read => 1#1

/-- Field OP, bits 3:0 (R81). -/
def fieldOp (w : Word) : BitVec 4 := w.extractLsb' 0 4
/-- Fields DIR and ACK, bit 4 (R81). -/
def fieldBit4 (w : Word) : Bool := w.getLsbD 4
/-- Field REG, bits 7:5 (R81). -/
def fieldReg (w : Word) : BitVec 3 := w.extractLsb' 5 3
/-- Field ROW, bits 6:5 (R81). -/
def fieldRow (w : Word) : BitVec 2 := w.extractLsb' 5 2
/-- Field ADDR, bits 14:8 (R81). -/
def fieldAddr (w : Word) : BitVec 7 := w.extractLsb' 8 7
/-- Field DATA, bits 15:8 (R81). -/
def fieldData (w : Word) : Byte := w.extractLsb' 8 8
/-- Field MASK, bits 31:16 (R81). -/
def fieldMask (w : Word) : Mask := w.extractLsb' 16 16

/-- The bits an opcode uses, OP included (`fmask` of R87); `none` for a reserved opcode (R86). -/
def usedBits (op : BitVec 4) : Option Word :=
  match op.toNat with
  | 0x1 => some 0x00007F1F#32
  | 0x2 => some 0x00007F1F#32
  | 0x3 => some 0x00007F1F#32
  | 0x4 => some 0x0000FF0F#32
  | 0x5 => some 0x0000001F#32
  | 0x6 => some 0x0000000F#32
  | 0x7 => some 0x0000FFEF#32
  | 0x8 => some 0x000000EF#32
  | 0x9 => some 0x0000006F#32
  | 0xA => some 0x0000000F#32
  | 0xB => some 0x0000000F#32
  | 0xC => some 0xFFFF000F#32
  | _ => none

/-- The command an opcode names, its fields read from the word (R83, R84); `none` for a reserved opcode. -/
def commandOf (w : Word) : Option Instr :=
  match (fieldOp w).toNat with
  | 0x1 => some (.start (fieldAddr w) (Dir.ofBit (fieldBit4 w)))
  | 0x2 => some (.repstart (fieldAddr w) (Dir.ofBit (fieldBit4 w)))
  | 0x3 => some (.startRetry (fieldAddr w) (Dir.ofBit (fieldBit4 w)))
  | 0x4 => some (.writeByte (fieldData w))
  | 0x5 => some (.readByte (fieldBit4 w))
  | 0x6 => some .stop
  | 0x7 => some (.writeReg (fieldReg w) (fieldData w))
  | 0x8 => some (.readReg (fieldReg w))
  | 0x9 => some (.scanRow (fieldRow w))
  | 0xA => some .scanKeypad
  | 0xB => some .scanEdge
  | 0xC => some (.translate (fieldMask w))
  | _ => none

/-- The decoder of R87. -/
def decode (w : Word) : Decoded :=
  match usedBits (fieldOp w), commandOf w with
  | some m, some i => if w &&& ~~~m = 0#32 then .command i else .illegal .reservedBit
  | _, _ => .illegal .reservedOpcode

/-- The encoder: the bit patterns of R82, bit 31 on the left, with the opcodes of R83. -/
def encode : Instr → Word
  | .start a d => 0#17 ++ a ++ 0#3 ++ d.bit ++ 0x1#4
  | .repstart a d => 0#17 ++ a ++ 0#3 ++ d.bit ++ 0x2#4
  | .startRetry a d => 0#17 ++ a ++ 0#3 ++ d.bit ++ 0x3#4
  | .writeByte b => 0#16 ++ b ++ 0#4 ++ 0x4#4
  | .readByte k => 0#27 ++ BitVec.ofBool k ++ 0x5#4
  | .stop => 0#28 ++ 0x6#4
  | .writeReg r b => 0#16 ++ b ++ r ++ 0#1 ++ 0x7#4
  | .readReg r => 0#24 ++ r ++ 0#1 ++ 0x8#4
  | .scanRow y => 0#25 ++ y ++ 0#1 ++ 0x9#4
  | .scanKeypad => 0#28 ++ 0xA#4
  | .scanEdge => 0#28 ++ 0xB#4
  | .translate m => m ++ 0#12 ++ 0xC#4

/-- One row of spec/opcode_table.json: a word is the row's command exactly when `w &&& mask = pattern` (R87). -/
structure OpRow where
  mnemonic : String
  mask : Word
  pattern : Word
deriving DecidableEq, Repr

/-- The row of a command's opcode in spec/opcode_table.json. -/
def opRow : Instr → OpRow
  | .start _ _ => ⟨"START", 0xFFFF80EF#32, 0x1#32⟩
  | .repstart _ _ => ⟨"REPSTART", 0xFFFF80EF#32, 0x2#32⟩
  | .startRetry _ _ => ⟨"START_RETRY", 0xFFFF80EF#32, 0x3#32⟩
  | .writeByte _ => ⟨"WRITE_BYTE", 0xFFFF00FF#32, 0x4#32⟩
  | .readByte _ => ⟨"READ_BYTE", 0xFFFFFFEF#32, 0x5#32⟩
  | .stop => ⟨"STOP", 0xFFFFFFFF#32, 0x6#32⟩
  | .writeReg _ _ => ⟨"WRITE_REG", 0xFFFF001F#32, 0x7#32⟩
  | .readReg _ => ⟨"READ_REG", 0xFFFFFF1F#32, 0x8#32⟩
  | .scanRow _ => ⟨"SCAN_ROW", 0xFFFFFF9F#32, 0x9#32⟩
  | .scanKeypad => ⟨"SCAN_KEYPAD", 0xFFFFFFFF#32, 0xA#32⟩
  | .scanEdge => ⟨"SCAN_EDGE", 0xFFFFFFFF#32, 0xB#32⟩
  | .translate _ => ⟨"TRANSLATE", 0x0000FFFF#32, 0xC#32⟩

/-- All twelve rows, in the table's order. -/
def opTable : List OpRow :=
  [opRow (.start 0 .write), opRow (.repstart 0 .write), opRow (.startRetry 0 .write), opRow (.writeByte 0),
   opRow (.readByte false), opRow .stop] ++
  [opRow (.writeReg 0 0), opRow (.readReg 0), opRow (.scanRow 0), opRow .scanKeypad, opRow .scanEdge,
   opRow (.translate 0)]

/-- A word is the row's command (R87). -/
def OpRow.matches (r : OpRow) (w : Word) : Bool := decide (w &&& r.mask = r.pattern)

/-- The instruction the decoder reads from a word of the opcode table. Every command is one 32-bit word (R80), so
a row gives 32 bits and bits above `nbits` are 0. -/
def decodeTableWord (nbits w : Nat) : Option Instr :=
  match decode (BitVec.ofNat 32 (w % 2 ^ nbits)) with
  | .command i => some i
  | .illegal _ => none

/-- The number of a named expander register (20_memory.md R51). -/
def RegName.number : RegName → BitVec 3
  | .in0 => 0
  | .in1 => 1
  | .out0 => 2
  | .out1 => 3
  | .pol0 => 4
  | .pol1 => 5
  | .cfg0 => 6
  | .cfg1 => 7

/-- The address an assembler operand names; `PERIPH` is `PERIPH_ADDR` (R88). -/
def AsmAddr.value (periph : BitVec 7) : AsmAddr → BitVec 7
  | .num n => BitVec.ofNat 7 n
  | .periph => periph

/-- The register number an assembler operand names (R88). -/
def AsmReg.value : AsmReg → BitVec 3
  | .num n => BitVec.ofNat 3 n
  | .name r => r.number

/-- The command an assembler line with operands in range stands for (R88). -/
def Asm.command (periph : BitVec 7) : Asm → Instr
  | .start a d => .start (a.value periph) d
  | .repstart a d => .repstart (a.value periph) d
  | .startRetry a d => .startRetry (a.value periph) d
  | .writeByte n => .writeByte (BitVec.ofNat 8 n)
  | .readByte k => .readByte k
  | .stop => .stop
  | .writeReg r n => .writeReg r.value (BitVec.ofNat 8 n)
  | .readReg r => .readReg r.value
  | .scanRow n => .scanRow (BitVec.ofNat 2 n)
  | .scanKeypad => .scanKeypad
  | .scanEdge => .scanEdge
  | .translate n => .translate (BitVec.ofNat 16 n)

/-- The assembler (R88): the word of a line, or `none` for an operand out of its range. -/
def assemble (periph : BitVec 7) (l : Asm) : Option Word :=
  if l.wellFormed then some (encode (l.command periph)) else none

end Sys2Proof
end

