-- ==== Sys2Proof/Machine/Flags.lean ====
section
/-! DEFINITION. The STATUS word and its fields: acceptance, completion and the errors (10_state.md R23 to R31;
60_exceptions.md R220 to R228), and the BUSSTAT codes (R34). -/

namespace Sys2Proof.Machine

/-- The encoding of the bus mode in STATUS.BUSMODE (R30). -/
def modeBits : BusMode → BitVec 2
  | .idle => 0b00#2
  | .owned => 0b01#2
  | .mt => 0b10#2
  | .mr => 0b11#2

/-- The status code of BUSSTAT[7:0] (R34). -/
def statCode : BusStat → Byte
  | .busError => 0x00#8
  | .startSent => 0x08#8
  | .repStartSent => 0x10#8
  | .slawAck => 0x18#8
  | .slawNack => 0x20#8
  | .txAck => 0x28#8
  | .txNack => 0x30#8
  | .arbLost => 0x38#8
  | .slarAck => 0x40#8
  | .slarNack => 0x48#8
  | .rxAck => 0x50#8
  | .rxNack => 0x58#8
  | .noInfo => 0xF8#8

/-- STATUS[7:0]: BUSMODE, OVR, ILLEGAL, SEQERR, FAIL, DONE, BUSY from bit 7 down (R23). -/
def State.statusByte (s : State) : Byte :=
  modeBits s.mode ++ BitVec.ofBool s.ovr ++ BitVec.ofBool s.illegal ++ BitVec.ofBool s.seqErr ++
    BitVec.ofBool s.fail ++ BitVec.ofBool s.done ++ BitVec.ofBool s.busy

/-- Acceptance of a command word (R220). -/
def State.accept (w : Word) (s : State) : State :=
  { s with
    cmd := w, cur := w, busy := true, done := false, fail := false, seqErr := false, illegal := false,
    failAcc := false }

/-- Completion (R221): RESULT, FAIL, SEQERR, ILLEGAL, BUSY and DONE in one step; the sequencer returns to idle. -/
def State.complete (result : Mask) (fail seqErr illegal : Bool) (s : State) : State :=
  { s with
    result := result, fail := fail, seqErr := seqErr, illegal := illegal, busy := false, done := true, todo := [] }

/-- `raise SeqErr(RESULT = v)` (R222, R224). -/
def State.raiseSeqErr (v : Mask) (s : State) : State := s.complete v false true false

/-- `raise Illegal(RESULT = 0x0000)` (R222, R223). -/
def State.raiseIllegal (s : State) : State := s.complete 0#16 false false true

/-- A CMD write while BUSY is dropped and sets OVR (R226). -/
def State.dropWrite (s : State) : State := { s with ovr := true }

end Sys2Proof.Machine
end

