-- ==== Sys2Proof/Machine/Lines.lean ====
section
/-! DEFINITION. The realisation of each bus event on the two lines (40_bus_primitives.md R130 to R137): the levels the
controller's drivers take, in order, as pairs (SCL_DRV, SDA_DRV). -/

namespace Sys2Proof.Machine

/-- The drivers of one moment: SCL first. -/
abbrev LineLevels := Drive × Drive

/-- SDA for a bit: released for 1, low for 0 (R130). -/
def driveOf (bit : Bool) : Drive := if bit then .released else .low

/-- One clock of a byte with the controller's SDA held at `d`: SDA set while SCL is low, SCL released, SCL low
again (R132). -/
def clockWave (d : Drive) : List LineLevels := [(.low, d), (.released, d), (.low, d)]

/-- Eight bits sent by the controller, most significant first (R132, R56). -/
def byteWave (b : Byte) : List LineLevels :=
  [7, 6, 5, 4, 3, 2, 1, 0].flatMap fun i => clockWave (driveOf (b.getLsbD i))

/-- Eight bits received: the controller leaves SDA released (R132, R133). -/
def listenWave : List LineLevels := (List.replicate 8 (clockWave .released)).flatten

/-- The line levels of an event. A phase that lost arbitration, and a start condition that failed, leave both lines
released (R136, R137); at which bit arbitration was lost is not in the event, so only the release is given
(log entry 14). -/
def waveOf : Event → List LineLevels
  | .s => [(.released, .low), (.low, .low)]
  | .sr => [(.low, .released), (.released, .released), (.released, .low), (.low, .low)]
  | .sfail _ => [(.released, .released)]
  | .a _ .arbLost => [(.released, .released)]
  | .t _ .arbLost => [(.released, .released)]
  | .a b _ => byteWave b ++ clockWave .released
  | .t b _ => byteWave b ++ clockWave .released
  | .r _ k => listenWave ++ clockWave (driveOf (!k))
  | .p => [(.low, .low), (.released, .low), (.released, .released)]
  | .w _ => []

/-- The drivers after an event that found them at `l`. -/
def linesAfter (e : Event) (l : LineLevels) : LineLevels := (waveOf e).getLastD l

end Sys2Proof.Machine
end

