-- ==== Sys2Proof/Machine/Operands.lean ====
section
/-! DEFINITION. The values a command computes from its operands and its samples (20_memory.md R57;
42_keypad_scan.md R171 to R180; 43_translate.md R200 to R203). -/

namespace Sys2Proof.Machine

/-- The address byte `{ADDR[6:0], DIR}` (R57). -/
def addressByte (addr : BitVec 7) (dir : Dir) : Byte := addr ++ dir.bit

/-- The register number as a byte, 0x00 to 0x07 (R153). -/
def regByte (reg : BitVec 3) : Byte := reg.zeroExtend 8

/-- `sel`: all ones but the bit of the row (R171). -/
def rowSelect (p : Params) (row : BitVec 2) : Byte := ~~~(1#8 <<< (p.rowBit.get row.toFin).toNat)

/-- The four column bits of a byte read from COL_REG (R171). -/
def columnNibble (p : Params) (v : Byte) : BitVec 4 := v.extractLsb' p.colShift.val 4

/-- `(ACC << 4) | zext_16(n)` (R173). -/
def accShift (acc : Mask) (n : BitVec 4) : Mask := (acc <<< 4) ||| n.zeroExtend 16

/-- The debounced snapshot (R179): a key is pressed only if both samples say so. -/
def snapshot (s1 s2 : Mask) : Mask := s1 ||| s2

/-- Newly pressed (R180): 0 in the snapshot and 1 before. -/
def newlyPressed (d prev : Mask) : Mask := ~~~d &&& prev

/-- The value SCAN_EDGE returns: the complement of the newly pressed mask (R180). -/
def edgeResult (d prev : Mask) : Mask := ~~~(newlyPressed d prev)

/-- ATTEMPTS counts up and saturates at 0xFFFF (R37, R103). -/
def nextAttempt (n : BitVec 16) : BitVec 16 := if n = 0xFFFF#16 then n else n + 1#16

/-- The positions of a mask that hold a 0 (`zeros16` of R9 is their number). -/
def zeroBits (m : Mask) : List (Fin 16) := (List.finRange 16).filter fun i => !m.getLsbD i.val

/-- The ASCII code of a symbol (R203). -/
def symbolCode : KeySymbol → Byte
  | .d0 => 0x30#8
  | .d1 => 0x31#8
  | .d2 => 0x32#8
  | .d3 => 0x33#8
  | .d4 => 0x34#8
  | .d5 => 0x35#8
  | .d6 => 0x36#8
  | .d7 => 0x37#8
  | .d8 => 0x38#8
  | .d9 => 0x39#8
  | .a => 0x41#8
  | .b => 0x42#8
  | .c => 0x43#8
  | .d => 0x44#8
  | .star => 0x2A#8
  | .hash => 0x23#8

/-- TRANSLATE's byte (R200): the symbol of the one clear bit, or NONE_CODE. -/
def translateCode (p : Params) (m : Mask) : Byte :=
  match zeroBits m with
  | [i] => symbolCode (p.keymap.get i)
  | _ => noneCode

end Sys2Proof.Machine
end

