-- ==== Sys2Proof/Machine/Ops.lean ====
section
/-! DEFINITION. The shared operations: the bus phases and phase sequences of 40_bus_primitives.md section 1, the steps
of the sequencer, the composite sequences of 41 and 42, host accesses (20_memory.md R52 to R55) and reset
(70_reset_and_hazards.md R260 to R263). -/

namespace Sys2Proof.Machine

/-- Record one event of the bus trace (R62) and leave the line drivers where the event leaves them (R40). -/
def State.record (e : Event) (s : State) : State :=
  { s with
    trace := s.trace ++ [e]
    sclDrv := (linesAfter e (s.sclDrv, s.sdaDrv)).1
    sdaDrv := (linesAfter e (s.sclDrv, s.sdaDrv)).2 }

/-- The bus engine leaves a phase with this status code and in this bus mode (R34, R31). -/
def State.setBus (b : BusStat) (m : BusMode) (s : State) : State := { s with busStat := b, mode := m }

/-- The outcome of the last phase sequence: the pseudocode's `res` (R101, R116, R117). -/
def State.setFail (f : Bool) (s : State) : State := { s with stepFail := f }

/-- The start condition of start_seq; only `OK` is followed by the address phase (R101). -/
def State.opStart (addr : BitVec 7) (dir : Dir) (s : State) : State :=
  let u := { s with env := s.env.afterStart }
  match s.env.startAnswer with
  | .ok =>
    let v := { u with todo := .address addr dir :: u.todo }
    if s.mode = .idle then (v.setBus .startSent .owned).record .s
    else (v.setBus .repStartSent .owned).record .sr
  | .busError => ((u.setBus .busError .idle).setFail true).record (.sfail (statCode .busError))
  | .arbLost => ((u.setBus .arbLost .idle).setFail true).record (.sfail (statCode .arbLost))

/-- The bus mode after an acknowledged address (R101). -/
def ackMode : Dir → BusMode
  | .write => .mt
  | .read => .mr

/-- The status code of an acknowledged address (R101). -/
def ackStat : Dir → BusStat
  | .write => .slawAck
  | .read => .slarAck

/-- The status code of a not-acknowledged address (R101). -/
def nackStat : Dir → BusStat
  | .write => .slawNack
  | .read => .slarNack

/-- The address phase of start_seq (R101). -/
def State.opAddress (addr : BitVec 7) (dir : Dir) (s : State) : State :=
  let b := addressByte addr dir
  let r := s.env.addressAnswer s.par b
  let u := ({ s with env := s.env.afterAddress b } : State).record (.a b r)
  match r with
  | .ack => (u.setBus (ackStat dir) (ackMode dir)).setFail false
  | .nack => (u.setBus (nackStat dir) .owned).setFail true
  | .arbLost => (u.setBus .arbLost .idle).setFail true

/-- stop_seq (R102): nothing at all on an IDLE bus. -/
def State.opStop (s : State) : State :=
  if s.mode = .idle then s else (s.setBus .noInfo .idle).record .p

/-- write_seq (R116): skipped unless the bus mode is MT. -/
def State.opTx (b : Byte) (s : State) : State :=
  if s.mode = .mt then
    let r := s.env.txAnswer
    let u := ({ s with env := s.env.afterTx b } : State).record (.t b r)
    match r with
    | .ack => (u.setBus .txAck .mt).setFail false
    | .nack => (u.setBus .txNack .mt).setFail true
    | .arbLost => (u.setBus .arbLost .idle).setFail true
  else s.setFail true

/-- read_seq (R117): skipped, with `READ_FAIL_VALUE`, unless the bus mode is MR. -/
def State.opRx (ack : Bool) (s : State) : State :=
  if s.mode = .mr then
    let v := s.env.rxAnswer s.par
    let u := ({ s with env := s.env.afterRx s.par, rx := v } : State).record (.r v ack)
    if ack then (u.setBus .rxAck .mr).setFail false else (u.setBus .rxNack .owned).setFail false
  else ({ s with rx := readFailValue } : State).setFail true

/-- Head of the loop of retry_seq: count the attempt, then start_seq, then the test (R103). -/
def State.opAttempt (addr : BitVec 7) (dir : Dir) (s : State) : State :=
  { s with
    attempts := nextAttempt s.attempts
    todo := .start addr dir :: .retryUnlessOk addr dir :: s.todo }

/-- Tail of the loop of retry_seq: after a failed attempt, a stop and the next attempt (R103). -/
def State.opRetryUnlessOk (addr : BitVec 7) (dir : Dir) (s : State) : State :=
  if s.stepFail then { s with todo := .stop :: .attempt addr dir :: s.todo } else s

/-- The debounce timer is loaded: the least number of cycles R178 allows, and as many more as the wait takes. -/
def State.opWaitBegin (s : State) : State :=
  { s with timer := .counting (debounceCycles s.par + s.env.extraWait), env := s.env.afterWait }

/-- One cycle of the debounce wait; when no cycle is left the timer is idle and the wait is recorded (R178). -/
def State.opWaitTick (s : State) : State :=
  match s.timer with
  | .counting (n + 1) => { s with timer := .counting n, todo := .waitTick :: s.todo }
  | .counting 0 => ({ s with timer := .idle } : State).record (.w tDebounce)
  | .idle => s.record (.w tDebounce)

/-- What a command reports when it completes (R221 and the command rules). -/
def State.opFinish (r : Report) (s : State) : State :=
  match r with
  | .outcome => s.complete (if s.stepFail then 1#16 else 0#16) s.stepFail false false
  | .value v => s.complete v false false false
  | .byte => s.complete (s.rx.zeroExtend 16) false false false
  | .access => s.complete 0#16 s.failAcc false false
  | .accessByte => s.complete (s.rx.zeroExtend 16) s.failAcc false false
  | .row => s.complete ((columnNibble s.par s.rx).zeroExtend 16) s.failAcc false false
  | .mask => s.complete s.acc s.failAcc false false
  | .edge =>
    let d := snapshot s.s1 s.s2
    ({ s with debounce := d } : State).complete (edgeResult d s.debounce) s.failAcc false false

/-- One step of the sequencer, already taken off the list of steps left. -/
def State.doOp (op : SeqOp) (s : State) : State :=
  match op with
  | .retryBegin => { s with attempts := 0#16 }
  | .attempt a d => s.opAttempt a d
  | .retryUnlessOk a d => s.opRetryUnlessOk a d
  | .start a d => s.opStart a d
  | .address a d => s.opAddress a d
  | .stop => s.opStop
  | .tx b => s.opTx b
  | .rx k => s.opRx k
  | .noteFail => { s with failAcc := s.failAcc || s.stepFail }
  | .settle => s.record (.w s.par.rowSettle)
  | .accZero => { s with acc := 0#16 }
  | .accRow => { s with acc := accShift s.acc (columnNibble s.par s.rx) }
  | .saveS1 => { s with s1 := s.acc }
  | .saveS2 => { s with s2 := s.acc }
  | .waitBegin => s.opWaitBegin
  | .waitTick => s.opWaitTick
  | .finish r => s.opFinish r

/-- Up to `n` steps of the sequencer; an idle sequencer stays as it is. -/
def State.runOps : Nat → State → State
  | 0, s => s
  | n + 1, s =>
    match s.todo with
    | [] => s
    | op :: rest => State.runOps n (({ s with todo := rest } : State).doOp op)

/-- The sequencer takes `n` steps; the host's next access then is due (log entry 1). -/
def State.burst (n : Nat) (s : State) : State := State.runOps n { s with quiet := 0 }

/-- A command. If the sequencer is idle the command begins: its bus-mode precondition is checked (R224, R228), its
steps are laid out, and as many of them are taken as the host stays quiet for, none if it does not (so that a reset can
come before the end of the first phase, R263). If the sequencer is not idle the command that is running goes on, by one
step at least. -/
def State.command (allowed : Bool) (refused : Mask) (steps : List SeqOp) (s : State) : State :=
  match s.todo with
  | [] => if allowed then ({ s with todo := steps } : State).burst s.quiet else s.raiseSeqErr refused
  | _ :: _ => s.burst (max s.quiet 1)

/-- retry_seq (R103). -/
def retrySeq (addr : BitVec 7) (dir : Dir) : List SeqOp := [.retryBegin, .attempt addr dir]

/-- write_reg_seq (R153). -/
def writeRegSeq (p : Params) (reg : BitVec 3) (val : Byte) : List SeqOp :=
  retrySeq p.periphAddr .write ++ [.tx (regByte reg), .noteFail, .tx val, .noteFail, .stop]

/-- read_reg_seq (R155). -/
def readRegSeq (p : Params) (reg : BitVec 3) : List SeqOp :=
  retrySeq p.periphAddr .write ++
    [.tx (regByte reg), .noteFail, .start p.periphAddr .read, .noteFail, .rx false, .noteFail, .stop]

/-- The wait between row select and column read, if there is one (R171). -/
def settleSeq (p : Params) : List SeqOp := if p.rowSettle = 0 then [] else [.settle]

/-- scan_row_seq (R171). -/
def scanRowSeq (p : Params) (row : BitVec 2) : List SeqOp :=
  writeRegSeq p p.rowReg (rowSelect p row) ++ settleSeq p ++ readRegSeq p p.colReg ++
    writeRegSeq p p.rowReg 0xFF#8

/-- scan_keypad_seq (R173): rows 3, 2, 1, 0. -/
def scanKeypadSeq (p : Params) : List SeqOp :=
  .accZero :: [3#2, 2#2, 1#2, 0#2].flatMap fun r => scanRowSeq p r ++ [.accRow]

/-- The two scans of SCAN_EDGE and the wait between them (R176 steps 1 to 3). -/
def scanEdgeSeq (p : Params) : List SeqOp :=
  scanKeypadSeq p ++ [.saveS1, .waitBegin, .waitTick] ++ scanKeypadSeq p ++ [.saveS2]

/-- The bus clock frequency (R35, R138): no rule depends on it. -/
def State.sclFreq (s : State) : Nat := Config.sclFreq s.par.fClk s.div

/-- The host reads the register at an offset (R20, R52); reserved offsets read 0 (R54). -/
def State.readRegister (off : BitVec 6) (s : State) : Word :=
  match off.toNat with
  | 0x00 => s.cmd
  | 0x04 => s.statusByte.zeroExtend 32
  | 0x08 => s.result.zeroExtend 32
  | 0x0C => s.debounce.zeroExtend 32
  | 0x10 => (statCode s.busStat).zeroExtend 32
  | 0x14 => s.div.zeroExtend 32
  | 0x18 => s.attempts.zeroExtend 32
  | _ => 0#32

/-- Every piece of the controller's state at its reset value (R261, R263). What is not the controller's stays: the
parameters, the environment, the host, and the trace of what the bus has seen (R42, log entry 18). -/
def State.resetRegisters (s : State) : State :=
  { State.reset with
    par := s.par, trace := s.trace, env := s.env, inReset := s.inReset, host := s.host, quiet := s.quiet,
    rdata := s.rdata }

/-- A reset now cuts a transaction short: the bus is owned, or the bus engine is in the start condition that would own it
(R263, R267). -/
def State.cutsTransaction (inPhase : Bool) (s : State) : Bool :=
  s.mode != .idle ||
    match s.todo with
    | .start _ _ :: _ => inPhase
    | _ => false

/-- The reset input is asserted (R260, R263). A phase that is cut records no event and drives no stop; what the
peripheral then answers is open (log entry 27). -/
def State.assertReset (inPhase : Bool) (s : State) : State :=
  { s.resetRegisters with
    inReset := true
    env := if s.cutsTransaction inPhase then { s.env with device := s.env.device.cut } else s.env }

/-- How a host access is served. -/
inductive Served where
  /-- The access is over. -/
  | done (s : State)
  /-- A command was accepted: its word is in CUR. -/
  | issued (s : State)
  /-- The spec gives the access no meaning (R53). -/
  | unsupported
deriving DecidableEq, Repr

/-- R52: aligned 32-bit accesses only. -/
def supported (off : BitVec 6) (n : Nat) : Bool := decide (n = 4) && decide (off.extractLsb' 0 2 = 0#2)

/-- An aligned 32-bit write (R22, R35, R41, R54, R220, R226). -/
def State.writeRegister (off : BitVec 6) (v : Word) (s : State) : Served :=
  match off.toNat with
  | 0x00 => if s.busy then .done s.dropWrite else .issued (s.accept v)
  | 0x14 => .done { s with div := v.extractLsb' 0 8 }
  | _ => .done s

/-- One host access. While reset is asserted writes are ignored (R260). -/
def State.serve (a : HostAccess) (s : State) : Served :=
  match a with
  | .read off n => if supported off n then .done { s with rdata := s.readRegister off } else .unsupported
  | .write off n v =>
    if supported off n then
      if s.inReset then .done s else s.writeRegister off v
    else .unsupported
  | .assertReset inPhase => .done (s.assertReset inPhase)
  | .releaseReset => .done { s with inReset := false }

/-- Which agent moves next. -/
inductive Turn where
  /-- No command is running and the host has nothing scheduled. -/
  | rest
  /-- The sequencer goes on with the command in CUR. -/
  | sequencer
  /-- The host's next access is due, to be served in this state. -/
  | host (a : HostAccess) (s : State)
deriving DecidableEq, Repr

/-- The sequencer moves while a command runs and the host is quiet; else the host's next access is served
(R58, log entry 1). -/
def State.nextTurn (s : State) : Turn :=
  if s.busy && (s.quiet != 0 || s.host.isEmpty) then .sequencer
  else
    match s.host with
    | [] => .rest
    | t :: ts => .host t.access { s with host := ts, quiet := t.quiet }

/-- The platform's address decoder (R50, R70): the offset a host address has in the window, if it lies there. -/
def windowOffset (p : Params) (addr : Nat) : Option (BitVec 6) :=
  if paramBase p ≤ addr ∧ addr ≤ paramBase p + 0x3F then some (BitVec.ofNat 6 (addr - paramBase p)) else none

/-- The access that `MemRead(addr, n)` makes on the controller, if the address lies in its window (R52). -/
def memRead (p : Params) (addr n : Nat) : Option HostAccess := (windowOffset p addr).map (.read · n)

/-- The access that `MemWrite(addr, n, v)` makes on the controller, if the address lies in its window (R52). -/
def memWrite (p : Params) (addr n : Nat) (v : Word) : Option HostAccess := (windowOffset p addr).map (.write · n v)

/-- The macro `EXEC cmd` (R89): write the word to CMD, then poll STATUS; `polls` says for how many sequencer steps the
host is quiet before each poll, and how often it polls. -/
def hostExec (w : Word) (quiet : Nat) (polls : List Nat) : List HostTurn :=
  ⟨.write 0x00 4 w, quiet⟩ :: polls.map fun q => ⟨.read 0x04 4, q⟩

/-- The macro `RD name` (R89), by the register's offset. -/
def hostRd (off : BitVec 6) : List HostTurn := [⟨.read off 4, 0⟩]

end Sys2Proof.Machine
end

