-- ==== Sys2Proof/Machine/BusPrimitives.lean ====
section
/-! DEFINITION. The six primitive commands of 40_bus_primitives.md section 2. -/

namespace Sys2Proof.Machine

/-- START (R104): start_seq, no precondition. -/
def execStart (addr : BitVec 7) (dir : Dir) (s : State) : Host.Outcome State Fault Refusal :=
  .next (s.command true 0#16 [.start addr dir, .finish .outcome])

/-- REPSTART (R108): the same as START. -/
def execRepstart (addr : BitVec 7) (dir : Dir) (s : State) : Host.Outcome State Fault Refusal :=
  .next (s.command true 0#16 [.start addr dir, .finish .outcome])

/-- START_RETRY (R112): retry_seq; it reports no failure and may never complete (R114). -/
def execStartRetry (addr : BitVec 7) (dir : Dir) (s : State) : Host.Outcome State Fault Refusal :=
  .next (s.command true 0#16 (retrySeq addr dir ++ [.finish (.value 0#16)]))

/-- WRITE_BYTE (R118): write_seq, if the bus mode is MT. -/
def execWriteByte (data : Byte) (s : State) : Host.Outcome State Fault Refusal :=
  .next (s.command (decide (s.mode = .mt)) 0x0001#16 [.tx data, .finish .outcome])

/-- READ_BYTE (R122): read_seq, if the bus mode is MR. -/
def execReadByte (ack : Bool) (s : State) : Host.Outcome State Fault Refusal :=
  .next (s.command (decide (s.mode = .mr)) (readFailValue.zeroExtend 16) [.rx ack, .finish .byte])

/-- STOP (R126): stop_seq. -/
def execStop (s : State) : Host.Outcome State Fault Refusal :=
  .next (s.command true 0#16 [.stop, .finish (.value 0#16)])

end Sys2Proof.Machine
end

