-- ==== Sys2Proof/Machine/KeypadScan.lean ====
section
/-! DEFINITION. The keypad scan and edge-detect commands of 42_keypad_scan.md section 2. -/

namespace Sys2Proof.Machine

/-- SCAN_ROW (R172): scan_row_seq, if the bus mode is IDLE. -/
def execScanRow (row : BitVec 2) (s : State) : Host.Outcome State Fault Refusal :=
  .next (s.command (decide (s.mode = .idle)) 0x000F#16 (scanRowSeq s.par row ++ [.finish .row]))

/-- SCAN_KEYPAD (R174): scan_keypad_seq, if the bus mode is IDLE. -/
def execScanKeypad (s : State) : Host.Outcome State Fault Refusal :=
  .next (s.command (decide (s.mode = .idle)) 0xFFFF#16 (scanKeypadSeq s.par ++ [.finish .mask]))

/-- SCAN_EDGE (R176): two scans round the debounce wait, if the bus mode is IDLE. -/
def execScanEdge (s : State) : Host.Outcome State Fault Refusal :=
  .next (s.command (decide (s.mode = .idle)) 0xFFFF#16 (scanEdgeSeq s.par ++ [.finish .edge]))

end Sys2Proof.Machine
end

