-- ==== Sys2Proof/Machine/RegisterAccess.lean ====
section
/-! DEFINITION. The expander register access commands of 41_register_access.md section 2. -/

namespace Sys2Proof.Machine

/-- WRITE_REG (R152): write_reg_seq, if the bus mode is IDLE. -/
def execWriteReg (reg : BitVec 3) (data : Byte) (s : State) : Host.Outcome State Fault Refusal :=
  .next (s.command (decide (s.mode = .idle)) 0x0000#16 (writeRegSeq s.par reg data ++ [.finish .access]))

/-- READ_REG (R156): read_reg_seq, if the bus mode is IDLE. -/
def execReadReg (reg : BitVec 3) (s : State) : Host.Outcome State Fault Refusal :=
  .next (s.command (decide (s.mode = .idle)) 0x00FF#16 (readRegSeq s.par reg ++ [.finish .accessByte]))

end Sys2Proof.Machine
end

