-- ==== Sys2Proof/Machine/Translate.lean ====
section
/-! DEFINITION. The key-code translation command of 43_translate.md. -/

namespace Sys2Proof.Machine

/-- TRANSLATE (R200): any bus mode, no bus activity. -/
def execTranslate (mask : Mask) (s : State) : Host.Outcome State Fault Refusal :=
  .next (s.command true 0#16 [.finish (.value ((translateCode s.par mask).zeroExtend 16))])

end Sys2Proof.Machine
end

