-- ==== Sys2Proof/Machine/Dispatch.lean ====
section
/-! DEFINITION. One arm per command. -/

namespace Sys2Proof.Machine

def exec (i : Instr) (s : State) : Host.Outcome State Fault Refusal :=
  match i with
  | .start a d => Sys2Proof.Machine.execStart a d s
  | .repstart a d => Sys2Proof.Machine.execRepstart a d s
  | .startRetry a d => Sys2Proof.Machine.execStartRetry a d s
  | .writeByte b => Sys2Proof.Machine.execWriteByte b s
  | .readByte k => Sys2Proof.Machine.execReadByte k s
  | .stop => Sys2Proof.Machine.execStop s
  | .writeReg r b => Sys2Proof.Machine.execWriteReg r b s
  | .readReg r => Sys2Proof.Machine.execReadReg r s
  | .scanRow y => Sys2Proof.Machine.execScanRow y s
  | .scanKeypad => Sys2Proof.Machine.execScanKeypad s
  | .scanEdge => Sys2Proof.Machine.execScanEdge s
  | .translate m => Sys2Proof.Machine.execTranslate m s

end Sys2Proof.Machine
end

