-- ==== Sys2Proof/Machine/Step.lean ====
section
/-! DEFINITION. One step of the machine, and the state in which the next step runs a given command. -/

namespace Sys2Proof.Machine

/-- The sequencer decodes the word in CUR and runs its command (R87, R220); a word that does not decode raises
Illegal (R223). -/
def runWord (w : Word) (s : State) : Host.Outcome State Fault Refusal :=
  match decode w with
  | .command i => exec i s
  | .illegal _ => .next s.raiseIllegal

/-- One step: the agent whose turn it is moves. A command the host issues is decoded and begun in the same step
(R220: "In that cycle"). -/
def step (s : State) : Host.Outcome State Fault Refusal :=
  match s.nextTurn with
  | .rest => .next s
  | .sequencer => runWord s.cur s
  | .host a t =>
    match t.serve a with
    | .done u => .next u
    | .issued u => runWord u.cur u
    | .unsupported => .refused .narrowOrMisaligned

/-- The controller fetches nothing (R43, R68): the next instruction is the word the host writes to CMD next. So the
write is scheduled first, with at least one quiet step after it, and no command is running that would have it dropped,
nor reset asserted. -/
def State.withFetchWord (s : State) (nbits w : Nat) : State :=
  { s with
    host := ⟨.write 0x00 4 (BitVec.ofNat 32 (w % 2 ^ nbits)), max s.quiet 1⟩ :: s.host
    busy := false
    todo := []
    inReset := false }

end Sys2Proof.Machine
end

