-- ==== Sys2Proof/Safety.lean ====
section
/-! DEFINITION. The predicates that claims about runs are stated in: the invariants of the machine, and what the
environment does in a retry sequence. -/

namespace Sys2Proof.Machine

/-- The status codes that the last phase can have left in each bus mode (R34 and R101, R102, R116, R117). -/
def statFits : BusMode → BusStat → Bool
  | .idle, .busError => true
  | .idle, .arbLost => true
  | .idle, .noInfo => true
  | .owned, .startSent => true
  | .owned, .repStartSent => true
  | .owned, .slawNack => true
  | .owned, .slarNack => true
  | .owned, .rxNack => true
  | .mt, .slawAck => true
  | .mt, .txAck => true
  | .mt, .txNack => true
  | .mr, .slarAck => true
  | .mr, .rxAck => true
  | _, _ => false

/-- BUSSTAT and the bus mode tell the same story. -/
def State.BusStatFits (s : State) : Prop := statFits s.mode s.busStat = true

/-- On an IDLE bus both lines are released; on an owned one the controller holds SCL low between phases
(R130 to R134). -/
def State.LinesFit (s : State) : Prop :=
  if s.mode = .idle then s.sclDrv = .released ∧ s.sdaDrv = .released else s.sclDrv = .low

/-- The step that completes a command. -/
def SeqOp.isFinish : SeqOp → Bool
  | .finish _ => true
  | _ => false

/-- A list of steps that completes its command with its last step and not before. -/
def stepsComplete : List SeqOp → Bool
  | [] => false
  | [op] => op.isFinish
  | op :: rest => !op.isFinish && stepsComplete rest

/-- BUSY is 1 exactly while a command has steps left, the last of which completes it (R24, R36, R221). -/
def State.Running (s : State) : Prop :=
  if s.busy then stepsComplete s.todo = true else s.todo = []

/-- At most one of three flags. -/
def atMostOne (a b c : Bool) : Bool := !(a && b) && !(a && c) && !(b && c)

/-- The reports of STATUS: none while BUSY, none before DONE, at most one of FAIL, SEQERR, ILLEGAL (R220, R228). -/
def State.StatusExclusive (s : State) : Prop :=
  atMostOne s.fail s.seqErr s.illegal = true ∧
  (s.busy = true → s.done = false) ∧
  (s.done = false → s.fail = false ∧ s.seqErr = false ∧ s.illegal = false)

/-- Every piece of state that R261 gives a value has it. ACC, S1 and S2 are "unspecified" there and are not named. -/
def State.AtReset (s : State) : Prop :=
  s.cmd = 0#32 ∧ s.busy = false ∧ s.done = false ∧ s.fail = false ∧ s.seqErr = false ∧ s.illegal = false ∧
  s.ovr = false ∧ s.mode = .idle ∧ s.result = 0x0000#16 ∧ s.debounce = 0xFFFF#16 ∧ s.busStat = .noInfo ∧
  s.div = 0x00#8 ∧ s.attempts = 0x0000#16 ∧ s.cur = 0#32 ∧ s.todo = [] ∧ s.failAcc = false ∧ s.timer = .idle ∧
  s.sclDrv = .released ∧ s.sdaDrv = .released

/-- While reset is asserted the controller's state is that of R261 (R260, R263). -/
def State.ResetHeld (s : State) : Prop := s.inReset = true → s.AtReset

/-- The step that stores DEBOUNCE is a step of SCAN_EDGE only (R33, R176). -/
def State.EdgeOnlyInScanEdge (s : State) : Prop :=
  SeqOp.finish .edge ∈ s.todo → decode s.cur = .command .scanEdge

/-- The byte store of a reference device; the others have none. -/
def Device.store : Device → Memory
  | .simx m => m.mx
  | .simk m _ => m.mx
  | .free => []
  | .absent => []

/-- A byte of the reference device's store, `MX[a]` (R64). -/
def State.storeByte (s : State) (a : Nat) : Byte := s.env.device.store.read a

/-- The device's store is in canonical form and holds only `MX[0..7]` (R64). -/
def State.StoreCanonical (s : State) : Prop :=
  s.env.device.store.wf ∧ ∀ c ∈ s.env.device.store, c.1 < 8

/-- The environment grants a start condition and acknowledges the address that follows: start_seq is ok (R101). -/
def attemptOk (p : Params) (addr : BitVec 7) (dir : Dir) (e : Env) : Bool :=
  decide (e.startAnswer = .ok) && decide (e.afterStart.addressAnswer p (addressByte addr dir) = .ack)

/-- The environment after one start_seq (R101): no address phase follows a failed start condition. -/
def envAfterAttempt (addr : BitVec 7) (dir : Dir) (e : Env) : Env :=
  if e.startAnswer = .ok then e.afterStart.afterAddress (addressByte addr dir) else e.afterStart

/-- The environment refuses exactly `k` attempts of a retry sequence and grants the next (R103). -/
def grantsAfter (p : Params) (addr : BitVec 7) (dir : Dir) : Nat → Env → Bool
  | 0, e => attemptOk p addr dir e
  | k + 1, e => !attemptOk p addr dir e && grantsAfter p addr dir k (envAfterAttempt addr dir e)

/-- The environment when the bus is obtained after `k` refused attempts (R103). -/
def envWhenGranted (addr : BitVec 7) (dir : Dir) : Nat → Env → Env
  | 0, e => envAfterAttempt addr dir e
  | k + 1, e => envWhenGranted addr dir k (envAfterAttempt addr dir e)

/-- The environment grants no attempt, however many are made (R114). -/
def neverGrants (p : Params) (addr : BitVec 7) (dir : Dir) (e : Env) : Prop :=
  ∀ k, grantsAfter p addr dir k e = false

/-- The running command is inside the loop of retry_seq (R103), at one of its six places, with the steps `rest` to
follow if the loop ends. At the test of the loop the attempt before it has failed. -/
def State.InRetry (addr : BitVec 7) (dir : Dir) (rest : List SeqOp) (s : State) : Prop :=
  s.todo = retrySeq addr dir ++ rest ∨
  s.todo = .attempt addr dir :: rest ∨
  s.todo = .start addr dir :: .retryUnlessOk addr dir :: rest ∨
  s.todo = .address addr dir :: .retryUnlessOk addr dir :: rest ∨
  (s.todo = .retryUnlessOk addr dir :: rest ∧ s.stepFail = true) ∨
  s.todo = .stop :: .attempt addr dir :: rest

/-- The running command is in its retry, or has only ACC to clear before it (R173). -/
def State.BoundForRetry (addr : BitVec 7) (dir : Dir) (rest : List SeqOp) (s : State) : Prop :=
  s.InRetry addr dir rest ∨ s.todo = .accZero :: (retrySeq addr dir ++ rest)

/-- The running command is inside a retry that the environment will not grant (R103, R114). Between the start condition
and the address the attempt is half made: the environment is that of some `e` that grants nothing, after its start
condition. -/
def State.Hopeless (addr : BitVec 7) (dir : Dir) (rest : List SeqOp) (s : State) : Prop :=
  (s.todo = retrySeq addr dir ++ rest ∧ neverGrants s.par addr dir s.env) ∨
  (s.todo = .attempt addr dir :: rest ∧ neverGrants s.par addr dir s.env) ∨
  (s.todo = .start addr dir :: .retryUnlessOk addr dir :: rest ∧ neverGrants s.par addr dir s.env) ∨
  (s.todo = .address addr dir :: .retryUnlessOk addr dir :: rest ∧
    ∃ e : Env, e.startAnswer = .ok ∧ s.env = e.afterStart ∧ neverGrants s.par addr dir e) ∨
  (s.todo = .retryUnlessOk addr dir :: rest ∧ s.stepFail = true ∧ neverGrants s.par addr dir s.env) ∨
  (s.todo = .stop :: .attempt addr dir :: rest ∧ neverGrants s.par addr dir s.env)

/-- An absent peripheral: every address phase is answered NACK, and no script says otherwise (R69). -/
def Env.Absent (e : Env) : Prop := e.device = .absent ∧ e.addrs = []

/-- What a START or a WRITE_BYTE reports (R104, R118). -/
def outcomeWord (failed : Bool) : Mask := if failed then 0x0001#16 else 0x0000#16

/-- The five events of a register write whose phases all succeed (R159). -/
def writeRegEvents (p : Params) (reg : BitVec 3) (v : Byte) : List Event :=
  [.s, .a (addressByte p.periphAddr .write) .ack, .t (regByte reg) .ack, .t v .ack, .p]

/-- The seven events of a register read whose phases all succeed (R159). -/
def readRegEvents (p : Params) (reg : BitVec 3) (v : Byte) : List Event :=
  [.s, .a (addressByte p.periphAddr .write) .ack, .t (regByte reg) .ack, .sr,
    .a (addressByte p.periphAddr .read) .ack, .r v false, .p]

/-- The event of the wait between row select and column read, if there is one (R171). -/
def settleEvents (p : Params) : List Event := if p.rowSettle = 0 then [] else [.w p.rowSettle]

/-- The events of a row scan whose phases all succeed: the row select, the settle time if there is one, the column read,
the restore (R171). -/
def rowScanEvents (p : Params) (row : Fin 4) (v : Byte) : List Event :=
  writeRegEvents p p.rowReg (~~~(1#8 <<< (p.rowBit.get row).toNat)) ++
    (settleEvents p ++ (readRegEvents p p.colReg v ++ writeRegEvents p p.rowReg 0xFF#8))

/-- The nibble of a column read: that of the byte received, or all ones if the read failed (R151, R171). -/
def nibbleOf (p : Params) : Option Byte → BitVec 4
  | some v => columnNibble p v
  | none => 0xF#4

/-- A script of the address phases of row scans, in which the column read's repeated start is answered NACK where there is
no byte to read. -/
def scriptedReads (rs : List (Option Byte)) : List AckAnswer :=
  rs.flatMap fun r => [.ack, .ack, if r.isSome then .ack else .nack, .ack]

/-- The mask `{n3, n2, n1, n0}`: row 3's nibble in bits 15 to 12 (R173, R175). -/
def fourNibbles (n3 n2 n1 n0 : BitVec 4) : Mask := n3 ++ n2 ++ n1 ++ n0

/-- What the environment's answers make of a register access, a row scan or a scan: the environment afterwards, whether
any of its steps failed (R154, R184), and the value it gives. -/
structure AccessResult (α : Type) where
  env : Env
  failed : Bool
  value : α

/-- write_reg_seq once its retry is granted after `k` refused attempts, for every answer to its two bytes: after a lost
arbitration the value is not sent (R151, R153). -/
def writeResult (p : Params) (reg : BitVec 3) (v : Byte) (k : Nat) (e : Env) : AccessResult Unit :=
  let e0 := envWhenGranted p.periphAddr .write k e
  let e1 := e0.afterTx (regByte reg)
  if e0.txAnswer = .arbLost then ⟨e1, true, ()⟩
  else ⟨e1.afterTx v, decide (e0.txAnswer ≠ .ack) || decide (e1.txAnswer ≠ .ack), ()⟩

/-- read_reg_seq once its retry is granted after `k` refused attempts, for every later answer: a read whose repeated start
is not ok is skipped and gives 0xFF (R151, R155). -/
def readResult (p : Params) (reg : BitVec 3) (k : Nat) (e : Env) : AccessResult Byte :=
  let e0 := envWhenGranted p.periphAddr .write k e
  let e1 := e0.afterTx (regByte reg)
  let e2 := envAfterAttempt p.periphAddr .read e1
  if attemptOk p p.periphAddr .read e1 then ⟨e2.afterRx p, decide (e0.txAnswer ≠ .ack), e2.rxAnswer p⟩
  else ⟨e2, true, 0xFF#8⟩

/-- How many attempts are refused in the three retries of a row scan (R171). -/
structure RowTries where
  select : Nat
  read : Nat
  restore : Nat

/-- The attempts refused in a row scan. -/
def RowTries.refused (k : RowTries) : Nat := k.select + k.read + k.restore

/-- The register write that selects a row (R171). -/
def selectResult (p : Params) (y : BitVec 2) (k : RowTries) (e : Env) : AccessResult Unit :=
  writeResult p p.rowReg (~~~(1#8 <<< (p.rowBit.get y.toFin).toNat)) k.select e

/-- The column read of a row scan, after the row select (R171). -/
def columnResult (p : Params) (y : BitVec 2) (k : RowTries) (e : Env) : AccessResult Byte :=
  readResult p p.colReg k.read (selectResult p y k e).env

/-- A row scan, for every answer: all three register accesses are made, whichever fail (R171, R184). -/
def rowResult (p : Params) (y : BitVec 2) (k : RowTries) (e : Env) : AccessResult (BitVec 4) :=
  let w := selectResult p y k e
  let r := columnResult p y k e
  let z := writeResult p p.rowReg 0xFF#8 k.restore r.env
  ⟨z.env, w.failed || r.failed || z.failed, columnNibble p r.value⟩

/-- The three retries of a row scan are granted, each after the refused attempts that `k` says. -/
def rowGranted (p : Params) (y : BitVec 2) (k : RowTries) (e : Env) : Prop :=
  grantsAfter p p.periphAddr .write k.select e = true ∧
  grantsAfter p p.periphAddr .write k.read (selectResult p y k e).env = true ∧
  grantsAfter p p.periphAddr .write k.restore (columnResult p y k e).env = true

/-- A scan of the keypad, for every answer: rows 3, 2, 1, 0, whichever accesses fail (R173, R184). -/
def scanResult (p : Params) (k : Fin 4 → RowTries) (e : Env) : AccessResult Mask :=
  let a := rowResult p 3#2 (k 3) e
  let b := rowResult p 2#2 (k 2) a.env
  let c := rowResult p 1#2 (k 1) b.env
  let d := rowResult p 0#2 (k 0) c.env
  ⟨d.env, a.failed || b.failed || c.failed || d.failed, fourNibbles a.value b.value c.value d.value⟩

/-- The twelve retries of a scan are granted, each after the refused attempts that `k` says. -/
def scanGranted (p : Params) (k : Fin 4 → RowTries) (e : Env) : Prop :=
  let a := rowResult p 3#2 (k 3) e
  let b := rowResult p 2#2 (k 2) a.env
  let c := rowResult p 1#2 (k 1) b.env
  rowGranted p 3#2 (k 3) e ∧ rowGranted p 2#2 (k 2) a.env ∧ rowGranted p 1#2 (k 1) b.env ∧
  rowGranted p 0#2 (k 0) c.env

/-- The attempts refused in a scan. -/
def refusedInScan (k : Fin 4 → RowTries) : Nat := (k 3).refused + (k 2).refused + (k 1).refused + (k 0).refused

/-- A command has just been accepted (R220): its sequencer has not moved. -/
def State.Fresh (s : State) : Prop := s.busy = true ∧ s.todo = [] ∧ s.failAcc = false

/-- A command has completed with this RESULT and this FAIL, without an error (R221). -/
def State.CompletedWith (r : Mask) (f : Bool) (t : State) : Prop :=
  t.result = r ∧ t.fail = f ∧ t.seqErr = false ∧ t.illegal = false ∧ t.busy = false ∧ t.done = true ∧ t.todo = []

/-- A refused command (R222, R224): RESULT, SEQERR = 1, FAIL = 0, completed, and nothing else changed. -/
def State.refusedWith (r : Mask) (s : State) : State :=
  { s with
    result := r, seqErr := true, fail := false, illegal := false, busy := false, done := true, todo := [] }

/-- What no command changes: CMD, CUR, OVR, DIV, the parameters, the reset input and what is the host's. -/
def State.FixedAs (s t : State) : Prop :=
  t.cmd = s.cmd ∧ t.cur = s.cur ∧ t.ovr = s.ovr ∧ t.div = s.div ∧ t.par = s.par ∧ t.inReset = s.inReset ∧
  t.host = s.host ∧ t.rdata = s.rdata

/-- The scanner's scratch and the debounce timer (R38, R39) are as they were. -/
def State.ScannerAs (s t : State) : Prop := t.acc = s.acc ∧ t.s1 = s.s1 ∧ t.s2 = s.s2 ∧ t.timer = s.timer

/-- The host's next access is `a` and it is due; the host then stays quiet for `q` steps and goes on with `ts`. -/
def State.Due (a : HostAccess) (q : Nat) (ts : List HostTurn) (s : State) : Prop :=
  s.host = ⟨a, q⟩ :: ts ∧ (s.busy = false ∨ s.quiet = 0)

/-- The schedule after the access. -/
def State.served (q : Nat) (ts : List HostTurn) (s : State) : State := { s with host := ts, quiet := q }

/-- Steps of START, REPSTART and STOP. -/
def stepOfStart : SeqOp → Bool
  | .start _ _ => true
  | .address _ _ => true
  | .stop => true
  | .finish .outcome => true
  | .finish (.value _) => true
  | _ => false

/-- Steps of START_RETRY. -/
def stepOfRetry : SeqOp → Bool
  | .retryBegin => true
  | .attempt _ _ => true
  | .retryUnlessOk _ _ => true
  | op => stepOfStart op

/-- Steps of WRITE_BYTE. -/
def stepOfWriteByte : SeqOp → Bool
  | .tx _ => true
  | .finish .outcome => true
  | _ => false

/-- Steps of READ_BYTE. -/
def stepOfReadByte : SeqOp → Bool
  | .rx _ => true
  | .finish .byte => true
  | _ => false

/-- Steps of TRANSLATE. -/
def stepOfTranslate : SeqOp → Bool
  | .finish (.value _) => true
  | _ => false

/-- Steps of WRITE_REG, READ_REG and SCAN_ROW. -/
def stepOfAccess : SeqOp → Bool
  | .tx _ => true
  | .rx _ => true
  | .noteFail => true
  | .settle => true
  | .finish .access => true
  | .finish .accessByte => true
  | .finish .row => true
  | op => stepOfRetry op

/-- Steps of SCAN_KEYPAD. -/
def stepOfScan : SeqOp → Bool
  | .accZero => true
  | .accRow => true
  | .finish .mask => true
  | op => stepOfAccess op

/-- The commands that run a retry sequence for the expander, and START_RETRY (R103, R153, R155). -/
def retriesBus : Instr → Bool
  | .startRetry _ _ => true
  | .writeReg _ _ => true
  | .readReg _ => true
  | .scanRow _ => true
  | .scanKeypad => true
  | .scanEdge => true
  | .start _ _ => false
  | .repstart _ _ => false
  | .writeByte _ => false
  | .readByte _ => false
  | .stop => false
  | .translate _ => false

/-- The wiring of R6: rows on bits 0 to 3 of OUT1, columns on bits 4 to 7 of IN1. -/
def defaultWiring (p : Params) : Prop :=
  p.rowReg = 3#3 ∧ p.colReg = 1#3 ∧ p.rowBit = #v[0#3, 1#3, 2#3, 3#3] ∧ p.colShift = 4

/-- The byte a transmitted byte would be stored at, if the device stores it (R64). -/
def Device.storeAddress : Device → Option Nat
  | .simx m => if m.pointerNext then none else some m.px.toNat
  | .simk m _ => if m.pointerNext then none else some m.px.toNat
  | .free => none
  | .absent => none

/-- The environment of a reference device (R64, R65) whose bus phases are not overridden by a script. -/
def Env.Plain (e : Env) : Prop :=
  e.starts = [] ∧ e.addrs = [] ∧ e.txs = [] ∧
  match e.device with
  | .simx _ => True
  | .simk _ _ => True
  | .free => False
  | .absent => False

end Sys2Proof.Machine
end

