-- ==== Sys2Proof/Certificates/Slice0/Obligations.lean ====
section
/-! DEFINITION. The statements for the provers. Each docstring names the rule of spec/ it formalises. Where a premise
bounds `quiet`, it says that the host leaves the sequencer enough steps to finish in one burst (log entry 1). -/

open Sys2Proof Sys2Proof.Machine

/-! ## Encoding (30_encoding.md) -/

/-- R90: the worked encodings, both ways. -/
def Obligations.WorkedEncodings : Prop :=
  ∀ x ∈ ([(.start 0x20#7 .write, 0x00002001#32), (.start 0x20#7 .read, 0x00002011#32),
      (.repstart 0x20#7 .read, 0x00002012#32), (.startRetry 0x20#7 .write, 0x00002003#32),
      (.writeByte 0x55#8, 0x00005504#32), (.readByte false, 0x00000005#32), (.readByte true, 0x00000015#32),
      (.stop, 0x00000006#32), (.writeReg RegName.cfg1.number 0xF0#8, 0x0000F0E7#32),
      (.readReg RegName.in1.number, 0x00000028#32), (.scanRow 2#2, 0x00000049#32), (.scanKeypad, 0x0000000A#32),
      (.scanEdge, 0x0000000B#32), (.translate 0xFDFF#16, 0xFDFF000C#32)] : List (Instr × Word)),
    encode x.1 = x.2 ∧ decode x.2 = .command x.1

/-- R87, R86: a word decodes to the command of a row of the opcode table exactly when `(w & mask) = match` for that row;
the command holds all of the word's bits (encoding it gives the word back); a word that is no row's is Illegal, and a word
with a reserved opcode is so whatever its other bits are. -/
def Obligations.DecoderAgreesWithTable : Prop :=
  ∀ w : Word,
    (∀ r ∈ opTable, (w &&& r.mask = r.pattern ↔ ∃ i, decode w = .command i ∧ opRow i = r)) ∧
    (∀ i, decode w = .command i → encode i = w) ∧
    ((∀ r ∈ opTable, w &&& r.mask ≠ r.pattern) → ∃ why, decode w = .illegal why) ∧
    ((fieldOp w = 0x0#4 ∨ fieldOp w = 0xD#4 ∨ fieldOp w = 0xE#4 ∨ fieldOp w = 0xF#4) →
      decode w = .illegal .reservedOpcode)

/-- R82, R84, R87: decoding an encoded well-formed command gives the command back, with every operand at every value. -/
def Obligations.DecodeOfEncode : Prop :=
  ∀ i : Instr, i.wellFormed = true → decode (encode i) = .command i

/-- R88: each line of the assembler, with the range of each operand: in range it has a word, which decodes to the line's
command; an operand out of its range is an assembly error and no word. `PERIPH` is PERIPH_ADDR; the register names are
those of R51. -/
def Obligations.AssemblerWords : Prop :=
  ∀ periph : BitVec 7,
    let word (l : Asm) (i : Instr) := ∃ w, assemble periph l = some w ∧ decode w = .command i
    let error (l : Asm) := assemble periph l = none
    let names : List (RegName × BitVec 3) := [(.in0, 0#3), (.in1, 1#3), (.out0, 2#3), (.out1, 3#3), (.pol0, 4#3),
      (.pol1, 5#3), (.cfg0, 6#3), (.cfg1, 7#3)]
    (∀ (n : Nat) (d : Dir),
      (n ≤ 0x7F → word (.start (.num n) d) (.start (BitVec.ofNat 7 n) d) ∧
        word (.repstart (.num n) d) (.repstart (BitVec.ofNat 7 n) d) ∧
        word (.startRetry (.num n) d) (.startRetry (BitVec.ofNat 7 n) d)) ∧
      (0x7F < n → error (.start (.num n) d) ∧ error (.repstart (.num n) d) ∧ error (.startRetry (.num n) d)) ∧
      word (.start .periph d) (.start periph d) ∧ word (.repstart .periph d) (.repstart periph d) ∧
      word (.startRetry .periph d) (.startRetry periph d)) ∧
    (∀ n : Nat,
      (n ≤ 0xFF → word (.writeByte n) (.writeByte (BitVec.ofNat 8 n))) ∧ (0xFF < n → error (.writeByte n)) ∧
      (n ≤ 3 → word (.scanRow n) (.scanRow (BitVec.ofNat 2 n))) ∧ (3 < n → error (.scanRow n)) ∧
      (n ≤ 0xFFFF → word (.translate n) (.translate (BitVec.ofNat 16 n))) ∧ (0xFFFF < n → error (.translate n)) ∧
      (n ≤ 7 → word (.readReg (.num n)) (.readReg (BitVec.ofNat 3 n))) ∧ (7 < n → error (.readReg (.num n)))) ∧
    (∀ r n : Nat,
      (r ≤ 7 → n ≤ 0xFF → word (.writeReg (.num r) n) (.writeReg (BitVec.ofNat 3 r) (BitVec.ofNat 8 n))) ∧
      (7 < r ∨ 0xFF < n → error (.writeReg (.num r) n))) ∧
    (∀ x ∈ names, word (.readReg (.name x.1)) (.readReg x.2) ∧
      ∀ n, (n ≤ 0xFF → word (.writeReg (.name x.1) n) (.writeReg x.2 (BitVec.ofNat 8 n))) ∧
        (0xFF < n → error (.writeReg (.name x.1) n))) ∧
    (∀ k, word (.readByte k) (.readByte k)) ∧ word .stop .stop ∧ word .scanKeypad .scanKeypad ∧
    word .scanEdge .scanEdge

/-! ## Registers, host access and reset (10_state.md, 20_memory.md, 60, 70) -/

/-- R261: the reset value of every piece of state the rule gives a value. -/
def Obligations.ResetValues : Prop :=
  let s := State.reset
  s.cmd = 0#32 ∧ s.statusByte = 0x00#8 ∧ s.busy = false ∧ s.done = false ∧ s.fail = false ∧ s.seqErr = false ∧
  s.illegal = false ∧ s.ovr = false ∧ s.mode = .idle ∧ s.result = 0#16 ∧ s.debounce = 0xFFFF#16 ∧
  statCode s.busStat = 0xF8#8 ∧ s.div = 0x00#8 ∧ s.attempts = 0#16 ∧ s.cur = 0#32 ∧ s.todo = [] ∧
  s.failAcc = false ∧ s.timer = .idle ∧ s.sclDrv = .released ∧ s.sdaDrv = .released

/-- R263: reset at any moment, in a bus phase or not, aborts a running command: every register takes its reset value, no
RESULT is written, no stop condition is driven (the trace gains no `P`), both lines are released, and DEBOUNCE is 0xFFFF.
A reset can also come before a command, a STOP for one, has ended its first phase. -/
def Obligations.ResetAbortsCommand : Prop :=
  (∀ (s : State) (k : Bool) (q : Nat) (ts : List HostTurn), s.Due (.assertReset k) q ts →
    ∃ t : State, step s = .next t ∧ t.cmd = 0#32 ∧ t.statusByte = 0x00#8 ∧ t.result = 0#16 ∧ t.debounce = 0xFFFF#16 ∧
      statCode t.busStat = 0xF8#8 ∧ t.div = 0x00#8 ∧ t.attempts = 0#16 ∧ t.cur = 0#32 ∧ t.todo = [] ∧
      t.failAcc = false ∧ t.timer = .idle ∧ t.mode = .idle ∧ t.sclDrv = .released ∧ t.sdaDrv = .released ∧
      t.trace.count .p ≤ s.trace.count .p) ∧
  ∀ (s : State) (w : Word) (i : Instr) (k : Bool) (q : Nat) (ts : List HostTurn),
    s.Due (.write 0x00#6 4 w) 0 (⟨.assertReset k, q⟩ :: ts) → s.inReset = false → s.busy = false → s.todo = [] →
    decode w = .command i →
    ∃ t u : State, step s = .next t ∧ t.cur = w ∧ step t = .next u ∧ u.AtReset ∧ u.trace.count .p ≤ s.trace.count .p

/-- R260, R264: while reset is asserted an aligned 32-bit write, to CMD too, changes nothing; the release of reset changes
nothing but the input, and the controller accepts a command at once. R267: what a reset leaves of the environment: an open
transaction that is cut leaves a peripheral whose later answers are open (log entry 27), any other reset between phases
leaves the environment alone (log entry 18). A phase that a reset cuts is not recorded (log entry 27). -/
def Obligations.ResetInput : Prop :=
  (∀ (s : State) (q : Nat) (ts : List HostTurn) (off : BitVec 6) (v : Word),
    s.Due (.write off 4 v) q ts → off.extractLsb' 0 2 = 0#2 → s.inReset = true →
    step s = .next (s.served q ts)) ∧
  (∀ (s : State) (q : Nat) (ts : List HostTurn), s.Due .releaseReset q ts →
    step s = .next { s.served q ts with inReset := false }) ∧
  (∀ (s : State) (q r : Nat) (ts : List HostTurn) (w : Word) (i : Instr),
    s.Due .releaseReset q (⟨.write 0x00#6 4 w, r⟩ :: ts) → s.ResetHeld → s.inReset = true → decode w = .command i →
    ∃ t : State, step s = .next t ∧
      step t = exec i { s.served r ts with inReset := false, cmd := w, cur := w, busy := true }) ∧
  (∀ (s : State) (k : Bool) (q : Nat) (ts : List HostTurn), s.Due (.assertReset k) q ts →
    ∃ t : State, step s = .next t ∧ t.inReset = true ∧
      (s.mode ≠ .idle → s.env.device ≠ .absent → t.env = { s.env with device := .free }) ∧
      (s.mode = .idle → k = false → t.env = s.env)) ∧
  ∀ (s : State) (w : Word) (i : Instr) (k : Bool) (q : Nat) (ts : List HostTurn),
    s.Due (.write 0x00#6 4 w) 0 (⟨.assertReset k, q⟩ :: ts) → s.inReset = false → s.busy = false → s.todo = [] →
    decode w = .command i →
    ∃ t u : State, step s = .next t ∧ step t = .next u ∧ u.trace = s.trace

/-- R20, R22, R23, R32 to R37, R52, R54, R55: an aligned 32-bit read returns the register at the offset, zero-extended,
0 at a reserved offset, and changes nothing else, at any time. -/
def Obligations.HostReadReturnsRegister : Prop :=
  ∀ (s : State) (q : Nat) (ts : List HostTurn) (off : BitVec 6),
    s.Due (.read off 4) q ts → off.extractLsb' 0 2 = 0#2 →
    ∃ v, step s = .next { s.served q ts with rdata := v } ∧
      (off = 0x00#6 → v = s.cmd) ∧ (off = 0x04#6 → v = s.statusByte.zeroExtend 32) ∧
      (off = 0x08#6 → v = s.result.zeroExtend 32) ∧ (off = 0x0C#6 → v = s.debounce.zeroExtend 32) ∧
      (off = 0x10#6 → v = (statCode s.busStat).zeroExtend 32) ∧ (off = 0x14#6 → v = s.div.zeroExtend 32) ∧
      (off = 0x18#6 → v = s.attempts.zeroExtend 32) ∧ (0x1C#6 ≤ off → v = 0#32)

/-- R23, R30, R34: the fields of STATUS at their bits, the encoding of the bus mode and the codes of BUSSTAT; different
phase outcomes have different codes. -/
def Obligations.StatusFieldsAndCodes : Prop :=
  (∀ s : State,
    s.statusByte.getLsbD 0 = s.busy ∧ s.statusByte.getLsbD 1 = s.done ∧ s.statusByte.getLsbD 2 = s.fail ∧
    s.statusByte.getLsbD 3 = s.seqErr ∧ s.statusByte.getLsbD 4 = s.illegal ∧ s.statusByte.getLsbD 5 = s.ovr ∧
    s.statusByte.extractLsb' 6 2 = modeBits s.mode) ∧
  [BusMode.idle, .owned, .mt, .mr].map modeBits = [0b00#2, 0b01#2, 0b10#2, 0b11#2] ∧
  [BusStat.busError, .startSent, .repStartSent, .slawAck, .slawNack, .txAck, .txNack, .arbLost, .slarAck, .slarNack,
    .rxAck, .rxNack, .noInfo].map statCode =
    [0x00#8, 0x08#8, 0x10#8, 0x18#8, 0x20#8, 0x28#8, 0x30#8, 0x38#8, 0x40#8, 0x48#8, 0x50#8, 0x58#8, 0xF8#8] ∧
  ∀ b c : BusStat, statCode b = statCode c → b = c

/-- R35, R41, R54: an aligned 32-bit write to DIV takes the low byte, at any time, and changes only DIV; to a read-only
register or a reserved offset it changes no state. -/
def Obligations.WritesOtherThanCmd : Prop :=
  ∀ (s : State) (q : Nat) (ts : List HostTurn) (off : BitVec 6) (v : Word),
    s.Due (.write off 4 v) q ts → off.extractLsb' 0 2 = 0#2 → off ≠ 0x00#6 → s.inReset = false →
    step s = .next (if off = 0x14#6 then { s.served q ts with div := v.extractLsb' 0 8 } else s.served q ts)

/-- R226, R29: a write to CMD while BUSY = 1 is dropped: it sets OVR and changes neither CMD nor the running command;
OVR then stays 1: no step clears it but the assertion of reset, which does. -/
def Obligations.WriteWhileBusyIsDropped : Prop :=
  (∀ (s : State) (q : Nat) (ts : List HostTurn) (w : Word),
    s.Due (.write 0x00#6 4 w) q ts → s.inReset = false → s.busy = true →
    step s = .next { s.served q ts with ovr := true }) ∧
  ∀ s t : State, step s = .next t → s.ovr = true →
    t.ovr = true ∨ (t.ovr = false ∧ ∃ k u, s.nextTurn = .host (.assertReset k) u)

/-- R220: a write to CMD while BUSY = 0 is accepted: the fields the rule names take their values, no other does, and
in the same step the decoded command begins: the step is `exec` of it (log entry 20). -/
def Obligations.StepRunsAcceptedCommand : Prop :=
  ∀ (s : State) (q : Nat) (ts : List HostTurn) (w : Word) (i : Instr),
    s.Due (.write 0x00#6 4 w) q ts → s.inReset = false → s.busy = false → decode w = .command i →
    step s = exec i { s.served q ts with
      cmd := w, cur := w, busy := true, done := false, fail := false, seqErr := false, illegal := false,
      failAcc := false }

/-- R36, R43: while a command runs and the host is quiet (log entry 1), the step is `exec` of the command in CUR. -/
def Obligations.StepContinuesCommand : Prop :=
  ∀ (s : State) (i : Instr), s.busy = true → (s.quiet ≠ 0 ∨ s.host = []) → decode s.cur = .command i →
    step s = exec i s

/-- R223, R228, R220: a word that does not decode completes with ILLEGAL and RESULT 0x0000, whatever the bus mode, and
nothing else happens. That it completes in the step that accepts it is the model's choice (log entry 20, DEDUCED; R276
leaves it open). -/
def Obligations.IllegalWordCompletes : Prop :=
  ∀ (s : State) (q : Nat) (ts : List HostTurn) (w : Word) (why : Illegal),
    s.Due (.write 0x00#6 4 w) q ts → s.inReset = false → s.busy = false → decode w = .illegal why →
    step s = .next { s.served q ts with
      cmd := w, cur := w, busy := false, done := true, fail := false, seqErr := false, illegal := true,
      failAcc := false, result := 0#16, todo := [] }

/-- R53: a host access of another width, or at an offset that is no multiple of 4, is refused. -/
def Obligations.NarrowAccessRefused : Prop :=
  ∀ (s : State) (q n : Nat) (ts : List HostTurn) (off : BitVec 6) (v : Word),
    (n ≠ 4 ∨ off.extractLsb' 0 2 ≠ 0#2) →
    (s.Due (.read off n) q ts → step s = .refused .narrowOrMisaligned) ∧
    (s.Due (.write off n v) q ts → step s = .refused .narrowOrMisaligned)

/-- R50, R70: the controller occupies host addresses BASE to BASE + 0x3F, BASE is aligned to 64, and a read or a write
there reaches the register at its distance from BASE; anywhere else it does not reach the controller. -/
def Obligations.WindowDecoding : Prop :=
  ∀ (p : Params) (addr n : Nat) (v : Word),
    paramBase p % 64 = 0 ∧
    (∀ off : BitVec 6, addr = paramBase p + off.toNat →
      memRead p addr n = some (.read off n) ∧ memWrite p addr n v = some (.write off n v)) ∧
    ((addr < paramBase p ∨ paramBase p + 0x3F < addr) → memRead p addr n = none ∧ memWrite p addr n v = none)

/-! ## Errors (60_exceptions.md) -/

/-- R224, R222: the seven commands with a precondition, refused when it fails: SEQERR, the RESULT of the rule, and
nothing else changes. START, REPSTART, START_RETRY, STOP and TRANSLATE never raise SeqErr, in any bus mode and from any
state. -/
def Obligations.RefusedOutsideMode : Prop :=
  (∀ (s : State), s.todo = [] →
    (∀ b, s.mode ≠ .mt → exec (.writeByte b) s = .next (s.refusedWith 0x0001#16)) ∧
    (∀ k, s.mode ≠ .mr → exec (.readByte k) s = .next (s.refusedWith 0x00FF#16)) ∧
    (s.mode ≠ .idle →
      (∀ r b, exec (.writeReg r b) s = .next (s.refusedWith 0x0000#16)) ∧
      (∀ r, exec (.readReg r) s = .next (s.refusedWith 0x00FF#16)) ∧
      (∀ y, exec (.scanRow y) s = .next (s.refusedWith 0x000F#16)) ∧
      exec .scanKeypad s = .next (s.refusedWith 0xFFFF#16) ∧
      exec .scanEdge s = .next (s.refusedWith 0xFFFF#16))) ∧
  ∀ (i : Instr) (s : State),
    ((∃ a d, i = .start a d) ∨ (∃ a d, i = .repstart a d) ∨ (∃ a d, i = .startRetry a d) ∨ i = .stop ∨
      ∃ m, i = .translate m) →
    s.seqErr = false → ∃ t : State, exec i s = .next t ∧ t.seqErr = false

/-! ## Bus master primitive commands (40_bus_primitives.md) -/

/-- R104, R108, R101: START and REPSTART complete, whatever the bus mode and whatever the environment answers: RESULT and
FAIL report busy; BUSSTAT, the bus mode and the trace are those of start_seq. -/
def Obligations.StartCompletes : Prop :=
  ∀ (i : Instr) (a : BitVec 7) (d : Dir) (s : State),
    (i = .start a d ∨ i = .repstart a d) → s.todo = [] → 3 ≤ s.quiet →
    let b := addressByte a d
    let r := s.env.afterStart.addressAnswer s.par b
    let busy := !attemptOk s.par a d s.env
    ∃ t : State, exec i s = .next t ∧ t.CompletedWith (outcomeWord busy) busy ∧ s.FixedAs t ∧
      (s.env.startAnswer = .ok →
        t.trace = s.trace ++ ([if s.mode = .idle then .s else .sr, .a b r] : List Event) ∧
        (r = .ack → t.mode = (if d = .write then .mt else .mr) ∧ t.busStat = (if d = .write then .slawAck else .slarAck)) ∧
        (r = .nack → t.mode = .owned ∧ t.busStat = (if d = .write then .slawNack else .slarNack)) ∧
        (r = .arbLost → t.mode = .idle ∧ t.busStat = .arbLost)) ∧
      (s.env.startAnswer = .busError →
        t.trace = s.trace ++ ([.sfail 0x00#8] : List Event) ∧ t.mode = .idle ∧ t.busStat = .busError) ∧
      (s.env.startAnswer = .arbLost →
        t.trace = s.trace ++ ([.sfail 0x38#8] : List Event) ∧ t.mode = .idle ∧ t.busStat = .arbLost)

/-- R101, R57: between the start condition and the address phase the bus is OWNED, BUSSTAT tells a start from a repeated
start, BUSY stays, and the address byte is ADDR with DIR as bit 0. -/
def Obligations.StartConditionPhase : Prop :=
  ∀ (i : Instr) (a : BitVec 7) (d : Dir) (s : State),
    (i = .start a d ∨ i = .repstart a d) → s.todo = [] → s.quiet = 1 → s.env.startAnswer = .ok →
    ∃ t : State, exec i s = .next t ∧ t.busy = s.busy ∧ t.result = s.result ∧ t.mode = .owned ∧
      t.busStat = (if s.mode = .idle then .startSent else .repStartSent) ∧
      t.trace = s.trace ++ ([if s.mode = .idle then .s else .sr] : List Event) ∧
      t.todo = [.address a d, .finish .outcome] ∧
      (addressByte a d).extractLsb' 1 7 = a ∧ (addressByte a d).getLsbD 0 = decide (d = .read)

/-- R112, R103, R37: START_RETRY completes when the environment grants the bus after `k` refused attempts, for every `k`:
RESULT 0, FAIL 0, ATTEMPTS k + 1 saturating at 0xFFFF. -/
def Obligations.StartRetryCompletes : Prop :=
  ∀ (a : BitVec 7) (d : Dir) (k : Nat) (s : State),
    s.todo = [] → grantsAfter s.par a d k s.env = true → 5 * k + 6 ≤ s.quiet →
    ∃ t : State, exec (.startRetry a d) s = .next t ∧ t.CompletedWith 0x0000#16 false ∧ s.FixedAs t ∧
      t.attempts.toNat = min (k + 1) 0xFFFF ∧ t.mode = (if d = .write then .mt else .mr) ∧
      t.busStat = (if d = .write then .slawAck else .slarAck) ∧ t.env = envWhenGranted a d k s.env ∧
      t.debounce = s.debounce

/-- R128: two addresses not acknowledged and a third acknowledged: exactly 3 attempts, a stop between them, every start
condition on an IDLE bus. -/
def Obligations.RetryStopsBetweenAttempts : Prop :=
  ∀ (a : BitVec 7) (d : Dir) (s : State) (st : List StartAnswer) (ad : List AckAnswer),
    s.todo = [] → s.mode = .idle → s.env.starts = .ok :: .ok :: .ok :: st →
    s.env.addrs = .nack :: .nack :: .ack :: ad → 16 ≤ s.quiet →
    let b := addressByte a d
    ∃ t : State, exec (.startRetry a d) s = .next t ∧ t.busy = false ∧ t.done = true ∧ t.attempts = 3#16 ∧
      t.trace = s.trace ++ ([.s, .a b .nack, .p, .s, .a b .nack, .p, .s, .a b .ack] : List Event)

/-- R114, R69, R230: against an environment that never grants the bus, the retry never ends, however long it runs: the
command stays BUSY, and RESULT and the error bits keep their values. It is no fault. Nor does it end in any later step,
whatever the host does between its bursts (it may poll STATUS, R66, R89), but for the assertion of reset; that holds of
every command that is inside a retry that is not granted. -/
def Obligations.NeverGrantedNeverCompletes : Prop :=
  (∀ (a : BitVec 7) (d : Dir) (s : State) (q : Nat),
    s.todo = [] → neverGrants s.par a d s.env →
    ∃ t : State, exec (.startRetry a d) { s with quiet := q } = .next t ∧ t.Hopeless a d [.finish (.value 0#16)] ∧
      t.todo ≠ [] ∧ t.busy = s.busy ∧ t.done = s.done ∧
      t.result = s.result ∧ t.fail = s.fail ∧ t.seqErr = s.seqErr ∧ t.illegal = s.illegal) ∧
  ∀ (a : BitVec 7) (d : Dir) (rest : List SeqOp) (i : Instr) (s t : State),
    s.busy = true → decode s.cur = .command i → s.Hopeless a d rest → step s = .next t →
    (∃ k u, s.nextTurn = .host (.assertReset k) u) ∨
      (t.busy = true ∧ t.cur = s.cur ∧ t.Hopeless a d rest ∧ t.done = s.done ∧ t.result = s.result ∧
        t.fail = s.fail ∧ t.seqErr = s.seqErr ∧ t.illegal = s.illegal ∧ t.debounce = s.debounce)

/-- R69: an absent peripheral answers every address phase with NACK, and START_RETRY (in every bus mode) and every
composite command that touches the bus then retries for ever: it gets into its retry, and every later step but the
assertion of reset leaves it there, BUSY, with RESULT and DEBOUNCE as they were. -/
def Obligations.AbsentPeripheralHangs : Prop :=
  (∀ (i : Instr) (s : State) (q : Nat),
    retriesBus i = true → s.todo = [] → ((∃ a d, i = .startRetry a d) ∨ s.mode = .idle) → s.env.Absent →
    ∃ (t : State) (a : BitVec 7) (d : Dir) (rest : List SeqOp), exec i { s with quiet := q } = .next t ∧
      t.BoundForRetry a d rest ∧
      t.env.Absent ∧ t.todo ≠ [] ∧ t.busy = s.busy ∧ t.result = s.result ∧ t.debounce = s.debounce) ∧
  ∀ (a : BitVec 7) (d : Dir) (rest : List SeqOp) (i : Instr) (s t : State),
    s.busy = true → decode s.cur = .command i → s.BoundForRetry a d rest → s.env.Absent → step s = .next t →
    (∃ k u, s.nextTurn = .host (.assertReset k) u) ∨
      (t.busy = true ∧ t.cur = s.cur ∧ t.BoundForRetry a d rest ∧ t.env.Absent ∧ t.result = s.result ∧
        t.debounce = s.debounce)

/-- R118, R116: WRITE_BYTE in MT: the byte is sent as it is; RESULT and FAIL report failed; a not-acknowledged byte
leaves MT, a lost arbitration IDLE. -/
def Obligations.WriteByteCompletes : Prop :=
  ∀ (b : Byte) (s : State), s.todo = [] → s.mode = .mt → 2 ≤ s.quiet →
    let r := s.env.txAnswer
    ∃ t : State, exec (.writeByte b) s = .next t ∧ t.CompletedWith (outcomeWord (decide (r ≠ .ack))) (decide (r ≠ .ack)) ∧
      s.FixedAs t ∧ t.trace = s.trace ++ ([.t b r] : List Event) ∧ t.env = s.env.afterTx b ∧ t.attempts = s.attempts ∧
      t.debounce = s.debounce ∧
      (r = .ack → t.mode = .mt ∧ t.busStat = .txAck) ∧ (r = .nack → t.mode = .mt ∧ t.busStat = .txNack) ∧
      (r = .arbLost → t.mode = .idle ∧ t.busStat = .arbLost)

/-- R122, R117: READ_BYTE in MR: RESULT is the byte received, FAIL 0; with ACK the bus stays MR, with NACK it is
OWNED. -/
def Obligations.ReadByteCompletes : Prop :=
  ∀ (k : Bool) (s : State), s.todo = [] → s.mode = .mr → 2 ≤ s.quiet →
    let v := s.env.rxAnswer s.par
    ∃ t : State, exec (.readByte k) s = .next t ∧ t.CompletedWith (v.zeroExtend 16) false ∧ s.FixedAs t ∧
      t.trace = s.trace ++ ([.r v k] : List Event) ∧ t.env = s.env.afterRx s.par ∧ t.attempts = s.attempts ∧
      t.debounce = s.debounce ∧ t.mode = (if k then .mr else .owned) ∧
      t.busStat = (if k then .rxAck else .rxNack)

/-- R126, R102: STOP releases an owned bus with one stop condition; on an IDLE bus it drives nothing and BUSSTAT stays;
it is an error in neither case. -/
def Obligations.StopCompletes : Prop :=
  ∀ s : State, s.todo = [] → 2 ≤ s.quiet →
    ∃ t : State, exec .stop s = .next t ∧ t.CompletedWith 0x0000#16 false ∧ s.FixedAs t ∧ t.mode = .idle ∧ t.env = s.env ∧
      t.attempts = s.attempts ∧ t.debounce = s.debounce ∧
      (s.mode = .idle → t.trace = s.trace ∧ t.busStat = s.busStat) ∧
      (s.mode ≠ .idle → t.trace = s.trace ++ ([.p] : List Event) ∧ t.busStat = .noInfo)

/-! ## Expander register access (41_register_access.md) -/

/-- R152, R153, R154, R151: WRITE_REG completes when the bus is granted, for every answer to the two bytes: FAIL is the
OR of the step failures, RESULT 0, the bus IDLE. -/
def Obligations.WriteRegCompletes : Prop :=
  ∀ (reg : BitVec 3) (v : Byte) (k : Nat) (s : State),
    s.todo = [] → s.failAcc = false → s.mode = .idle → grantsAfter s.par s.par.periphAddr .write k s.env = true →
    5 * k + 11 ≤ s.quiet →
    let e := envWhenGranted s.par.periphAddr .write k s.env
    let r1 := e.txAnswer
    let r2 := (e.afterTx (regByte reg)).txAnswer
    ∃ t : State, exec (.writeReg reg v) s = .next t ∧
      t.CompletedWith 0x0000#16 (!(decide (r1 = .ack) && decide (r2 = .ack))) ∧ s.FixedAs t ∧ t.mode = .idle ∧
      t.attempts.toNat = min (k + 1) 0xFFFF ∧ t.debounce = s.debounce ∧
      (r1 ≠ .arbLost → r2 ≠ .arbLost → t.busStat = .noInfo ∧ t.env = (e.afterTx (regByte reg)).afterTx v) ∧
      (r1 = .arbLost ∨ r2 = .arbLost → t.busStat = .arbLost)

/-- R156, R155, R154, R151: READ_REG completes when the bus is granted, for every later answer: the repeated start is
made once; if it is not ok the read is skipped, RESULT is 0x00FF and FAIL 1. -/
def Obligations.ReadRegCompletes : Prop :=
  ∀ (reg : BitVec 3) (k : Nat) (s : State),
    s.todo = [] → s.failAcc = false → s.mode = .idle → grantsAfter s.par s.par.periphAddr .write k s.env = true →
    5 * k + 14 ≤ s.quiet →
    let e := envWhenGranted s.par.periphAddr .write k s.env
    let r1 := e.txAnswer
    let e1 := e.afterTx (regByte reg)
    let ok := attemptOk s.par s.par.periphAddr .read e1
    let v := if ok then (envAfterAttempt s.par.periphAddr .read e1).rxAnswer s.par else 0xFF#8
    ∃ t : State, exec (.readReg reg) s = .next t ∧
      t.CompletedWith (v.zeroExtend 16) (!(decide (r1 = .ack) && ok)) ∧ s.FixedAs t ∧ t.mode = .idle ∧
      t.attempts.toNat = min (k + 1) 0xFFFF ∧ t.debounce = s.debounce ∧ (ok = true → t.busStat = .noInfo)

/-- R159: when every phase succeeds, WRITE_REG records exactly five events and READ_REG exactly seven, each beginning
and ending with an IDLE bus. -/
def Obligations.TransactionShape : Prop :=
  ∀ (reg : BitVec 3) (v : Byte) (s : State),
    s.todo = [] → s.failAcc = false → s.mode = .idle → 14 ≤ s.quiet →
    attemptOk s.par s.par.periphAddr .write s.env = true →
    let e := envAfterAttempt s.par.periphAddr .write s.env
    let e1 := e.afterTx (regByte reg)
    e.txAnswer = .ack →
    (e1.txAnswer = .ack → ∃ t : State, exec (.writeReg reg v) s = .next t ∧ t.mode = .idle ∧ t.busy = false ∧
      t.trace = s.trace ++ writeRegEvents s.par reg v) ∧
    (attemptOk s.par s.par.periphAddr .read e1 = true →
      ∃ t : State, exec (.readReg reg) s = .next t ∧ t.mode = .idle ∧ t.busy = false ∧
        t.trace = s.trace ++
          readRegEvents s.par reg ((envAfterAttempt s.par.periphAddr .read e1).rxAnswer s.par))

/-- R158: against SIMX, WRITE_REG r, v followed by READ_REG r returns v, for every r and v; the other bytes of SIMX keep
their values. -/
def Obligations.RegisterRoundTrip : Prop :=
  ∀ (reg : BitVec 3) (v : Byte) (m : SimX) (s : State) (q : Nat),
    s.todo = [] → s.failAcc = false → s.mode = .idle → s.env.Plain → s.env.device = .simx m → s.env.rxs = [] →
    s.StoreCanonical →
    14 ≤ s.quiet → 14 ≤ q →
    ∃ t u : State, exec (.writeReg reg v) s = .next t ∧ t.CompletedWith 0x0000#16 false ∧
      (∀ a, t.storeByte a = if a = reg.toNat then v else s.storeByte a) ∧
      exec (.readReg reg) { t.accept (encode (.readReg reg)) with quiet := q } = .next u ∧
      u.CompletedWith (v.zeroExtend 16) false ∧ ∀ a, u.storeByte a = t.storeByte a

/-! ## Keypad scan and debounce edge detection (42_keypad_scan.md) -/

/-- R172, R171: SCAN_ROW against a reference device whose received bytes are scripted (log entry 2): RESULT is the four
column bits of the byte read; the row-output register was written with one bit cleared and ends all ones; two writes and
one read, 17 events and one more if there is a settle time. No other byte of the device changes. -/
def Obligations.ScanRowCompletes : Prop :=
  ∀ (y : BitVec 2) (v : Byte) (vs : List Byte) (s : State),
    s.todo = [] → s.failAcc = false → s.mode = .idle → s.env.Plain → s.env.rxs = v :: vs → s.StoreCanonical →
    36 ≤ s.quiet →
    let p := s.par
    ∃ t : State, exec (.scanRow y) s = .next t ∧ t.CompletedWith ((columnNibble p v).zeroExtend 16) false ∧ s.FixedAs t ∧
      t.mode = .idle ∧ t.busStat = .noInfo ∧ t.attempts = 1#16 ∧ t.debounce = s.debounce ∧
      t.trace = s.trace ++ (writeRegEvents p p.rowReg (~~~(1#8 <<< (p.rowBit.get y.toFin).toNat)) ++
        (settleEvents p ++ (readRegEvents p p.colReg v ++ writeRegEvents p p.rowReg 0xFF#8))) ∧
      ∀ a, t.storeByte a = if a = p.rowReg.toNat then 0xFF#8 else s.storeByte a

/-- R184, R151, R154: no failure stops a scan. Once its retries are granted, each after any number of refused attempts,
SCAN_ROW, SCAN_KEYPAD and SCAN_EDGE complete for every answer to every later phase: any byte of a row select, of a column
read's register number or of a restore may be refused or lose arbitration, and any repeated start may fail. All register
accesses are made (the environment at the end is the one after all of them), a column read that was skipped gives the
nibble 0xF, FAIL is the OR of the failures of all of them, and SCAN_EDGE stores the snapshot whatever FAIL is. The bound on
`quiet` for SCAN_EDGE counts the debounce wait in sequencer steps (log entry 15). -/
def Obligations.ScansCompleteForEveryAnswer : Prop :=
  (∀ (y : BitVec 2) (k : RowTries) (s : State),
    s.todo = [] → s.failAcc = false → s.mode = .idle → rowGranted s.par y k s.env → 5 * k.refused + 36 ≤ s.quiet →
    let o := rowResult s.par y k s.env
    ∃ t : State, exec (.scanRow y) s = .next t ∧ t.CompletedWith (o.value.zeroExtend 16) o.failed ∧ s.FixedAs t ∧
      t.mode = .idle ∧ t.env = o.env ∧ t.attempts.toNat = min (k.restore + 1) 0xFFFF ∧ t.debounce = s.debounce) ∧
  (∀ (k : Fin 4 → RowTries) (s : State),
    s.todo = [] → s.failAcc = false → s.mode = .idle → scanGranted s.par k s.env →
    5 * refusedInScan k + 142 ≤ s.quiet →
    let o := scanResult s.par k s.env
    ∃ t : State, exec .scanKeypad s = .next t ∧ t.CompletedWith o.value o.failed ∧ s.FixedAs t ∧ t.mode = .idle ∧
      t.env = o.env ∧ t.attempts.toNat = min ((k 0).restore + 1) 0xFFFF ∧ t.debounce = s.debounce) ∧
  ∀ (k l : Fin 4 → RowTries) (s : State),
    s.todo = [] → s.failAcc = false → s.mode = .idle → scanGranted s.par k s.env →
    let a := scanResult s.par k s.env
    scanGranted s.par l a.env.afterWait →
    5 * (refusedInScan k + refusedInScan l) + debounceCycles s.par + s.env.extraWait + 288 ≤ s.quiet →
    let b := scanResult s.par l a.env.afterWait
    let d := a.value ||| b.value
    ∃ t : State, exec .scanEdge s = .next t ∧ t.CompletedWith (~~~(~~~d &&& s.debounce)) (a.failed || b.failed) ∧
      t.debounce = d ∧ s.FixedAs t ∧ t.mode = .idle ∧ t.env = b.env ∧
      t.attempts.toNat = min ((l 0).restore + 1) 0xFFFF ∧ t.timer = .idle

/-- R174, R173, R175: SCAN_KEYPAD scans rows 3, 2, 1, 0 (the bytes read are a script, log entry 2): RESULT is the four
nibbles, row 3's at the top; the trace is the four row scans, each with its select; 68 events when there is no settle
time; DEBOUNCE is not touched. -/
def Obligations.ScanKeypadCompletes : Prop :=
  ∀ (v3 v2 v1 v0 : Byte) (vs : List Byte) (s : State),
    s.todo = [] → s.failAcc = false → s.mode = .idle → s.env.Plain → s.env.rxs = v3 :: v2 :: v1 :: v0 :: vs →
    s.StoreCanonical → 142 ≤ s.quiet →
    let n := columnNibble s.par
    let row := rowScanEvents s.par
    ∃ t : State, exec .scanKeypad s = .next t ∧ t.CompletedWith (fourNibbles (n v3) (n v2) (n v1) (n v0)) false ∧ s.FixedAs t ∧
      t.mode = .idle ∧ t.busStat = .noInfo ∧ t.attempts = 1#16 ∧ t.debounce = s.debounce ∧
      t.trace = s.trace ++ (row 3 v3 ++ (row 2 v2 ++ (row 1 v1 ++ row 0 v0))) ∧
      t.trace.length = s.trace.length + (if s.par.rowSettle = 0 then 68 else 72) ∧
      ∀ a, t.storeByte a = if a = s.par.rowReg.toNat then 0xFF#8 else s.storeByte a

/-- R175, R170 against SIMK (R65): in the mask SCAN_KEYPAD returns, bit 4r + c is 0 exactly for the pressed keys, for
every set of pressed keys. That the one entry `[pressed]` stays for all four reads is log entry 12. -/
def Obligations.ScanKeypadSeesPressedKeys : Prop :=
  ∀ (m : SimX) (pressed : Mask) (s : State),
    s.todo = [] → s.failAcc = false → s.mode = .idle → s.env.Plain → s.env.device = .simk m [pressed] →
    s.env.rxs = [] → s.StoreCanonical → defaultWiring s.par → 142 ≤ s.quiet →
    ∃ t : State, exec .scanKeypad s = .next t ∧ t.CompletedWith (~~~pressed) false ∧ t.debounce = s.debounce

/-- R176, R178 to R181, R185: SCAN_EDGE: two scans (of scripted bytes, log entry 2) round the debounce wait; DEBOUNCE
becomes the OR of the two samples; a bit of RESULT is 0 exactly where the snapshot is 0 and DEBOUNCE was 1; the trace is
the two scans of four rows with the 20 ms wait between them, 137 events when there is no settle time. By how many cycles
the wait exceeds the least of R178 is open (`extraWait`); that a cycle is a sequencer step is log entry 15. -/
def Obligations.ScanEdgeCompletes : Prop :=
  ∀ (a3 a2 a1 a0 b3 b2 b1 b0 : Byte) (vs : List Byte) (s : State),
    s.todo = [] → s.failAcc = false → s.mode = .idle → s.env.Plain →
    s.env.rxs = a3 :: a2 :: a1 :: a0 :: b3 :: b2 :: b1 :: b0 :: vs → s.StoreCanonical →
    288 + debounceCycles s.par + s.env.extraWait ≤ s.quiet →
    let n := columnNibble s.par
    let row := rowScanEvents s.par
    let d := fourNibbles (n a3) (n a2) (n a1) (n a0) ||| fourNibbles (n b3) (n b2) (n b1) (n b0)
    ∃ t : State, exec .scanEdge s = .next t ∧ t.CompletedWith (~~~(~~~d &&& s.debounce)) false ∧ t.debounce = d ∧
      s.FixedAs t ∧ t.mode = .idle ∧ t.busStat = .noInfo ∧ t.attempts = 1#16 ∧ t.timer = .idle ∧
      t.trace = s.trace ++ ((row 3 a3 ++ (row 2 a2 ++ (row 1 a1 ++ row 0 a0))) ++
        .w 20000 :: (row 3 b3 ++ (row 2 b2 ++ (row 1 b1 ++ row 0 b0)))) ∧
      t.trace.length = s.trace.length + (if s.par.rowSettle = 0 then 137 else 145) ∧
      (∀ i < 16, t.result.getLsbD i = !(!d.getLsbD i && s.debounce.getLsbD i)) ∧
      ∀ a, t.storeByte a = if a = s.par.rowReg.toNat then 0xFF#8 else s.storeByte a

/-- R178, R39: the wait may not be shortened or skipped. The least number of cycles is ceil(0.020 * F_CLK); a SCAN_EDGE
that has run for no more sequencer steps than that has its second scan still ahead, whatever the environment answers; and
once the wait has begun, or while it goes on in a later burst, no step before its end makes a bus phase or ends the wait.
That a cycle of the timer is a sequencer step is log entry 15. -/
def Obligations.DebounceWaitLasts : Prop :=
  (∀ p : Params, 20 * p.fClk ≤ 1000 * debounceCycles p ∧ ∀ n, 20 * p.fClk ≤ 1000 * n → debounceCycles p ≤ n) ∧
  (∀ s : State, s.todo = [] → s.mode = .idle → s.quiet ≤ debounceCycles s.par →
    ∃ (t : State) (pre : List SeqOp), exec .scanEdge s = .next t ∧
      t.todo = pre ++ .waitTick :: (scanKeypadSeq s.par ++ [.saveS2, .finish .edge])) ∧
  (∀ (s : State) (rest : List SeqOp) (n : Nat),
    s.todo = .waitBegin :: .waitTick :: rest → n ≤ debounceCycles s.par →
    exec .scanEdge { s with quiet := n + 1 } = .next { s with
      timer := .counting (debounceCycles s.par + s.env.extraWait - n), env := s.env.afterWait
      todo := .waitTick :: rest, quiet := 0 }) ∧
  ∀ (s : State) (rest : List SeqOp) (k n : Nat),
    s.todo = .waitTick :: rest → s.timer = .counting k → 1 ≤ n → n ≤ k →
    exec .scanEdge { s with quiet := n } = .next { s with timer := .counting (k - n), quiet := 0 }

/-- R184, R151, R172: column reads that are not acknowledged, against SIMX. A column read whose repeated start is answered
NACK (`none`; a script, log entry 2) gives the nibble 0xF; FAIL tells whether any was; the row register ends all ones, and
SCAN_EDGE stores the snapshot all the same. The last step of SCAN_EDGE stores it after any noted failure, and reports the
failure; and a failure once noted stays noted for as long as no command is accepted and reset is not asserted. (Failures of
the other phases: ScansCompleteForEveryAnswer.) -/
def Obligations.ScanFailuresReported : Prop :=
  (∀ (y : BitVec 2) (m : SimX) (ad : List AckAnswer) (s : State),
    s.todo = [] → s.failAcc = false → s.mode = .idle → s.StoreCanonical →
    s.env.device = .simx m → s.env.starts = [] → s.env.addrs = .ack :: .ack :: .nack :: .ack :: ad → s.env.txs = [] →
    36 ≤ s.quiet →
    ∃ t : State, exec (.scanRow y) s = .next t ∧ t.CompletedWith 0x000F#16 true ∧ t.mode = .idle ∧
      t.storeByte s.par.rowReg.toNat = 0xFF#8 ∧ t.debounce = s.debounce) ∧
  (∀ (m : SimX) (r3 r2 r1 r0 : Option Byte) (ad : List AckAnswer) (vs : List Byte) (s : State),
    s.todo = [] → s.failAcc = false → s.mode = .idle → s.StoreCanonical → s.env.device = .simx m → s.env.starts = [] →
    s.env.txs = [] → s.env.addrs = scriptedReads [r3, r2, r1, r0] ++ ad →
    s.env.rxs = [r3, r2, r1, r0].filterMap id ++ vs → 142 ≤ s.quiet →
    let n := nibbleOf s.par
    ∃ t : State, exec .scanKeypad s = .next t ∧
      t.CompletedWith (fourNibbles (n r3) (n r2) (n r1) (n r0)) ([r3, r2, r1, r0].any (·.isNone)) ∧
      t.debounce = s.debounce ∧ t.mode = .idle ∧ t.storeByte s.par.rowReg.toNat = 0xFF#8) ∧
  (∀ (m : SimX) (a3 a2 a1 a0 b3 b2 b1 b0 : Option Byte) (ad : List AckAnswer) (vs : List Byte) (s : State),
    s.todo = [] → s.failAcc = false → s.mode = .idle → s.StoreCanonical → s.env.device = .simx m → s.env.starts = [] →
    s.env.txs = [] → s.env.addrs = scriptedReads [a3, a2, a1, a0, b3, b2, b1, b0] ++ ad →
    s.env.rxs = [a3, a2, a1, a0, b3, b2, b1, b0].filterMap id ++ vs →
    288 + debounceCycles s.par + s.env.extraWait ≤ s.quiet →
    let n := nibbleOf s.par
    let d := fourNibbles (n a3) (n a2) (n a1) (n a0) ||| fourNibbles (n b3) (n b2) (n b1) (n b0)
    ∃ t : State, exec .scanEdge s = .next t ∧
      t.CompletedWith (~~~(~~~d &&& s.debounce)) ([a3, a2, a1, a0, b3, b2, b1, b0].any (·.isNone)) ∧
      t.debounce = d ∧ t.mode = .idle ∧ t.storeByte s.par.rowReg.toNat = 0xFF#8) ∧
  (∀ s : State, s.todo = [.finish .edge] → ∃ t : State, exec .scanEdge s = .next t ∧
    t.CompletedWith (~~~(~~~(s.s1 ||| s.s2) &&& s.debounce)) s.failAcc ∧ t.debounce = s.s1 ||| s.s2) ∧
  ∀ s t : State, s.busy = true → s.failAcc = true → step s = .next t →
    t.failAcc = true ∨ ∃ k u, s.nextTurn = .host (.assertReset k) u

/-- R182: against SIMK with the same keys pressed throughout (the one entry stays, log entry 12), a SCAN_EDGE reports
exactly the keys that DEBOUNCE showed released, and a second SCAN_EDGE reports nothing: for every set of pressed keys,
every DEBOUNCE and every length of the two waits. That a cycle of the wait is a sequencer step is log entry 15. -/
def Obligations.ScanEdgeIdempotent : Prop :=
  ∀ (m : SimX) (pressed : Mask) (q : Nat) (s : State),
    s.todo = [] → s.failAcc = false → s.mode = .idle → s.env.Plain → s.env.device = .simk m [pressed] →
    s.env.rxs = [] → s.StoreCanonical → defaultWiring s.par →
    288 + debounceCycles s.par + s.env.extraWait ≤ s.quiet →
    288 + debounceCycles s.par + s.env.afterWait.extraWait ≤ q →
    ∃ t u : State, exec .scanEdge s = .next t ∧ t.CompletedWith (~~~(pressed &&& s.debounce)) false ∧
      t.debounce = ~~~pressed ∧
      exec .scanEdge { t.accept (encode .scanEdge) with quiet := q } = .next u ∧
      u.CompletedWith 0xFFFF#16 false ∧ u.debounce = ~~~pressed

/-! ## Key-code translation (43_translate.md) -/

/-- R200: TRANSLATE completes in any bus mode, with the code of the symbol of the one clear bit, or 0x0000 if not exactly
one bit is clear, and changes nothing but RESULT and STATUS. -/
def Obligations.TranslateCompletes : Prop :=
  ∀ (m : Mask) (s : State), s.todo = [] → 1 ≤ s.quiet →
    let t (r : Mask) : State :=
      { s with
        result := r, fail := false, seqErr := false, illegal := false, busy := false, done := true, quiet := 0 }
    (∀ i : Fin 16, (∀ j : Fin 16, m.getLsbD j.val = false ↔ j = i) →
      exec (.translate m) s = .next (t ((symbolCode (s.par.keymap.get i)).zeroExtend 16))) ∧
    ((¬ ∃ i : Fin 16, ∀ j : Fin 16, m.getLsbD j.val = false ↔ j = i) → exec (.translate m) s = .next (t 0x0000#16))

/-- R205, R201, R203: TRANSLATE's value is not NONE_CODE exactly when one and only one bit of the mask is 0, for every mask
and every KEYMAP; and under the KEYMAP of R201 the sixteen singleton masks give these symbols, as ASCII, bit 0 first. -/
def Obligations.TranslateSingleton : Prop :=
  (∀ (p : Params) (m : Mask),
    translateCode p m ≠ 0x00#8 ↔ ∃ i : Fin 16, ∀ j : Fin 16, m.getLsbD j.val = false ↔ j = i) ∧
  ∀ p : Params, p.keymap = defaultKeymap →
    [0xFFFE#16, 0xFFFD#16, 0xFFFB#16, 0xFFF7#16, 0xFFEF#16, 0xFFDF#16, 0xFFBF#16, 0xFF7F#16, 0xFEFF#16, 0xFDFF#16,
      0xFBFF#16, 0xF7FF#16, 0xEFFF#16, 0xDFFF#16, 0xBFFF#16, 0x7FFF#16].map (translateCode p) =
    [0x2A#8, 0x30#8, 0x23#8, 0x44#8, 0x37#8, 0x38#8, 0x39#8, 0x43#8, 0x34#8, 0x35#8, 0x36#8, 0x42#8, 0x31#8, 0x32#8,
      0x33#8, 0x41#8]

/-! ## Frames: what a command leaves unchanged, however far its burst gets -/

/-- START, REPSTART and STOP change only RESULT, STATUS, BUSSTAT, the bus mode, the lines, the trace, the environment
and the sequencer's position and outcome latch. -/
def Obligations.FrameOfStartAndStop : Prop :=
  ∀ (i : Instr) (s : State),
    ((∃ a d, i = .start a d) ∨ (∃ a d, i = .repstart a d) ∨ i = .stop) → (∀ op ∈ s.todo, stepOfStart op = true) →
    ∃ t : State, exec i s = .next t ∧ s.FixedAs t ∧ s.ScannerAs t ∧ t.debounce = s.debounce ∧ t.attempts = s.attempts ∧
      t.failAcc = s.failAcc ∧ t.rx = s.rx ∧ (∀ a, t.storeByte a = s.storeByte a) ∧
      ∀ op ∈ t.todo, stepOfStart op = true

/-- START_RETRY changes ATTEMPTS too, and no byte of the device. -/
def Obligations.FrameOfStartRetry : Prop :=
  ∀ (a : BitVec 7) (d : Dir) (s : State), (∀ op ∈ s.todo, stepOfRetry op = true) →
    ∃ t : State, exec (.startRetry a d) s = .next t ∧ s.FixedAs t ∧ s.ScannerAs t ∧ t.debounce = s.debounce ∧
      t.failAcc = s.failAcc ∧ t.rx = s.rx ∧ (∀ x, t.storeByte x = s.storeByte x) ∧
      ∀ op ∈ t.todo, stepOfRetry op = true

/-- WRITE_BYTE stores at most at the address the device's pointer gives. -/
def Obligations.FrameOfWriteByte : Prop :=
  ∀ (b : Byte) (s : State), s.todo = [] → s.StoreCanonical →
    ∃ t : State, exec (.writeByte b) s = .next t ∧ s.FixedAs t ∧ s.ScannerAs t ∧ t.debounce = s.debounce ∧
      t.attempts = s.attempts ∧ t.failAcc = s.failAcc ∧ t.rx = s.rx ∧
      (s.env.device.storeAddress = none → ∀ x, t.storeByte x = s.storeByte x) ∧
      ∀ a, s.env.device.storeAddress = some a → ∀ x, x ≠ a → t.storeByte x = s.storeByte x

/-- READ_BYTE changes the byte latch too, and no byte of the device. -/
def Obligations.FrameOfReadByte : Prop :=
  ∀ (k : Bool) (s : State), (∀ op ∈ s.todo, stepOfReadByte op = true) →
    ∃ t : State, exec (.readByte k) s = .next t ∧ s.FixedAs t ∧ s.ScannerAs t ∧ t.debounce = s.debounce ∧
      t.attempts = s.attempts ∧ t.failAcc = s.failAcc ∧ (∀ x, t.storeByte x = s.storeByte x) ∧
      ∀ op ∈ t.todo, stepOfReadByte op = true

/-- R200: TRANSLATE makes no bus activity and leaves the bus mode, BUSSTAT, ATTEMPTS and DEBOUNCE unchanged. -/
def Obligations.FrameOfTranslate : Prop :=
  ∀ (m : Mask) (s : State), (∀ op ∈ s.todo, stepOfTranslate op = true) →
    ∃ t : State, exec (.translate m) s = .next t ∧ s.FixedAs t ∧ s.ScannerAs t ∧ t.debounce = s.debounce ∧
      t.attempts = s.attempts ∧ t.mode = s.mode ∧ t.busStat = s.busStat ∧ t.trace = s.trace ∧ t.env = s.env ∧
      t.sclDrv = s.sclDrv ∧ t.sdaDrv = s.sdaDrv ∧ t.failAcc = s.failAcc ∧ t.rx = s.rx ∧ t.stepFail = s.stepFail

/-- WRITE_REG, READ_REG and SCAN_ROW leave DEBOUNCE, the scanner's scratch and the debounce timer alone. -/
def Obligations.FrameOfRegisterAccess : Prop :=
  ∀ (i : Instr) (s : State),
    ((∃ r b, i = .writeReg r b) ∨ (∃ r, i = .readReg r) ∨ ∃ y, i = .scanRow y) →
    (∀ op ∈ s.todo, stepOfAccess op = true) →
    ∃ t : State, exec i s = .next t ∧ s.FixedAs t ∧ s.ScannerAs t ∧ t.debounce = s.debounce ∧
      ∀ op ∈ t.todo, stepOfAccess op = true

/-- R174: SCAN_KEYPAD does not touch DEBOUNCE, the samples S1 and S2 or the debounce timer. -/
def Obligations.FrameOfScanKeypad : Prop :=
  ∀ s : State, (∀ op ∈ s.todo, stepOfScan op = true) →
    ∃ t : State, exec .scanKeypad s = .next t ∧ s.FixedAs t ∧ t.debounce = s.debounce ∧ t.s1 = s.s1 ∧ t.s2 = s.s2 ∧
      t.timer = s.timer ∧ ∀ op ∈ t.todo, stepOfScan op = true

/-- R176, R44: SCAN_EDGE changes DEBOUNCE only at its completion, and never what the host owns. -/
def Obligations.FrameOfScanEdge : Prop :=
  ∀ s : State, ∃ t : State, exec .scanEdge s = .next t ∧ s.FixedAs t ∧ (t.todo ≠ [] → t.debounce = s.debounce)

/-! ## Invariants that every step keeps -/

/-- R31, R34, R129: BUSSTAT always holds a code that the current bus mode can have been left with. -/
def Obligations.StepKeepsBusStatFits : Prop :=
  ∀ s t : State, s.BusStatFits → step s = .next t → t.BusStatFits

/-- R40, R130 to R134: both lines are released on an IDLE bus, and SCL is held low between the phases of an owned one
(log entry 14). -/
def Obligations.StepKeepsLinesFit : Prop :=
  ∀ s t : State, s.LinesFit → step s = .next t → t.LinesFit

/-- R24, R36, R221: BUSY is 1 exactly while a command has steps left, and it completes with the last of them and not
before. -/
def Obligations.StepKeepsRunning : Prop :=
  ∀ s t : State, s.Running → step s = .next t → t.Running

/-- R220, R228: ILLEGAL, SEQERR and FAIL are never reported together, none of them while BUSY and none before DONE. -/
def Obligations.StepKeepsStatusExclusive : Prop :=
  ∀ s t : State, s.StatusExclusive → step s = .next t → t.StatusExclusive

/-- R260, R261: while reset is asserted the controller keeps the reset state, in everything R261 gives a value. -/
def Obligations.StepKeepsResetHeld : Prop :=
  ∀ s t : State, s.ResetHeld → step s = .next t → t.ResetHeld

/-- R33, R44: the step that stores DEBOUNCE belongs to SCAN_EDGE. -/
def Obligations.StepKeepsEdgeInScanEdge : Prop :=
  ∀ s t : State, s.Running → s.EdgeOnlyInScanEdge → step s = .next t → t.EdgeOnlyInScanEdge

/-- R33, R262, R277, R176, R185, R221: nothing changes DEBOUNCE but the assertion of reset, which sets it to 0xFFFF, and
the completion of a SCAN_EDGE, which sets it to the snapshot of its two samples: a step that changes DEBOUNCE is one or the
other, and the SCAN_EDGE it completes was running or is accepted in it. That the two samples can still be read after the
completion, where the spec leaves them open (R38, U8), is the model's choice (log entry 25, DESIGN CHOICE). -/
def Obligations.DebounceHasOneWriter : Prop :=
  ∀ s t : State, s.Running → s.EdgeOnlyInScanEdge → step s = .next t → t.debounce ≠ s.debounce →
    ((∃ k u, s.nextTurn = .host (.assertReset k) u) ∧ t.debounce = 0xFFFF#16) ∨
    (decode t.cur = .command .scanEdge ∧ t.busy = false ∧ t.done = true ∧ t.debounce = t.s1 ||| t.s2 ∧
      ((s.busy = true ∧ t.cur = s.cur) ∨ ∃ w u, s.nextTurn = .host (.write 0x00#6 4 w) u ∧ s.busy = false))

/-- R32, R67, R221: RESULT and DEBOUNCE change only with a completion or a reset: a step that changes either asserts reset,
or completes a command, one that was running or is accepted in that step; and a step after which BUSY is 1 has changed
neither, and reports no error. -/
def Obligations.ResultOnlyAtCompletion : Prop :=
  (∀ s t : State, step s = .next t → (t.result ≠ s.result ∨ t.debounce ≠ s.debounce) →
    (∃ k u, s.nextTurn = .host (.assertReset k) u) ∨
    (t.busy = false ∧ t.done = true ∧ t.todo = [] ∧
      (s.busy = true ∨ ∃ w u, s.nextTurn = .host (.write 0x00#6 4 w) u))) ∧
  ∀ s t : State, s.StatusExclusive → step s = .next t → t.busy = true →
    t.result = s.result ∧ t.debounce = s.debounce ∧ t.done = false ∧ t.fail = false ∧ t.seqErr = false ∧
    t.illegal = false

/-- R64: every step keeps the device's store canonical. -/
def Obligations.StepKeepsStoreCanonical : Prop :=
  ∀ s t : State, s.StoreCanonical → step s = .next t → t.StoreCanonical

/-- R62, R59: the bus trace only grows; no step takes back or reorders an event. -/
def Obligations.TraceOnlyGrows : Prop :=
  ∀ s t : State, step s = .next t → ∃ es, t.trace = s.trace ++ es

/-- The reset state meets every invariant. -/
def Obligations.ResetMeetsInvariants : Prop :=
  State.reset.BusStatFits ∧ State.reset.LinesFit ∧ State.reset.Running ∧ State.reset.StatusExclusive ∧
  State.reset.ResetHeld ∧ State.reset.EdgeOnlyInScanEdge ∧ State.reset.StoreCanonical

/-! ## The two bus lines (40_bus_primitives.md section 4) -/

/-- R131, R134: with SCL released, SDA falls in a start and a repeated start and rises in a stop. R132, R133: in a byte
phase that is carried to its end, SCL is released exactly nine times, SDA is then the eight
bits, most significant first, and the acknowledge, and SDA changes only while SCL is low. -/
def Obligations.EventsOnTheLines : Prop :=
  waveOf .s = ([(.released, .low), (.low, .low)] : List LineLevels) ∧
  waveOf .sr = ([(.low, .released), (.released, .released), (.released, .low), (.low, .low)] : List LineLevels) ∧
  waveOf .p = ([(.low, .low), (.released, .low), (.released, .released)] : List LineLevels) ∧
  ∀ (b : Byte) (r : AckAnswer) (k : Bool), r ≠ .arbLost →
    let sampled (e : Event) := ((waveOf e).filter (fun l => l.1 = .released)).map Prod.snd
    let bits : List Drive := [7, 6, 5, 4, 3, 2, 1, 0].map fun i => driveOf (b.getLsbD i)
    sampled (.a b r) = bits ++ [Drive.released] ∧ sampled (.t b r) = bits ++ [Drive.released] ∧
    sampled (.r b k) = List.replicate 8 Drive.released ++ [if k then Drive.low else Drive.released] ∧
    ∀ e ∈ [Event.a b r, Event.t b r, Event.r b k],
      (waveOf e).IsChain fun x y => (x.1 = .released ∨ y.1 = .released) → x.2 = y.2
end

