-- ==== Sys2Proof/Laws/Memory.lean ====
section
/-! SUPPORT. The laws of the byte store: a read after a write, and that a write keeps the canonical form. -/

namespace Sys2Proof.Machine

@[simp] theorem Memory.read_nil (a : Nat) : Memory.read [] a = unlistedByte := rfl

theorem Memory.read_cons_cell (b a : Nat) (x : Byte) (m : Memory) :
    Memory.read ((b, x) :: m) a = if a = b then x else Memory.read m a := rfl

/-- A byte below every listed address is unlisted. -/
theorem Memory.read_of_lt {m : Memory} {a : Nat} (h : ∀ c ∈ m, a < c.1) : m.read a = unlistedByte := by
  induction m with
  | nil => rfl
  | cons c m ih =>
    obtain ⟨b, x⟩ := c
    have hb : a < b := h (b, x) (by simp)
    rw [Memory.read_cons_cell, if_neg (by omega)]
    exact ih fun c hc => h c (by simp [hc])

theorem Memory.wf_tail {c : Nat × Byte} {m : Memory} (h : Memory.wf (c :: m)) : Memory.wf m :=
  ⟨(List.pairwise_cons.mp h.1).2, fun d hd => h.2 d (by simp [hd])⟩

theorem Memory.lt_of_wf {c : Nat × Byte} {m : Memory} (h : Memory.wf (c :: m)) : ∀ d ∈ m, c.1 < d.1 :=
  (List.pairwise_cons.mp h.1).1

/-- A read after a put in front of a store that lists only higher addresses. -/
theorem Memory.read_cons {m : Memory} {a : Nat} {v : Byte} (h : ∀ c ∈ m, a < c.1) (x : Nat) :
    (Memory.cons a v m).read x = if x = a then v else m.read x := by
  unfold Memory.cons
  split
  · subst v
    split
    · subst x; exact Memory.read_of_lt h
    · rfl
  · exact Memory.read_cons_cell a x v m

/-- Read after write: the byte written there, the old byte elsewhere. -/
theorem Memory.read_write {m : Memory} (h : m.wf) (a x : Nat) (v : Byte) :
    (m.write a v).read x = if x = a then v else m.read x := by
  induction m with
  | nil => exact Memory.read_cons (by simp) x
  | cons c m ih =>
    obtain ⟨b, y⟩ := c
    have hlt := Memory.lt_of_wf h
    unfold Memory.write
    split
    · rename_i hab
      exact Memory.read_cons (by
        intro c hc
        rcases List.mem_cons.mp hc with rfl | hc
        · exact hab
        · exact Nat.lt_trans hab (hlt c hc)) x
    · split
      · subst a
        rw [Memory.read_cons hlt, Memory.read_cons_cell]
        split <;> rfl
      · rename_i h1 h2
        rw [Memory.read_cons_cell, Memory.read_cons_cell, ih (Memory.wf_tail h)]
        split
        · rename_i hx
          subst hx
          rw [if_neg (by omega)]
        · rfl

/-- A cell of a written store is the one written or an old one. -/
theorem Memory.mem_write {m : Memory} {a : Nat} {v : Byte} {c : Nat × Byte} (h : c ∈ m.write a v) :
    (c = (a, v) ∧ v ≠ unlistedByte) ∨ c ∈ m := by
  have hcons : ∀ m' : Memory, c ∈ Memory.cons a v m' → (c = (a, v) ∧ v ≠ unlistedByte) ∨ c ∈ m' := by
    intro m' hm
    unfold Memory.cons at hm
    split at hm
    · exact .inr hm
    · rename_i hv
      rcases List.mem_cons.mp hm with hc | hc
      · exact .inl ⟨hc, hv⟩
      · exact .inr hc
  induction m with
  | nil => exact hcons [] h
  | cons d m ih =>
    obtain ⟨b, y⟩ := d
    unfold Memory.write at h
    split at h
    · exact hcons _ h
    · split at h
      · rcases hcons _ h with h | h
        · exact .inl h
        · exact .inr (by simp [h])
      · rcases List.mem_cons.mp h with h | h
        · exact .inr (by simp [h])
        · rcases ih h with h | h
          · exact .inl h
          · exact .inr (by simp [h])

/-- A write keeps the canonical form. -/
theorem Memory.write_wf {m : Memory} (h : m.wf) (a : Nat) (v : Byte) : (m.write a v).wf := by
  refine ⟨?_, ?_⟩
  · induction m with
    | nil => simp only [Memory.write, Memory.cons]; split <;> simp
    | cons c m ih =>
      obtain ⟨b, y⟩ := c
      have hlt := Memory.lt_of_wf h
      have hcons : ∀ m' : Memory, m'.Pairwise (fun x y => x.1 < y.1) → (∀ c ∈ m', a < c.1) →
          (Memory.cons a v m').Pairwise (fun x y => x.1 < y.1) := by
        intro m' hp ha
        unfold Memory.cons
        split
        · exact hp
        · exact List.pairwise_cons.mpr ⟨ha, hp⟩
      unfold Memory.write
      split
      · rename_i hab
        refine hcons _ h.1 ?_
        intro c hc
        rcases List.mem_cons.mp hc with rfl | hc
        · exact hab
        · exact Nat.lt_trans hab (hlt c hc)
      · split
        · subst a
          exact hcons _ (Memory.wf_tail h).1 hlt
        · refine List.pairwise_cons.mpr ⟨?_, ih (Memory.wf_tail h)⟩
          intro c hc
          rcases Memory.mem_write hc with ⟨rfl, -⟩ | hc
          · simp only; omega
          · exact hlt c hc
  · intro c hc
    rcases Memory.mem_write hc with ⟨rfl, hv⟩ | hc
    · exact hv
    · exact h.2 c hc

end Sys2Proof.Machine
end

