-- ==== Sys2Proof/Laws/State.lean ====
section
/-! SUPPORT. What each small update of the state does to each field, one lemma for each, so that no proof unfolds a
record update. Written by a script from the list of fields. -/

namespace Sys2Proof.Machine

@[simp] theorem State.accept_cmd (w : Word) (s : State) : (s.accept w).cmd = w := rfl
@[simp] theorem State.accept_busy (w : Word) (s : State) : (s.accept w).busy = true := rfl
@[simp] theorem State.accept_done (w : Word) (s : State) : (s.accept w).done = false := rfl
@[simp] theorem State.accept_fail (w : Word) (s : State) : (s.accept w).fail = false := rfl
@[simp] theorem State.accept_seqErr (w : Word) (s : State) : (s.accept w).seqErr = false := rfl
@[simp] theorem State.accept_illegal (w : Word) (s : State) : (s.accept w).illegal = false := rfl
@[simp] theorem State.accept_ovr (w : Word) (s : State) : (s.accept w).ovr = s.ovr := rfl
@[simp] theorem State.accept_result (w : Word) (s : State) : (s.accept w).result = s.result := rfl
@[simp] theorem State.accept_debounce (w : Word) (s : State) : (s.accept w).debounce = s.debounce := rfl
@[simp] theorem State.accept_busStat (w : Word) (s : State) : (s.accept w).busStat = s.busStat := rfl
@[simp] theorem State.accept_div (w : Word) (s : State) : (s.accept w).div = s.div := rfl
@[simp] theorem State.accept_attempts (w : Word) (s : State) : (s.accept w).attempts = s.attempts := rfl
@[simp] theorem State.accept_mode (w : Word) (s : State) : (s.accept w).mode = s.mode := rfl
@[simp] theorem State.accept_cur (w : Word) (s : State) : (s.accept w).cur = w := rfl
@[simp] theorem State.accept_todo (w : Word) (s : State) : (s.accept w).todo = s.todo := rfl
@[simp] theorem State.accept_failAcc (w : Word) (s : State) : (s.accept w).failAcc = false := rfl
@[simp] theorem State.accept_acc (w : Word) (s : State) : (s.accept w).acc = s.acc := rfl
@[simp] theorem State.accept_s1 (w : Word) (s : State) : (s.accept w).s1 = s.s1 := rfl
@[simp] theorem State.accept_s2 (w : Word) (s : State) : (s.accept w).s2 = s.s2 := rfl
@[simp] theorem State.accept_timer (w : Word) (s : State) : (s.accept w).timer = s.timer := rfl
@[simp] theorem State.accept_sclDrv (w : Word) (s : State) : (s.accept w).sclDrv = s.sclDrv := rfl
@[simp] theorem State.accept_sdaDrv (w : Word) (s : State) : (s.accept w).sdaDrv = s.sdaDrv := rfl
@[simp] theorem State.accept_rx (w : Word) (s : State) : (s.accept w).rx = s.rx := rfl
@[simp] theorem State.accept_stepFail (w : Word) (s : State) : (s.accept w).stepFail = s.stepFail := rfl
@[simp] theorem State.accept_trace (w : Word) (s : State) : (s.accept w).trace = s.trace := rfl
@[simp] theorem State.accept_par (w : Word) (s : State) : (s.accept w).par = s.par := rfl
@[simp] theorem State.accept_env (w : Word) (s : State) : (s.accept w).env = s.env := rfl
@[simp] theorem State.accept_inReset (w : Word) (s : State) : (s.accept w).inReset = s.inReset := rfl
@[simp] theorem State.accept_host (w : Word) (s : State) : (s.accept w).host = s.host := rfl
@[simp] theorem State.accept_quiet (w : Word) (s : State) : (s.accept w).quiet = s.quiet := rfl
@[simp] theorem State.accept_rdata (w : Word) (s : State) : (s.accept w).rdata = s.rdata := rfl

@[simp] theorem State.complete_cmd (r : Mask) (f e i : Bool) (s : State) : (s.complete r f e i).cmd = s.cmd := rfl
@[simp] theorem State.complete_busy (r : Mask) (f e i : Bool) (s : State) : (s.complete r f e i).busy = false := rfl
@[simp] theorem State.complete_done (r : Mask) (f e i : Bool) (s : State) : (s.complete r f e i).done = true := rfl
@[simp] theorem State.complete_fail (r : Mask) (f e i : Bool) (s : State) : (s.complete r f e i).fail = f := rfl
@[simp] theorem State.complete_seqErr (r : Mask) (f e i : Bool) (s : State) : (s.complete r f e i).seqErr = e := rfl
@[simp] theorem State.complete_illegal (r : Mask) (f e i : Bool) (s : State) : (s.complete r f e i).illegal = i := rfl
@[simp] theorem State.complete_ovr (r : Mask) (f e i : Bool) (s : State) : (s.complete r f e i).ovr = s.ovr := rfl
@[simp] theorem State.complete_result (r : Mask) (f e i : Bool) (s : State) : (s.complete r f e i).result = r := rfl
@[simp] theorem State.complete_debounce (r : Mask) (f e i : Bool) (s : State) : (s.complete r f e i).debounce = s.debounce := rfl
@[simp] theorem State.complete_busStat (r : Mask) (f e i : Bool) (s : State) : (s.complete r f e i).busStat = s.busStat := rfl
@[simp] theorem State.complete_div (r : Mask) (f e i : Bool) (s : State) : (s.complete r f e i).div = s.div := rfl
@[simp] theorem State.complete_attempts (r : Mask) (f e i : Bool) (s : State) : (s.complete r f e i).attempts = s.attempts := rfl
@[simp] theorem State.complete_mode (r : Mask) (f e i : Bool) (s : State) : (s.complete r f e i).mode = s.mode := rfl
@[simp] theorem State.complete_cur (r : Mask) (f e i : Bool) (s : State) : (s.complete r f e i).cur = s.cur := rfl
@[simp] theorem State.complete_todo (r : Mask) (f e i : Bool) (s : State) : (s.complete r f e i).todo = [] := rfl
@[simp] theorem State.complete_failAcc (r : Mask) (f e i : Bool) (s : State) : (s.complete r f e i).failAcc = s.failAcc := rfl
@[simp] theorem State.complete_acc (r : Mask) (f e i : Bool) (s : State) : (s.complete r f e i).acc = s.acc := rfl
@[simp] theorem State.complete_s1 (r : Mask) (f e i : Bool) (s : State) : (s.complete r f e i).s1 = s.s1 := rfl
@[simp] theorem State.complete_s2 (r : Mask) (f e i : Bool) (s : State) : (s.complete r f e i).s2 = s.s2 := rfl
@[simp] theorem State.complete_timer (r : Mask) (f e i : Bool) (s : State) : (s.complete r f e i).timer = s.timer := rfl
@[simp] theorem State.complete_sclDrv (r : Mask) (f e i : Bool) (s : State) : (s.complete r f e i).sclDrv = s.sclDrv := rfl
@[simp] theorem State.complete_sdaDrv (r : Mask) (f e i : Bool) (s : State) : (s.complete r f e i).sdaDrv = s.sdaDrv := rfl
@[simp] theorem State.complete_rx (r : Mask) (f e i : Bool) (s : State) : (s.complete r f e i).rx = s.rx := rfl
@[simp] theorem State.complete_stepFail (r : Mask) (f e i : Bool) (s : State) : (s.complete r f e i).stepFail = s.stepFail := rfl
@[simp] theorem State.complete_trace (r : Mask) (f e i : Bool) (s : State) : (s.complete r f e i).trace = s.trace := rfl
@[simp] theorem State.complete_par (r : Mask) (f e i : Bool) (s : State) : (s.complete r f e i).par = s.par := rfl
@[simp] theorem State.complete_env (r : Mask) (f e i : Bool) (s : State) : (s.complete r f e i).env = s.env := rfl
@[simp] theorem State.complete_inReset (r : Mask) (f e i : Bool) (s : State) : (s.complete r f e i).inReset = s.inReset := rfl
@[simp] theorem State.complete_host (r : Mask) (f e i : Bool) (s : State) : (s.complete r f e i).host = s.host := rfl
@[simp] theorem State.complete_quiet (r : Mask) (f e i : Bool) (s : State) : (s.complete r f e i).quiet = s.quiet := rfl
@[simp] theorem State.complete_rdata (r : Mask) (f e i : Bool) (s : State) : (s.complete r f e i).rdata = s.rdata := rfl

@[simp] theorem State.raiseSeqErr_cmd (v : Mask) (s : State) : (s.raiseSeqErr v).cmd = s.cmd := rfl
@[simp] theorem State.raiseSeqErr_busy (v : Mask) (s : State) : (s.raiseSeqErr v).busy = false := rfl
@[simp] theorem State.raiseSeqErr_done (v : Mask) (s : State) : (s.raiseSeqErr v).done = true := rfl
@[simp] theorem State.raiseSeqErr_fail (v : Mask) (s : State) : (s.raiseSeqErr v).fail = false := rfl
@[simp] theorem State.raiseSeqErr_seqErr (v : Mask) (s : State) : (s.raiseSeqErr v).seqErr = true := rfl
@[simp] theorem State.raiseSeqErr_illegal (v : Mask) (s : State) : (s.raiseSeqErr v).illegal = false := rfl
@[simp] theorem State.raiseSeqErr_ovr (v : Mask) (s : State) : (s.raiseSeqErr v).ovr = s.ovr := rfl
@[simp] theorem State.raiseSeqErr_result (v : Mask) (s : State) : (s.raiseSeqErr v).result = v := rfl
@[simp] theorem State.raiseSeqErr_debounce (v : Mask) (s : State) : (s.raiseSeqErr v).debounce = s.debounce := rfl
@[simp] theorem State.raiseSeqErr_busStat (v : Mask) (s : State) : (s.raiseSeqErr v).busStat = s.busStat := rfl
@[simp] theorem State.raiseSeqErr_div (v : Mask) (s : State) : (s.raiseSeqErr v).div = s.div := rfl
@[simp] theorem State.raiseSeqErr_attempts (v : Mask) (s : State) : (s.raiseSeqErr v).attempts = s.attempts := rfl
@[simp] theorem State.raiseSeqErr_mode (v : Mask) (s : State) : (s.raiseSeqErr v).mode = s.mode := rfl
@[simp] theorem State.raiseSeqErr_cur (v : Mask) (s : State) : (s.raiseSeqErr v).cur = s.cur := rfl
@[simp] theorem State.raiseSeqErr_todo (v : Mask) (s : State) : (s.raiseSeqErr v).todo = [] := rfl
@[simp] theorem State.raiseSeqErr_failAcc (v : Mask) (s : State) : (s.raiseSeqErr v).failAcc = s.failAcc := rfl
@[simp] theorem State.raiseSeqErr_acc (v : Mask) (s : State) : (s.raiseSeqErr v).acc = s.acc := rfl
@[simp] theorem State.raiseSeqErr_s1 (v : Mask) (s : State) : (s.raiseSeqErr v).s1 = s.s1 := rfl
@[simp] theorem State.raiseSeqErr_s2 (v : Mask) (s : State) : (s.raiseSeqErr v).s2 = s.s2 := rfl
@[simp] theorem State.raiseSeqErr_timer (v : Mask) (s : State) : (s.raiseSeqErr v).timer = s.timer := rfl
@[simp] theorem State.raiseSeqErr_sclDrv (v : Mask) (s : State) : (s.raiseSeqErr v).sclDrv = s.sclDrv := rfl
@[simp] theorem State.raiseSeqErr_sdaDrv (v : Mask) (s : State) : (s.raiseSeqErr v).sdaDrv = s.sdaDrv := rfl
@[simp] theorem State.raiseSeqErr_rx (v : Mask) (s : State) : (s.raiseSeqErr v).rx = s.rx := rfl
@[simp] theorem State.raiseSeqErr_stepFail (v : Mask) (s : State) : (s.raiseSeqErr v).stepFail = s.stepFail := rfl
@[simp] theorem State.raiseSeqErr_trace (v : Mask) (s : State) : (s.raiseSeqErr v).trace = s.trace := rfl
@[simp] theorem State.raiseSeqErr_par (v : Mask) (s : State) : (s.raiseSeqErr v).par = s.par := rfl
@[simp] theorem State.raiseSeqErr_env (v : Mask) (s : State) : (s.raiseSeqErr v).env = s.env := rfl
@[simp] theorem State.raiseSeqErr_inReset (v : Mask) (s : State) : (s.raiseSeqErr v).inReset = s.inReset := rfl
@[simp] theorem State.raiseSeqErr_host (v : Mask) (s : State) : (s.raiseSeqErr v).host = s.host := rfl
@[simp] theorem State.raiseSeqErr_quiet (v : Mask) (s : State) : (s.raiseSeqErr v).quiet = s.quiet := rfl
@[simp] theorem State.raiseSeqErr_rdata (v : Mask) (s : State) : (s.raiseSeqErr v).rdata = s.rdata := rfl

@[simp] theorem State.raiseIllegal_cmd (s : State) : (s.raiseIllegal).cmd = s.cmd := rfl
@[simp] theorem State.raiseIllegal_busy (s : State) : (s.raiseIllegal).busy = false := rfl
@[simp] theorem State.raiseIllegal_done (s : State) : (s.raiseIllegal).done = true := rfl
@[simp] theorem State.raiseIllegal_fail (s : State) : (s.raiseIllegal).fail = false := rfl
@[simp] theorem State.raiseIllegal_seqErr (s : State) : (s.raiseIllegal).seqErr = false := rfl
@[simp] theorem State.raiseIllegal_illegal (s : State) : (s.raiseIllegal).illegal = true := rfl
@[simp] theorem State.raiseIllegal_ovr (s : State) : (s.raiseIllegal).ovr = s.ovr := rfl
@[simp] theorem State.raiseIllegal_result (s : State) : (s.raiseIllegal).result = 0#16 := rfl
@[simp] theorem State.raiseIllegal_debounce (s : State) : (s.raiseIllegal).debounce = s.debounce := rfl
@[simp] theorem State.raiseIllegal_busStat (s : State) : (s.raiseIllegal).busStat = s.busStat := rfl
@[simp] theorem State.raiseIllegal_div (s : State) : (s.raiseIllegal).div = s.div := rfl
@[simp] theorem State.raiseIllegal_attempts (s : State) : (s.raiseIllegal).attempts = s.attempts := rfl
@[simp] theorem State.raiseIllegal_mode (s : State) : (s.raiseIllegal).mode = s.mode := rfl
@[simp] theorem State.raiseIllegal_cur (s : State) : (s.raiseIllegal).cur = s.cur := rfl
@[simp] theorem State.raiseIllegal_todo (s : State) : (s.raiseIllegal).todo = [] := rfl
@[simp] theorem State.raiseIllegal_failAcc (s : State) : (s.raiseIllegal).failAcc = s.failAcc := rfl
@[simp] theorem State.raiseIllegal_acc (s : State) : (s.raiseIllegal).acc = s.acc := rfl
@[simp] theorem State.raiseIllegal_s1 (s : State) : (s.raiseIllegal).s1 = s.s1 := rfl
@[simp] theorem State.raiseIllegal_s2 (s : State) : (s.raiseIllegal).s2 = s.s2 := rfl
@[simp] theorem State.raiseIllegal_timer (s : State) : (s.raiseIllegal).timer = s.timer := rfl
@[simp] theorem State.raiseIllegal_sclDrv (s : State) : (s.raiseIllegal).sclDrv = s.sclDrv := rfl
@[simp] theorem State.raiseIllegal_sdaDrv (s : State) : (s.raiseIllegal).sdaDrv = s.sdaDrv := rfl
@[simp] theorem State.raiseIllegal_rx (s : State) : (s.raiseIllegal).rx = s.rx := rfl
@[simp] theorem State.raiseIllegal_stepFail (s : State) : (s.raiseIllegal).stepFail = s.stepFail := rfl
@[simp] theorem State.raiseIllegal_trace (s : State) : (s.raiseIllegal).trace = s.trace := rfl
@[simp] theorem State.raiseIllegal_par (s : State) : (s.raiseIllegal).par = s.par := rfl
@[simp] theorem State.raiseIllegal_env (s : State) : (s.raiseIllegal).env = s.env := rfl
@[simp] theorem State.raiseIllegal_inReset (s : State) : (s.raiseIllegal).inReset = s.inReset := rfl
@[simp] theorem State.raiseIllegal_host (s : State) : (s.raiseIllegal).host = s.host := rfl
@[simp] theorem State.raiseIllegal_quiet (s : State) : (s.raiseIllegal).quiet = s.quiet := rfl
@[simp] theorem State.raiseIllegal_rdata (s : State) : (s.raiseIllegal).rdata = s.rdata := rfl

@[simp] theorem State.dropWrite_cmd (s : State) : (s.dropWrite).cmd = s.cmd := rfl
@[simp] theorem State.dropWrite_busy (s : State) : (s.dropWrite).busy = s.busy := rfl
@[simp] theorem State.dropWrite_done (s : State) : (s.dropWrite).done = s.done := rfl
@[simp] theorem State.dropWrite_fail (s : State) : (s.dropWrite).fail = s.fail := rfl
@[simp] theorem State.dropWrite_seqErr (s : State) : (s.dropWrite).seqErr = s.seqErr := rfl
@[simp] theorem State.dropWrite_illegal (s : State) : (s.dropWrite).illegal = s.illegal := rfl
@[simp] theorem State.dropWrite_ovr (s : State) : (s.dropWrite).ovr = true := rfl
@[simp] theorem State.dropWrite_result (s : State) : (s.dropWrite).result = s.result := rfl
@[simp] theorem State.dropWrite_debounce (s : State) : (s.dropWrite).debounce = s.debounce := rfl
@[simp] theorem State.dropWrite_busStat (s : State) : (s.dropWrite).busStat = s.busStat := rfl
@[simp] theorem State.dropWrite_div (s : State) : (s.dropWrite).div = s.div := rfl
@[simp] theorem State.dropWrite_attempts (s : State) : (s.dropWrite).attempts = s.attempts := rfl
@[simp] theorem State.dropWrite_mode (s : State) : (s.dropWrite).mode = s.mode := rfl
@[simp] theorem State.dropWrite_cur (s : State) : (s.dropWrite).cur = s.cur := rfl
@[simp] theorem State.dropWrite_todo (s : State) : (s.dropWrite).todo = s.todo := rfl
@[simp] theorem State.dropWrite_failAcc (s : State) : (s.dropWrite).failAcc = s.failAcc := rfl
@[simp] theorem State.dropWrite_acc (s : State) : (s.dropWrite).acc = s.acc := rfl
@[simp] theorem State.dropWrite_s1 (s : State) : (s.dropWrite).s1 = s.s1 := rfl
@[simp] theorem State.dropWrite_s2 (s : State) : (s.dropWrite).s2 = s.s2 := rfl
@[simp] theorem State.dropWrite_timer (s : State) : (s.dropWrite).timer = s.timer := rfl
@[simp] theorem State.dropWrite_sclDrv (s : State) : (s.dropWrite).sclDrv = s.sclDrv := rfl
@[simp] theorem State.dropWrite_sdaDrv (s : State) : (s.dropWrite).sdaDrv = s.sdaDrv := rfl
@[simp] theorem State.dropWrite_rx (s : State) : (s.dropWrite).rx = s.rx := rfl
@[simp] theorem State.dropWrite_stepFail (s : State) : (s.dropWrite).stepFail = s.stepFail := rfl
@[simp] theorem State.dropWrite_trace (s : State) : (s.dropWrite).trace = s.trace := rfl
@[simp] theorem State.dropWrite_par (s : State) : (s.dropWrite).par = s.par := rfl
@[simp] theorem State.dropWrite_env (s : State) : (s.dropWrite).env = s.env := rfl
@[simp] theorem State.dropWrite_inReset (s : State) : (s.dropWrite).inReset = s.inReset := rfl
@[simp] theorem State.dropWrite_host (s : State) : (s.dropWrite).host = s.host := rfl
@[simp] theorem State.dropWrite_quiet (s : State) : (s.dropWrite).quiet = s.quiet := rfl
@[simp] theorem State.dropWrite_rdata (s : State) : (s.dropWrite).rdata = s.rdata := rfl

@[simp] theorem State.record_cmd (e : Event) (s : State) : (s.record e).cmd = s.cmd := rfl
@[simp] theorem State.record_busy (e : Event) (s : State) : (s.record e).busy = s.busy := rfl
@[simp] theorem State.record_done (e : Event) (s : State) : (s.record e).done = s.done := rfl
@[simp] theorem State.record_fail (e : Event) (s : State) : (s.record e).fail = s.fail := rfl
@[simp] theorem State.record_seqErr (e : Event) (s : State) : (s.record e).seqErr = s.seqErr := rfl
@[simp] theorem State.record_illegal (e : Event) (s : State) : (s.record e).illegal = s.illegal := rfl
@[simp] theorem State.record_ovr (e : Event) (s : State) : (s.record e).ovr = s.ovr := rfl
@[simp] theorem State.record_result (e : Event) (s : State) : (s.record e).result = s.result := rfl
@[simp] theorem State.record_debounce (e : Event) (s : State) : (s.record e).debounce = s.debounce := rfl
@[simp] theorem State.record_busStat (e : Event) (s : State) : (s.record e).busStat = s.busStat := rfl
@[simp] theorem State.record_div (e : Event) (s : State) : (s.record e).div = s.div := rfl
@[simp] theorem State.record_attempts (e : Event) (s : State) : (s.record e).attempts = s.attempts := rfl
@[simp] theorem State.record_mode (e : Event) (s : State) : (s.record e).mode = s.mode := rfl
@[simp] theorem State.record_cur (e : Event) (s : State) : (s.record e).cur = s.cur := rfl
@[simp] theorem State.record_todo (e : Event) (s : State) : (s.record e).todo = s.todo := rfl
@[simp] theorem State.record_failAcc (e : Event) (s : State) : (s.record e).failAcc = s.failAcc := rfl
@[simp] theorem State.record_acc (e : Event) (s : State) : (s.record e).acc = s.acc := rfl
@[simp] theorem State.record_s1 (e : Event) (s : State) : (s.record e).s1 = s.s1 := rfl
@[simp] theorem State.record_s2 (e : Event) (s : State) : (s.record e).s2 = s.s2 := rfl
@[simp] theorem State.record_timer (e : Event) (s : State) : (s.record e).timer = s.timer := rfl
@[simp] theorem State.record_sclDrv (e : Event) (s : State) : (s.record e).sclDrv = (linesAfter e (s.sclDrv, s.sdaDrv)).1 := rfl
@[simp] theorem State.record_sdaDrv (e : Event) (s : State) : (s.record e).sdaDrv = (linesAfter e (s.sclDrv, s.sdaDrv)).2 := rfl
@[simp] theorem State.record_rx (e : Event) (s : State) : (s.record e).rx = s.rx := rfl
@[simp] theorem State.record_stepFail (e : Event) (s : State) : (s.record e).stepFail = s.stepFail := rfl
@[simp] theorem State.record_trace (e : Event) (s : State) : (s.record e).trace = s.trace ++ [e] := rfl
@[simp] theorem State.record_par (e : Event) (s : State) : (s.record e).par = s.par := rfl
@[simp] theorem State.record_env (e : Event) (s : State) : (s.record e).env = s.env := rfl
@[simp] theorem State.record_inReset (e : Event) (s : State) : (s.record e).inReset = s.inReset := rfl
@[simp] theorem State.record_host (e : Event) (s : State) : (s.record e).host = s.host := rfl
@[simp] theorem State.record_quiet (e : Event) (s : State) : (s.record e).quiet = s.quiet := rfl
@[simp] theorem State.record_rdata (e : Event) (s : State) : (s.record e).rdata = s.rdata := rfl

@[simp] theorem State.setBus_cmd (b : BusStat) (m : BusMode) (s : State) : (s.setBus b m).cmd = s.cmd := rfl
@[simp] theorem State.setBus_busy (b : BusStat) (m : BusMode) (s : State) : (s.setBus b m).busy = s.busy := rfl
@[simp] theorem State.setBus_done (b : BusStat) (m : BusMode) (s : State) : (s.setBus b m).done = s.done := rfl
@[simp] theorem State.setBus_fail (b : BusStat) (m : BusMode) (s : State) : (s.setBus b m).fail = s.fail := rfl
@[simp] theorem State.setBus_seqErr (b : BusStat) (m : BusMode) (s : State) : (s.setBus b m).seqErr = s.seqErr := rfl
@[simp] theorem State.setBus_illegal (b : BusStat) (m : BusMode) (s : State) : (s.setBus b m).illegal = s.illegal := rfl
@[simp] theorem State.setBus_ovr (b : BusStat) (m : BusMode) (s : State) : (s.setBus b m).ovr = s.ovr := rfl
@[simp] theorem State.setBus_result (b : BusStat) (m : BusMode) (s : State) : (s.setBus b m).result = s.result := rfl
@[simp] theorem State.setBus_debounce (b : BusStat) (m : BusMode) (s : State) : (s.setBus b m).debounce = s.debounce := rfl
@[simp] theorem State.setBus_busStat (b : BusStat) (m : BusMode) (s : State) : (s.setBus b m).busStat = b := rfl
@[simp] theorem State.setBus_div (b : BusStat) (m : BusMode) (s : State) : (s.setBus b m).div = s.div := rfl
@[simp] theorem State.setBus_attempts (b : BusStat) (m : BusMode) (s : State) : (s.setBus b m).attempts = s.attempts := rfl
@[simp] theorem State.setBus_mode (b : BusStat) (m : BusMode) (s : State) : (s.setBus b m).mode = m := rfl
@[simp] theorem State.setBus_cur (b : BusStat) (m : BusMode) (s : State) : (s.setBus b m).cur = s.cur := rfl
@[simp] theorem State.setBus_todo (b : BusStat) (m : BusMode) (s : State) : (s.setBus b m).todo = s.todo := rfl
@[simp] theorem State.setBus_failAcc (b : BusStat) (m : BusMode) (s : State) : (s.setBus b m).failAcc = s.failAcc := rfl
@[simp] theorem State.setBus_acc (b : BusStat) (m : BusMode) (s : State) : (s.setBus b m).acc = s.acc := rfl
@[simp] theorem State.setBus_s1 (b : BusStat) (m : BusMode) (s : State) : (s.setBus b m).s1 = s.s1 := rfl
@[simp] theorem State.setBus_s2 (b : BusStat) (m : BusMode) (s : State) : (s.setBus b m).s2 = s.s2 := rfl
@[simp] theorem State.setBus_timer (b : BusStat) (m : BusMode) (s : State) : (s.setBus b m).timer = s.timer := rfl
@[simp] theorem State.setBus_sclDrv (b : BusStat) (m : BusMode) (s : State) : (s.setBus b m).sclDrv = s.sclDrv := rfl
@[simp] theorem State.setBus_sdaDrv (b : BusStat) (m : BusMode) (s : State) : (s.setBus b m).sdaDrv = s.sdaDrv := rfl
@[simp] theorem State.setBus_rx (b : BusStat) (m : BusMode) (s : State) : (s.setBus b m).rx = s.rx := rfl
@[simp] theorem State.setBus_stepFail (b : BusStat) (m : BusMode) (s : State) : (s.setBus b m).stepFail = s.stepFail := rfl
@[simp] theorem State.setBus_trace (b : BusStat) (m : BusMode) (s : State) : (s.setBus b m).trace = s.trace := rfl
@[simp] theorem State.setBus_par (b : BusStat) (m : BusMode) (s : State) : (s.setBus b m).par = s.par := rfl
@[simp] theorem State.setBus_env (b : BusStat) (m : BusMode) (s : State) : (s.setBus b m).env = s.env := rfl
@[simp] theorem State.setBus_inReset (b : BusStat) (m : BusMode) (s : State) : (s.setBus b m).inReset = s.inReset := rfl
@[simp] theorem State.setBus_host (b : BusStat) (m : BusMode) (s : State) : (s.setBus b m).host = s.host := rfl
@[simp] theorem State.setBus_quiet (b : BusStat) (m : BusMode) (s : State) : (s.setBus b m).quiet = s.quiet := rfl
@[simp] theorem State.setBus_rdata (b : BusStat) (m : BusMode) (s : State) : (s.setBus b m).rdata = s.rdata := rfl

@[simp] theorem State.opWaitBegin_cmd (s : State) : (s.opWaitBegin).cmd = s.cmd := rfl
@[simp] theorem State.opWaitBegin_busy (s : State) : (s.opWaitBegin).busy = s.busy := rfl
@[simp] theorem State.opWaitBegin_done (s : State) : (s.opWaitBegin).done = s.done := rfl
@[simp] theorem State.opWaitBegin_fail (s : State) : (s.opWaitBegin).fail = s.fail := rfl
@[simp] theorem State.opWaitBegin_seqErr (s : State) : (s.opWaitBegin).seqErr = s.seqErr := rfl
@[simp] theorem State.opWaitBegin_illegal (s : State) : (s.opWaitBegin).illegal = s.illegal := rfl
@[simp] theorem State.opWaitBegin_ovr (s : State) : (s.opWaitBegin).ovr = s.ovr := rfl
@[simp] theorem State.opWaitBegin_result (s : State) : (s.opWaitBegin).result = s.result := rfl
@[simp] theorem State.opWaitBegin_debounce (s : State) : (s.opWaitBegin).debounce = s.debounce := rfl
@[simp] theorem State.opWaitBegin_busStat (s : State) : (s.opWaitBegin).busStat = s.busStat := rfl
@[simp] theorem State.opWaitBegin_div (s : State) : (s.opWaitBegin).div = s.div := rfl
@[simp] theorem State.opWaitBegin_attempts (s : State) : (s.opWaitBegin).attempts = s.attempts := rfl
@[simp] theorem State.opWaitBegin_mode (s : State) : (s.opWaitBegin).mode = s.mode := rfl
@[simp] theorem State.opWaitBegin_cur (s : State) : (s.opWaitBegin).cur = s.cur := rfl
@[simp] theorem State.opWaitBegin_todo (s : State) : (s.opWaitBegin).todo = s.todo := rfl
@[simp] theorem State.opWaitBegin_failAcc (s : State) : (s.opWaitBegin).failAcc = s.failAcc := rfl
@[simp] theorem State.opWaitBegin_acc (s : State) : (s.opWaitBegin).acc = s.acc := rfl
@[simp] theorem State.opWaitBegin_s1 (s : State) : (s.opWaitBegin).s1 = s.s1 := rfl
@[simp] theorem State.opWaitBegin_s2 (s : State) : (s.opWaitBegin).s2 = s.s2 := rfl
@[simp] theorem State.opWaitBegin_timer (s : State) : (s.opWaitBegin).timer = .counting (debounceCycles s.par + s.env.extraWait) := rfl
@[simp] theorem State.opWaitBegin_sclDrv (s : State) : (s.opWaitBegin).sclDrv = s.sclDrv := rfl
@[simp] theorem State.opWaitBegin_sdaDrv (s : State) : (s.opWaitBegin).sdaDrv = s.sdaDrv := rfl
@[simp] theorem State.opWaitBegin_rx (s : State) : (s.opWaitBegin).rx = s.rx := rfl
@[simp] theorem State.opWaitBegin_stepFail (s : State) : (s.opWaitBegin).stepFail = s.stepFail := rfl
@[simp] theorem State.opWaitBegin_trace (s : State) : (s.opWaitBegin).trace = s.trace := rfl
@[simp] theorem State.opWaitBegin_par (s : State) : (s.opWaitBegin).par = s.par := rfl
@[simp] theorem State.opWaitBegin_env (s : State) : (s.opWaitBegin).env = s.env.afterWait := rfl
@[simp] theorem State.opWaitBegin_inReset (s : State) : (s.opWaitBegin).inReset = s.inReset := rfl
@[simp] theorem State.opWaitBegin_host (s : State) : (s.opWaitBegin).host = s.host := rfl
@[simp] theorem State.opWaitBegin_quiet (s : State) : (s.opWaitBegin).quiet = s.quiet := rfl
@[simp] theorem State.opWaitBegin_rdata (s : State) : (s.opWaitBegin).rdata = s.rdata := rfl

@[simp] theorem State.setFail_cmd (f : Bool) (s : State) : (s.setFail f).cmd = s.cmd := rfl
@[simp] theorem State.setFail_busy (f : Bool) (s : State) : (s.setFail f).busy = s.busy := rfl
@[simp] theorem State.setFail_done (f : Bool) (s : State) : (s.setFail f).done = s.done := rfl
@[simp] theorem State.setFail_fail (f : Bool) (s : State) : (s.setFail f).fail = s.fail := rfl
@[simp] theorem State.setFail_seqErr (f : Bool) (s : State) : (s.setFail f).seqErr = s.seqErr := rfl
@[simp] theorem State.setFail_illegal (f : Bool) (s : State) : (s.setFail f).illegal = s.illegal := rfl
@[simp] theorem State.setFail_ovr (f : Bool) (s : State) : (s.setFail f).ovr = s.ovr := rfl
@[simp] theorem State.setFail_result (f : Bool) (s : State) : (s.setFail f).result = s.result := rfl
@[simp] theorem State.setFail_debounce (f : Bool) (s : State) : (s.setFail f).debounce = s.debounce := rfl
@[simp] theorem State.setFail_busStat (f : Bool) (s : State) : (s.setFail f).busStat = s.busStat := rfl
@[simp] theorem State.setFail_div (f : Bool) (s : State) : (s.setFail f).div = s.div := rfl
@[simp] theorem State.setFail_attempts (f : Bool) (s : State) : (s.setFail f).attempts = s.attempts := rfl
@[simp] theorem State.setFail_mode (f : Bool) (s : State) : (s.setFail f).mode = s.mode := rfl
@[simp] theorem State.setFail_cur (f : Bool) (s : State) : (s.setFail f).cur = s.cur := rfl
@[simp] theorem State.setFail_todo (f : Bool) (s : State) : (s.setFail f).todo = s.todo := rfl
@[simp] theorem State.setFail_failAcc (f : Bool) (s : State) : (s.setFail f).failAcc = s.failAcc := rfl
@[simp] theorem State.setFail_acc (f : Bool) (s : State) : (s.setFail f).acc = s.acc := rfl
@[simp] theorem State.setFail_s1 (f : Bool) (s : State) : (s.setFail f).s1 = s.s1 := rfl
@[simp] theorem State.setFail_s2 (f : Bool) (s : State) : (s.setFail f).s2 = s.s2 := rfl
@[simp] theorem State.setFail_timer (f : Bool) (s : State) : (s.setFail f).timer = s.timer := rfl
@[simp] theorem State.setFail_sclDrv (f : Bool) (s : State) : (s.setFail f).sclDrv = s.sclDrv := rfl
@[simp] theorem State.setFail_sdaDrv (f : Bool) (s : State) : (s.setFail f).sdaDrv = s.sdaDrv := rfl
@[simp] theorem State.setFail_rx (f : Bool) (s : State) : (s.setFail f).rx = s.rx := rfl
@[simp] theorem State.setFail_stepFail (f : Bool) (s : State) : (s.setFail f).stepFail = f := rfl
@[simp] theorem State.setFail_trace (f : Bool) (s : State) : (s.setFail f).trace = s.trace := rfl
@[simp] theorem State.setFail_par (f : Bool) (s : State) : (s.setFail f).par = s.par := rfl
@[simp] theorem State.setFail_env (f : Bool) (s : State) : (s.setFail f).env = s.env := rfl
@[simp] theorem State.setFail_inReset (f : Bool) (s : State) : (s.setFail f).inReset = s.inReset := rfl
@[simp] theorem State.setFail_host (f : Bool) (s : State) : (s.setFail f).host = s.host := rfl
@[simp] theorem State.setFail_quiet (f : Bool) (s : State) : (s.setFail f).quiet = s.quiet := rfl
@[simp] theorem State.setFail_rdata (f : Bool) (s : State) : (s.setFail f).rdata = s.rdata := rfl

@[simp] theorem State.resetRegisters_cmd (s : State) : s.resetRegisters.cmd = State.reset.cmd := rfl
@[simp] theorem State.resetRegisters_busy (s : State) : s.resetRegisters.busy = State.reset.busy := rfl
@[simp] theorem State.resetRegisters_done (s : State) : s.resetRegisters.done = State.reset.done := rfl
@[simp] theorem State.resetRegisters_fail (s : State) : s.resetRegisters.fail = State.reset.fail := rfl
@[simp] theorem State.resetRegisters_seqErr (s : State) : s.resetRegisters.seqErr = State.reset.seqErr := rfl
@[simp] theorem State.resetRegisters_illegal (s : State) : s.resetRegisters.illegal = State.reset.illegal := rfl
@[simp] theorem State.resetRegisters_ovr (s : State) : s.resetRegisters.ovr = State.reset.ovr := rfl
@[simp] theorem State.resetRegisters_result (s : State) : s.resetRegisters.result = State.reset.result := rfl
@[simp] theorem State.resetRegisters_debounce (s : State) : s.resetRegisters.debounce = State.reset.debounce := rfl
@[simp] theorem State.resetRegisters_busStat (s : State) : s.resetRegisters.busStat = State.reset.busStat := rfl
@[simp] theorem State.resetRegisters_div (s : State) : s.resetRegisters.div = State.reset.div := rfl
@[simp] theorem State.resetRegisters_attempts (s : State) : s.resetRegisters.attempts = State.reset.attempts := rfl
@[simp] theorem State.resetRegisters_mode (s : State) : s.resetRegisters.mode = State.reset.mode := rfl
@[simp] theorem State.resetRegisters_cur (s : State) : s.resetRegisters.cur = State.reset.cur := rfl
@[simp] theorem State.resetRegisters_todo (s : State) : s.resetRegisters.todo = State.reset.todo := rfl
@[simp] theorem State.resetRegisters_failAcc (s : State) : s.resetRegisters.failAcc = State.reset.failAcc := rfl
@[simp] theorem State.resetRegisters_acc (s : State) : s.resetRegisters.acc = State.reset.acc := rfl
@[simp] theorem State.resetRegisters_s1 (s : State) : s.resetRegisters.s1 = State.reset.s1 := rfl
@[simp] theorem State.resetRegisters_s2 (s : State) : s.resetRegisters.s2 = State.reset.s2 := rfl
@[simp] theorem State.resetRegisters_timer (s : State) : s.resetRegisters.timer = State.reset.timer := rfl
@[simp] theorem State.resetRegisters_sclDrv (s : State) : s.resetRegisters.sclDrv = State.reset.sclDrv := rfl
@[simp] theorem State.resetRegisters_sdaDrv (s : State) : s.resetRegisters.sdaDrv = State.reset.sdaDrv := rfl
@[simp] theorem State.resetRegisters_rx (s : State) : s.resetRegisters.rx = State.reset.rx := rfl
@[simp] theorem State.resetRegisters_stepFail (s : State) : s.resetRegisters.stepFail = State.reset.stepFail := rfl
@[simp] theorem State.resetRegisters_trace (s : State) : s.resetRegisters.trace = s.trace := rfl
@[simp] theorem State.resetRegisters_par (s : State) : s.resetRegisters.par = s.par := rfl
@[simp] theorem State.resetRegisters_env (s : State) : s.resetRegisters.env = s.env := rfl
@[simp] theorem State.resetRegisters_inReset (s : State) : s.resetRegisters.inReset = s.inReset := rfl
@[simp] theorem State.resetRegisters_host (s : State) : s.resetRegisters.host = s.host := rfl
@[simp] theorem State.resetRegisters_quiet (s : State) : s.resetRegisters.quiet = s.quiet := rfl
@[simp] theorem State.resetRegisters_rdata (s : State) : s.resetRegisters.rdata = s.rdata := rfl

@[simp] theorem State.assertReset_cmd (k : Bool) (s : State) : (s.assertReset k).cmd = State.reset.cmd := rfl
@[simp] theorem State.assertReset_busy (k : Bool) (s : State) : (s.assertReset k).busy = State.reset.busy := rfl
@[simp] theorem State.assertReset_done (k : Bool) (s : State) : (s.assertReset k).done = State.reset.done := rfl
@[simp] theorem State.assertReset_fail (k : Bool) (s : State) : (s.assertReset k).fail = State.reset.fail := rfl
@[simp] theorem State.assertReset_seqErr (k : Bool) (s : State) : (s.assertReset k).seqErr = State.reset.seqErr := rfl
@[simp] theorem State.assertReset_illegal (k : Bool) (s : State) : (s.assertReset k).illegal = State.reset.illegal := rfl
@[simp] theorem State.assertReset_ovr (k : Bool) (s : State) : (s.assertReset k).ovr = State.reset.ovr := rfl
@[simp] theorem State.assertReset_result (k : Bool) (s : State) : (s.assertReset k).result = State.reset.result := rfl
@[simp] theorem State.assertReset_debounce (k : Bool) (s : State) : (s.assertReset k).debounce = State.reset.debounce := rfl
@[simp] theorem State.assertReset_busStat (k : Bool) (s : State) : (s.assertReset k).busStat = State.reset.busStat := rfl
@[simp] theorem State.assertReset_div (k : Bool) (s : State) : (s.assertReset k).div = State.reset.div := rfl
@[simp] theorem State.assertReset_attempts (k : Bool) (s : State) : (s.assertReset k).attempts = State.reset.attempts := rfl
@[simp] theorem State.assertReset_mode (k : Bool) (s : State) : (s.assertReset k).mode = State.reset.mode := rfl
@[simp] theorem State.assertReset_cur (k : Bool) (s : State) : (s.assertReset k).cur = State.reset.cur := rfl
@[simp] theorem State.assertReset_todo (k : Bool) (s : State) : (s.assertReset k).todo = State.reset.todo := rfl
@[simp] theorem State.assertReset_failAcc (k : Bool) (s : State) : (s.assertReset k).failAcc = State.reset.failAcc := rfl
@[simp] theorem State.assertReset_acc (k : Bool) (s : State) : (s.assertReset k).acc = State.reset.acc := rfl
@[simp] theorem State.assertReset_s1 (k : Bool) (s : State) : (s.assertReset k).s1 = State.reset.s1 := rfl
@[simp] theorem State.assertReset_s2 (k : Bool) (s : State) : (s.assertReset k).s2 = State.reset.s2 := rfl
@[simp] theorem State.assertReset_timer (k : Bool) (s : State) : (s.assertReset k).timer = State.reset.timer := rfl
@[simp] theorem State.assertReset_sclDrv (k : Bool) (s : State) : (s.assertReset k).sclDrv = State.reset.sclDrv := rfl
@[simp] theorem State.assertReset_sdaDrv (k : Bool) (s : State) : (s.assertReset k).sdaDrv = State.reset.sdaDrv := rfl
@[simp] theorem State.assertReset_rx (k : Bool) (s : State) : (s.assertReset k).rx = State.reset.rx := rfl
@[simp] theorem State.assertReset_stepFail (k : Bool) (s : State) : (s.assertReset k).stepFail = State.reset.stepFail := rfl
@[simp] theorem State.assertReset_trace (k : Bool) (s : State) : (s.assertReset k).trace = s.trace := rfl
@[simp] theorem State.assertReset_par (k : Bool) (s : State) : (s.assertReset k).par = s.par := rfl
@[simp] theorem State.assertReset_env (k : Bool) (s : State) : (s.assertReset k).env =
    if s.cutsTransaction k then { s.env with device := s.env.device.cut } else s.env := rfl
@[simp] theorem State.assertReset_inReset (k : Bool) (s : State) : (s.assertReset k).inReset = true := rfl
@[simp] theorem State.assertReset_host (k : Bool) (s : State) : (s.assertReset k).host = s.host := rfl
@[simp] theorem State.assertReset_quiet (k : Bool) (s : State) : (s.assertReset k).quiet = s.quiet := rfl
@[simp] theorem State.assertReset_rdata (k : Bool) (s : State) : (s.assertReset k).rdata = s.rdata := rfl

end Sys2Proof.Machine
end

