-- ==== Sys2Proof/Laws/Ops.lean ====
section
/-! SUPPORT. What the shared operations can do: one lemma for each bus phase, the fields no sequencer step touches, and
the induction along a burst of steps. -/

namespace Sys2Proof.Machine

/-! ## Bus phases -/

/-- start condition granted: the bus is owned and the address phase follows (R101). -/
theorem opStart_ok {s : State} {a : BitVec 7} {d : Dir} (h : s.env.startAnswer = .ok) :
    s.opStart a d = (({ s with env := s.env.afterStart, todo := .address a d :: s.todo } : State).setBus
      (if s.mode = .idle then .startSent else .repStartSent) .owned).record
      (if s.mode = .idle then .s else .sr) := by
  unfold State.opStart
  simp only [h]
  split <;> rfl

/-- start condition refused: bus released, start_seq busy, no address phase (R101). -/
theorem opStart_refused {s : State} {a : BitVec 7} {d : Dir} (h : s.env.startAnswer ≠ .ok) :
    ∃ b : BusStat, (b = .busError ∨ b = .arbLost) ∧
      s.opStart a d = ((({ s with env := s.env.afterStart } : State).setBus b .idle).setFail true).record
        (.sfail (statCode b)) := by
  unfold State.opStart
  cases hs : s.env.startAnswer with
  | ok => exact absurd hs h
  | busError => exact ⟨.busError, .inl rfl, rfl⟩
  | arbLost => exact ⟨.arbLost, .inr rfl, rfl⟩

/-- What an address phase does, by the environment's answer (R101). -/
theorem opAddress_eq (s : State) (a : BitVec 7) (d : Dir) :
    s.opAddress a d =
      let r := s.env.addressAnswer s.par (addressByte a d)
      let u := ({ s with env := s.env.afterAddress (addressByte a d) } : State).record (.a (addressByte a d) r)
      match r with
      | .ack => (u.setBus (ackStat d) (ackMode d)).setFail false
      | .nack => (u.setBus (nackStat d) .owned).setFail true
      | .arbLost => (u.setBus .arbLost .idle).setFail true := rfl

theorem opStop_idle {s : State} (h : s.mode = .idle) : s.opStop = s := if_pos h

theorem opStop_owned {s : State} (h : s.mode ≠ .idle) : s.opStop = (s.setBus .noInfo .idle).record .p := if_neg h

/-- write_seq in MT, by the environment's answer (R116). -/
theorem opTx_mt {s : State} (b : Byte) (h : s.mode = .mt) :
    s.opTx b =
      let r := s.env.txAnswer
      let u := ({ s with env := s.env.afterTx b } : State).record (.t b r)
      match r with
      | .ack => (u.setBus .txAck .mt).setFail false
      | .nack => (u.setBus .txNack .mt).setFail true
      | .arbLost => (u.setBus .arbLost .idle).setFail true := if_pos h

/-- write_seq outside MT is skipped (R116). -/
theorem opTx_skipped {s : State} (b : Byte) (h : s.mode ≠ .mt) : s.opTx b = s.setFail true := if_neg h

/-- read_seq in MR (R117). -/
theorem opRx_mr {s : State} (k : Bool) (h : s.mode = .mr) :
    s.opRx k = ((({ s with env := s.env.afterRx s.par, rx := s.env.rxAnswer s.par } : State).record
      (.r (s.env.rxAnswer s.par) k)).setBus (if k then .rxAck else .rxNack) (if k then .mr else .owned)).setFail
      false := by
  unfold State.opRx
  rw [if_pos h]
  cases k <;> rfl

/-- read_seq outside MR is skipped and yields READ_FAIL_VALUE (R117). -/
theorem opRx_skipped {s : State} (k : Bool) (h : s.mode ≠ .mr) :
    s.opRx k = ({ s with rx := readFailValue } : State).setFail true := if_neg h

/-! ## Fields that no sequencer step touches -/

/-- No step of the sequencer touches what belongs to the host, the word being executed, OVR, DIV, the parameters or the
reset input. -/
theorem doOp_fixed (op : SeqOp) (s : State) :
    (s.doOp op).cmd = s.cmd ∧ (s.doOp op).cur = s.cur ∧ (s.doOp op).ovr = s.ovr ∧ (s.doOp op).div = s.div ∧
    (s.doOp op).par = s.par ∧ (s.doOp op).inReset = s.inReset ∧ (s.doOp op).host = s.host ∧
    (s.doOp op).quiet = s.quiet ∧ (s.doOp op).rdata = s.rdata := by
  cases op with
  | finish r => cases r <;> simp [State.doOp, State.opFinish]
  | retryUnlessOk a d => simp only [State.doOp, State.opRetryUnlessOk]; split <;> simp
  | start a d => simp only [State.doOp, State.opStart]; split <;> (try split) <;> simp
  | address a d => simp only [State.doOp, opAddress_eq]; split <;> simp
  | stop => simp only [State.doOp, State.opStop]; split <;> simp
  | tx b => simp only [State.doOp, State.opTx]; split <;> (try split) <;> simp
  | rx k => simp only [State.doOp, State.opRx]; split <;> (try split) <;> simp
  | waitTick => simp only [State.doOp, State.opWaitTick]; split <;> simp
  | _ => simp [State.doOp, State.opAttempt]

@[simp] theorem doOp_cmd (op : SeqOp) (s : State) : (s.doOp op).cmd = s.cmd := (doOp_fixed op s).1
@[simp] theorem doOp_cur (op : SeqOp) (s : State) : (s.doOp op).cur = s.cur := (doOp_fixed op s).2.1
@[simp] theorem doOp_ovr (op : SeqOp) (s : State) : (s.doOp op).ovr = s.ovr := (doOp_fixed op s).2.2.1
@[simp] theorem doOp_div (op : SeqOp) (s : State) : (s.doOp op).div = s.div := (doOp_fixed op s).2.2.2.1
@[simp] theorem doOp_par (op : SeqOp) (s : State) : (s.doOp op).par = s.par := (doOp_fixed op s).2.2.2.2.1
@[simp] theorem doOp_inReset (op : SeqOp) (s : State) : (s.doOp op).inReset = s.inReset := (doOp_fixed op s).2.2.2.2.2.1
@[simp] theorem doOp_host (op : SeqOp) (s : State) : (s.doOp op).host = s.host := (doOp_fixed op s).2.2.2.2.2.2.1
@[simp] theorem doOp_quiet (op : SeqOp) (s : State) : (s.doOp op).quiet = s.quiet := (doOp_fixed op s).2.2.2.2.2.2.2.1
@[simp] theorem doOp_rdata (op : SeqOp) (s : State) : (s.doOp op).rdata = s.rdata := (doOp_fixed op s).2.2.2.2.2.2.2.2

/-- Only the last step of SCAN_EDGE stores DEBOUNCE (R33). -/
theorem doOp_debounce {op : SeqOp} (h : op ≠ .finish .edge) (s : State) : (s.doOp op).debounce = s.debounce := by
  cases op with
  | finish r => cases r <;> first | rfl | exact absurd rfl h
  | retryUnlessOk a d => simp only [State.doOp, State.opRetryUnlessOk]; split <;> rfl
  | start a d => simp only [State.doOp, State.opStart]; split <;> (try split) <;> rfl
  | address a d => simp only [State.doOp, opAddress_eq]; split <;> rfl
  | stop => simp only [State.doOp, State.opStop]; split <;> rfl
  | tx b => simp only [State.doOp, State.opTx]; split <;> (try split) <;> rfl
  | rx k => simp only [State.doOp, State.opRx]; split <;> (try split) <;> rfl
  | waitTick => simp only [State.doOp, State.opWaitTick]; split <;> rfl
  | _ => rfl

/-- Every step but the one that completes a command leaves what is ahead of the sequencer in place: it only adds steps
before it, none of which completes the command. -/
theorem doOp_todo {op : SeqOp} (h : op.isFinish = false) (s : State) :
    ∃ pre : List SeqOp, (∀ o ∈ pre, o.isFinish = false) ∧ (s.doOp op).todo = pre ++ s.todo := by
  have same : ∀ l : List SeqOp, l = s.todo →
      ∃ pre : List SeqOp, (∀ o ∈ pre, o.isFinish = false) ∧ l = pre ++ s.todo := fun l hl => ⟨[], by simp, hl⟩
  cases op with
  | finish r => cases h
  | attempt a d => exact ⟨[.start a d, .retryUnlessOk a d], by simp [SeqOp.isFinish], rfl⟩
  | retryUnlessOk a d =>
    simp only [State.doOp, State.opRetryUnlessOk]
    split
    · exact ⟨[.stop, .attempt a d], by simp [SeqOp.isFinish], rfl⟩
    · exact same _ rfl
  | start a d =>
    simp only [State.doOp, State.opStart]
    split
    · refine ⟨[.address a d], by simp [SeqOp.isFinish], ?_⟩
      split <;> rfl
    all_goals exact same _ rfl
  | address a d => simp only [State.doOp, opAddress_eq]; split <;> exact same _ rfl
  | stop => simp only [State.doOp, State.opStop]; split <;> exact same _ rfl
  | tx b => simp only [State.doOp, State.opTx]; split <;> (try split) <;> exact same _ rfl
  | rx k => simp only [State.doOp, State.opRx]; split <;> (try split) <;> exact same _ rfl
  | waitTick =>
    simp only [State.doOp, State.opWaitTick]
    split
    · exact ⟨[.waitTick], by simp [SeqOp.isFinish], rfl⟩
    all_goals exact same _ rfl
  | _ => exact same _ rfl

/-- Only the step that completes a command reports anything (R67, R221). -/
theorem doOp_reports {op : SeqOp} (h : op.isFinish = false) (s : State) :
    (s.doOp op).busy = s.busy ∧ (s.doOp op).done = s.done ∧ (s.doOp op).result = s.result ∧
    (s.doOp op).fail = s.fail ∧ (s.doOp op).seqErr = s.seqErr ∧ (s.doOp op).illegal = s.illegal ∧
    (s.doOp op).debounce = s.debounce := by
  cases op with
  | finish r => cases h
  | retryUnlessOk a d => simp only [State.doOp, State.opRetryUnlessOk]; split <;> simp
  | start a d => simp only [State.doOp, State.opStart]; split <;> (try split) <;> simp
  | address a d => simp only [State.doOp, opAddress_eq]; split <;> simp
  | stop => simp only [State.doOp, State.opStop]; split <;> simp
  | tx b => simp only [State.doOp, State.opTx]; split <;> (try split) <;> simp
  | rx k => simp only [State.doOp, State.opRx]; split <;> (try split) <;> simp
  | waitTick => simp only [State.doOp, State.opWaitTick]; split <;> simp
  | _ => simp [State.doOp, State.opAttempt]

/-- A command that has reported nothing since `u`: what is compared is the word, BUSY, DONE, RESULT, the error bits and
DEBOUNCE. -/
def SameReports (u s : State) : Prop :=
  s.par = u.par ∧ s.cur = u.cur ∧ s.busy = u.busy ∧ s.done = u.done ∧ s.result = u.result ∧ s.fail = u.fail ∧
  s.seqErr = u.seqErr ∧ s.illegal = u.illegal ∧ s.debounce = u.debounce

/-- Every step but a completion reports nothing. -/
theorem sameReports_step {u : State} {op : SeqOp} (hop : op.isFinish = false) {s : State} (h : SameReports u s) :
    SameReports u (s.doOp op) := by
  obtain ⟨h1, h2, h3, h4, h5, h6, h7⟩ := doOp_reports hop s
  simpa only [SameReports, h1, h2, h3, h4, h5, h6, h7, doOp_par, doOp_cur] using h

/-- No step of the sequencer takes back a failure that was noted (R184). -/
theorem doOp_failAcc {s : State} (h : s.failAcc = true) (op : SeqOp) : (s.doOp op).failAcc = true := by
  cases op with
  | finish r => cases r <;> exact h
  | noteFail => simp [State.doOp, h]
  | retryUnlessOk a d => simp only [State.doOp, State.opRetryUnlessOk]; split <;> exact h
  | start a d => simp only [State.doOp, State.opStart]; split <;> (try split) <;> exact h
  | address a d => simp only [State.doOp, opAddress_eq]; split <;> exact h
  | stop => simp only [State.doOp, State.opStop]; split <;> exact h
  | tx b => simp only [State.doOp, State.opTx]; split <;> (try split) <;> exact h
  | rx k => simp only [State.doOp, State.opRx]; split <;> (try split) <;> exact h
  | waitTick => simp only [State.doOp, State.opWaitTick]; split <;> exact h
  | _ => exact h

/-! ## Bursts -/

@[simp] theorem runOps_zero (s : State) : State.runOps 0 s = s := rfl

theorem runOps_idle {s : State} (h : s.todo = []) (n : Nat) : State.runOps n s = s := by
  cases n with
  | zero => rfl
  | succ n => simp [State.runOps, h]

theorem runOps_cons {s : State} {op : SeqOp} {rest : List SeqOp} (h : s.todo = op :: rest) (n : Nat) :
    State.runOps (n + 1) s = State.runOps n (({ s with todo := rest } : State).doOp op) := by
  simp [State.runOps, h]

/-- Running on: `m + n` steps are `m` steps and then `n`. -/
theorem runOps_add (m n : Nat) (s : State) : State.runOps (m + n) s = State.runOps n (State.runOps m s) := by
  induction m generalizing s with
  | zero => simp
  | succ m ih =>
    cases h : s.todo with
    | nil => rw [runOps_idle h, runOps_idle h, runOps_idle h]
    | cons op rest => rw [Nat.add_right_comm, runOps_cons h, runOps_cons h, ih]

/-- A property that every step keeps holds after any burst. -/
theorem runOps_keeps (I : State → Prop)
    (hstep : ∀ (op : SeqOp) (rest : List SeqOp) (s : State), I s → s.todo = op :: rest →
      I (({ s with todo := rest } : State).doOp op))
    (n : Nat) (s : State) (h : I s) : I (State.runOps n s) := by
  induction n generalizing s with
  | zero => exact h
  | succ n ih =>
    cases ht : s.todo with
    | nil => rwa [runOps_idle ht]
    | cons op rest => rw [runOps_cons ht]; exact ih _ (hstep op rest s h ht)

/-- `command` answers one of three things: the refusal, the first burst of the command, or the next burst of the command
that is running. -/
theorem command_cases (b : Bool) (v : Mask) (steps : List SeqOp) (s : State) :
    (s.todo = [] ∧ b = false ∧ s.command b v steps = s.raiseSeqErr v) ∨
    (s.todo = [] ∧ b = true ∧ s.command b v steps = ({ s with todo := steps } : State).burst s.quiet) ∨
    (s.todo ≠ [] ∧ s.command b v steps = s.burst (max s.quiet 1)) := by
  unfold State.command
  cases h : s.todo with
  | nil => cases b <;> simp
  | cons op rest => simp

/-- A property that the refusal and every step keep, and that does not see STEP and the quiet budget, is kept by a
command. -/
theorem command_keeps (I : State → Prop)
    (hstep : ∀ (op : SeqOp) (s : State), I s → I (s.doOp op))
    (htodo : ∀ (l : List SeqOp) (s : State), I s → I { s with todo := l })
    (hquiet : ∀ (n : Nat) (s : State), I s → I { s with quiet := n })
    (hraise : ∀ (v : Mask) (s : State), I s → I (s.raiseSeqErr v))
    (b : Bool) (v : Mask) (steps : List SeqOp) (s : State) (h : I s) : I (s.command b v steps) := by
  have hburst : ∀ (n : Nat) (u : State), I u → I (u.burst n) := fun n u hu =>
    runOps_keeps I (fun op rest w hw _ => hstep op _ (htodo rest w hw)) _ _ (hquiet 0 u hu)
  rcases command_cases b v steps s with ⟨-, -, h'⟩ | ⟨-, -, h'⟩ | ⟨-, h'⟩ <;> rw [h']
  · exact hraise v s h
  · exact hburst _ _ (htodo steps s h)
  · exact hburst _ s h

/-! ## The commands in one table -/

/-- The bus modes in which a command is not refused (R224). -/
def allowedIn (m : BusMode) : Instr → Bool
  | .start _ _ => true
  | .repstart _ _ => true
  | .startRetry _ _ => true
  | .writeByte _ => decide (m = .mt)
  | .readByte _ => decide (m = .mr)
  | .stop => true
  | .writeReg _ _ => decide (m = .idle)
  | .readReg _ => decide (m = .idle)
  | .scanRow _ => decide (m = .idle)
  | .scanKeypad => decide (m = .idle)
  | .scanEdge => decide (m = .idle)
  | .translate _ => true

/-- RESULT of a refused command (R224). -/
def refusedWord : Instr → Mask
  | .writeByte _ => 0x0001#16
  | .readByte _ => readFailValue.zeroExtend 16
  | .readReg _ => 0x00FF#16
  | .scanRow _ => 0x000F#16
  | .scanKeypad => 0xFFFF#16
  | .scanEdge => 0xFFFF#16
  | _ => 0#16

/-- The steps of a command. -/
def stepsOf (p : Params) : Instr → List SeqOp
  | .start a d => [.start a d, .finish .outcome]
  | .repstart a d => [.start a d, .finish .outcome]
  | .startRetry a d => retrySeq a d ++ [.finish (.value 0#16)]
  | .writeByte b => [.tx b, .finish .outcome]
  | .readByte k => [.rx k, .finish .byte]
  | .stop => [.stop, .finish (.value 0#16)]
  | .writeReg r b => writeRegSeq p r b ++ [.finish .access]
  | .readReg r => readRegSeq p r ++ [.finish .accessByte]
  | .scanRow y => scanRowSeq p y ++ [.finish .row]
  | .scanKeypad => scanKeypadSeq p ++ [.finish .mask]
  | .scanEdge => scanEdgeSeq p ++ [.finish .edge]
  | .translate m => [.finish (.value ((translateCode p m).zeroExtend 16))]

/-- Every meaning is `command` with its row of the table. -/
theorem exec_eq (i : Instr) (s : State) :
    exec i s = .next (s.command (allowedIn s.mode i) (refusedWord i) (stepsOf s.par i)) := by
  cases i <;> rfl

end Sys2Proof.Machine
end

