-- ==== Sys2Proof/Laws/Run.lean ====
section
/-! SUPPORT. What a phase sequence does as a whole: one equation for each sequence of 40_bus_primitives.md section 1 and
41_register_access.md section 1, for the case in which the bus is granted, and the retry loop by induction. -/

namespace Sys2Proof.Machine

/-! ## Where an event leaves the lines -/

@[simp] theorem linesAfter_s (l : LineLevels) : linesAfter .s l = (.low, .low) := rfl
@[simp] theorem linesAfter_sr (l : LineLevels) : linesAfter .sr l = (.low, .low) := rfl
@[simp] theorem linesAfter_sfail (c : Byte) (l : LineLevels) : linesAfter (.sfail c) l = (.released, .released) := rfl
@[simp] theorem linesAfter_a_ack (b : Byte) (l : LineLevels) : linesAfter (.a b .ack) l = (.low, .released) := rfl
@[simp] theorem linesAfter_a_nack (b : Byte) (l : LineLevels) : linesAfter (.a b .nack) l = (.low, .released) := rfl
@[simp] theorem linesAfter_a_lost (b : Byte) (l : LineLevels) :
    linesAfter (.a b .arbLost) l = (.released, .released) := rfl
@[simp] theorem linesAfter_t_ack (b : Byte) (l : LineLevels) : linesAfter (.t b .ack) l = (.low, .released) := rfl
@[simp] theorem linesAfter_t_nack (b : Byte) (l : LineLevels) : linesAfter (.t b .nack) l = (.low, .released) := rfl
@[simp] theorem linesAfter_t_lost (b : Byte) (l : LineLevels) :
    linesAfter (.t b .arbLost) l = (.released, .released) := rfl
@[simp] theorem linesAfter_r (b : Byte) (k : Bool) (l : LineLevels) :
    linesAfter (.r b k) l = (.low, driveOf (!k)) := rfl
@[simp] theorem linesAfter_p (l : LineLevels) : linesAfter .p l = (.released, .released) := rfl
@[simp] theorem linesAfter_w (n : Nat) (l : LineLevels) : linesAfter (.w n) l = l := rfl

/-! ## start_seq -/

theorem attemptOk_iff (p : Params) (a : BitVec 7) (d : Dir) (e : Env) :
    attemptOk p a d e = true ↔
      e.startAnswer = .ok ∧ e.afterStart.addressAnswer p (addressByte a d) = .ack := by
  simp [attemptOk]

/-- start_seq when it is ok (R101). -/
theorem run_start_ok {s : State} {a : BitVec 7} {d : Dir} {rest : List SeqOp}
    (ht : s.todo = .start a d :: rest) (h : attemptOk s.par a d s.env = true) :
    State.runOps 2 s =
      { s with
        env := envAfterAttempt a d s.env
        trace := s.trace ++ [if s.mode = .idle then .s else .sr, .a (addressByte a d) .ack]
        mode := ackMode d, busStat := ackStat d, stepFail := false
        sclDrv := .low, sdaDrv := .released, todo := rest } := by
  obtain ⟨h1, h2⟩ := (attemptOk_iff ..).mp h
  have e : envAfterAttempt a d s.env = s.env.afterStart.afterAddress (addressByte a d) := if_pos h1
  rw [runOps_cons ht, e]
  simp only [State.doOp]
  rw [opStart_ok (s := { s with todo := rest }) h1]
  rw [runOps_cons (s := State.record _ _) (op := .address a d) (rest := rest) rfl]
  simp only [runOps_zero, State.doOp, opAddress_eq]
  by_cases hm : s.mode = .idle <;>
    simp [State.record, State.setBus, State.setFail, hm, h2, List.append_assoc]

/-- What start_seq leaves when it is busy (R101): the status code and the bus mode it can have, and what it records. -/
def BusyStart (s t : State) (a : BitVec 7) (d : Dir) (rest : List SeqOp) : Prop :=
  ∃ (es : List Event) (b : BusStat) (m : BusMode) (c x : Drive),
    t = { s with
      env := envAfterAttempt a d s.env, trace := s.trace ++ es, mode := m, busStat := b, stepFail := true
      sclDrv := c, sdaDrv := x, todo := rest } ∧
    ((m = .owned ∧ b = nackStat d) ∨ (m = .idle ∧ (b = .busError ∨ b = .arbLost)))

/-- start_seq when it is busy: one or two steps (R101). -/
theorem run_start_busy {s : State} {a : BitVec 7} {d : Dir} {rest : List SeqOp}
    (ht : s.todo = .start a d :: rest) (h : attemptOk s.par a d s.env = false) :
    ∃ n, (n = 1 ∨ n = 2) ∧ BusyStart s (State.runOps n s) a d rest := by
  by_cases h1 : s.env.startAnswer = .ok
  · have e : envAfterAttempt a d s.env = s.env.afterStart.afterAddress (addressByte a d) := if_pos h1
    refine ⟨2, .inr rfl, ?_⟩
    rw [runOps_cons ht]
    simp only [State.doOp]
    rw [opStart_ok (s := { s with todo := rest }) h1]
    rw [runOps_cons (s := State.record _ _) (op := .address a d) (rest := rest) rfl]
    simp only [runOps_zero, State.doOp, opAddress_eq]
    cases h2 : s.env.afterStart.addressAnswer s.par (addressByte a d) with
    | ack => exact absurd ((attemptOk_iff ..).mpr ⟨h1, h2⟩) (by simp [h])
    | nack =>
      refine ⟨[if s.mode = .idle then .s else .sr, .a (addressByte a d) .nack], nackStat d, .owned, .low, .released,
        ?_, .inl ⟨rfl, rfl⟩⟩
      rw [e]
      by_cases hm : s.mode = .idle <;> simp [State.record, State.setBus, State.setFail, hm, h2]
    | arbLost =>
      refine ⟨[if s.mode = .idle then .s else .sr, .a (addressByte a d) .arbLost], .arbLost, .idle, .released,
        .released, ?_, .inr ⟨rfl, .inr rfl⟩⟩
      rw [e]
      by_cases hm : s.mode = .idle <;> simp [State.record, State.setBus, State.setFail, hm, h2]
  · have e : envAfterAttempt a d s.env = s.env.afterStart := if_neg h1
    refine ⟨1, .inl rfl, ?_⟩
    rw [runOps_cons ht]
    simp only [State.doOp, runOps_zero]
    obtain ⟨b, hb, hs⟩ := opStart_refused (s := { s with todo := rest }) (a := a) (d := d) h1
    rw [hs]
    refine ⟨[.sfail (statCode b)], b, .idle, .released, .released, ?_, .inr ⟨rfl, hb⟩⟩
    rw [e]
    simp [State.record, State.setBus, State.setFail]

/-! ## retry_seq -/

/-- The saturating count of attempts after `k` more (R37). -/
theorem nextAttempt_toNat (n : BitVec 16) : (nextAttempt n).toNat = min (n.toNat + 1) 0xFFFF := by
  unfold nextAttempt
  have hn := n.isLt
  split
  · subst n; rfl
  · rename_i h
    have h' : n.toNat ≠ 0xFFFF := fun h' => h (BitVec.eq_of_toNat_eq h')
    rw [BitVec.toNat_add]
    simp only [BitVec.toNat_ofNat]
    omega

/-- One attempt that is granted: four steps (R103). -/
theorem run_attempt_ok {s : State} {a : BitVec 7} {d : Dir} {rest : List SeqOp}
    (ht : s.todo = .attempt a d :: rest) (h : attemptOk s.par a d s.env = true) :
    State.runOps 4 s =
      { s with
        env := envAfterAttempt a d s.env
        trace := s.trace ++ [if s.mode = .idle then .s else .sr, .a (addressByte a d) .ack]
        mode := ackMode d, busStat := ackStat d, stepFail := false, attempts := nextAttempt s.attempts
        sclDrv := .low, sdaDrv := .released, todo := rest } := by
  rw [show (4 : Nat) = 1 + (2 + 1) from rfl, runOps_add 1, runOps_cons ht, runOps_zero, runOps_add 2]
  have h2 := run_start_ok (s := ({ s with todo := rest } : State).doOp (.attempt a d)) (a := a) (d := d)
    (rest := .retryUnlessOk a d :: rest) rfl h
  rw [h2, runOps_cons (op := .retryUnlessOk a d) (rest := rest) rfl]
  simp [State.doOp, State.opAttempt, State.opRetryUnlessOk]
  rfl

/-- One attempt that is refused, with the stop after it: at most five steps, and the next attempt is ahead (R103). -/
theorem run_attempt_busy {s : State} {a : BitVec 7} {d : Dir} {rest : List SeqOp}
    (ht : s.todo = .attempt a d :: rest) (h : attemptOk s.par a d s.env = false) :
    ∃ (n : Nat) (es : List Event) (b : BusStat) (c x : Drive),
      (n = 4 ∨ n = 5) ∧ State.runOps n s =
        { s with
          env := envAfterAttempt a d s.env, trace := s.trace ++ es, mode := .idle, busStat := b, stepFail := true
          attempts := nextAttempt s.attempts, sclDrv := c, sdaDrv := x, todo := .attempt a d :: rest } := by
  obtain ⟨n, hn, es, b, m, c, x, hrun, hm⟩ :=
    run_start_busy (s := ({ s with todo := rest } : State).doOp (.attempt a d)) (a := a) (d := d)
      (rest := .retryUnlessOk a d :: rest) rfl h
  have hstep : State.runOps (1 + n + 2) s = State.runOps 2 (State.runOps n
      (({ s with todo := rest } : State).doOp (.attempt a d))) := by
    rw [runOps_add (1 + n) 2, runOps_add 1 n, runOps_cons (n := 0) ht, runOps_zero]
  rcases hm with ⟨rfl, -⟩ | ⟨rfl, -⟩
  · refine ⟨1 + n + 2, es ++ [.p], .noInfo, .released, .released, by omega, ?_⟩
    rw [hstep, hrun, runOps_cons (op := .retryUnlessOk a d) (rest := rest) rfl]
    simp [State.doOp, State.opAttempt, State.opRetryUnlessOk, State.opStop, State.runOps, State.record, State.setBus]
  · refine ⟨1 + n + 2, es, b, c, x, by omega, ?_⟩
    rw [hstep, hrun, runOps_cons (op := .retryUnlessOk a d) (rest := rest) rfl]
    simp [State.doOp, State.opAttempt, State.opRetryUnlessOk, State.opStop, State.runOps]

/-- The retry loop, granted after `k` refused attempts (R103). -/
theorem run_retry {a : BitVec 7} {d : Dir} {rest : List SeqOp} (k : Nat) :
    ∀ s : State, s.todo = .attempt a d :: rest → grantsAfter s.par a d k s.env = true →
      ∃ n, n ≤ 5 * k + 4 ∧ ∃ (es : List Event) (c : BitVec 16),
        c.toNat = min (s.attempts.toNat + k + 1) 0xFFFF ∧
        State.runOps n s =
          { s with
            env := envWhenGranted a d k s.env, trace := s.trace ++ es, mode := ackMode d, busStat := ackStat d
            stepFail := false, attempts := c, sclDrv := .low, sdaDrv := .released, todo := rest } := by
  induction k with
  | zero =>
    intro s ht h
    exact ⟨4, by omega, _, _, by rw [nextAttempt_toNat], run_attempt_ok ht h⟩
  | succ k ih =>
    intro s ht h
    simp only [grantsAfter, Bool.and_eq_true, Bool.not_eq_true'] at h
    obtain ⟨n, es, b, c0, x0, hn, hrun⟩ := run_attempt_busy ht h.1
    obtain ⟨n', hn', es', c, hc, hrun'⟩ := ih (State.runOps n s) (by rw [hrun]) (by rw [hrun]; exact h.2)
    refine ⟨n + n', by omega, es ++ es', c, ?_, ?_⟩
    · rw [hc, hrun]
      simp only [nextAttempt_toNat]
      omega
    · rw [runOps_add, hrun']
      generalize State.runOps n s = u at hrun
      subst hrun
      simp [envWhenGranted]

/-! ## Reaching a state within a number of steps -/

/-- The sequencer gets from `s` to `t` in at most `n` steps. -/
def Reaches (n : Nat) (s t : State) : Prop := ∃ m, m ≤ n ∧ State.runOps m s = t

theorem reaches_of_run {n : Nat} {s t : State} (h : State.runOps n s = t) : Reaches n s t := ⟨n, Nat.le_refl n, h⟩

theorem Reaches.trans {m n : Nat} {s t u : State} (h1 : Reaches m s t) (h2 : Reaches n t u) : Reaches (m + n) s u := by
  obtain ⟨a, ha, h1⟩ := h1
  obtain ⟨b, hb, h2⟩ := h2
  exact ⟨a + b, by omega, by rw [runOps_add, h1, h2]⟩

theorem Reaches.mono {m n : Nat} {s t : State} (h : Reaches m s t) (hmn : m ≤ n) : Reaches n s t := by
  obtain ⟨a, ha, h⟩ := h
  exact ⟨a, by omega, h⟩

/-- A completed command stays completed: with enough steps the burst ends there. -/
theorem Reaches.run {m n : Nat} {s t : State} (h : Reaches m s t) (ht : t.todo = []) (hmn : m ≤ n) :
    State.runOps n s = t := by
  obtain ⟨a, ha, h⟩ := h
  obtain ⟨b, rfl⟩ := Nat.exists_eq_add_of_le (show a ≤ n by omega)
  rw [runOps_add, h, runOps_idle ht]

/-- One step. -/
theorem reaches_step {s t : State} {op : SeqOp} {rest : List SeqOp} (h : s.todo = op :: rest)
    (ht : ({ s with todo := rest } : State).doOp op = t) : Reaches 1 s t :=
  reaches_of_run (by rw [runOps_cons (n := 0) h, runOps_zero, ht])

/-- A command that begins and runs to its end in one burst. -/
theorem command_completes {steps : List SeqOp} {s t : State} {v : Mask} {n : Nat} (ht : s.todo = [])
    (hrun : Reaches n { s with todo := steps, quiet := 0 } t) (hdone : t.todo = []) (hq : n ≤ s.quiet) :
    s.command true v steps = t := by
  have e : s.command true v steps = ({ s with todo := steps } : State).burst s.quiet := by
    simp [State.command, ht]
  rw [e]
  exact hrun.run hdone hq

/-! ## write_seq and read_seq with the note of their failure -/

/-- The bus mode after a byte sent in MT (R116). -/
def txMode : AckAnswer → BusMode
  | .arbLost => .idle
  | _ => .mt

/-- The status code after a byte sent in MT (R116). -/
def txStat : AckAnswer → BusStat
  | .ack => .txAck
  | .nack => .txNack
  | .arbLost => .arbLost

/-- SCL after a byte sent (R136). -/
def txScl : AckAnswer → Drive
  | .arbLost => .released
  | _ => .low

/-- write_seq in MT as one update (R116). -/
theorem doOp_tx {s : State} (b : Byte) (h : s.mode = .mt) :
    s.doOp (.tx b) =
      { s with
        env := s.env.afterTx b, trace := s.trace ++ [.t b s.env.txAnswer], mode := txMode s.env.txAnswer
        busStat := txStat s.env.txAnswer, stepFail := decide (s.env.txAnswer ≠ .ack)
        sclDrv := txScl s.env.txAnswer, sdaDrv := .released } := by
  simp only [State.doOp, opTx_mt b h]
  cases s.env.txAnswer <;> simp [State.record, State.setBus, State.setFail, txMode, txStat, txScl]

/-- write_seq and the note of its failure, in MT. -/
theorem reaches_tx_note {s : State} {b : Byte} {rest : List SeqOp} (ht : s.todo = .tx b :: .noteFail :: rest)
    (h : s.mode = .mt) :
    Reaches 2 s
      { s with
        env := s.env.afterTx b, trace := s.trace ++ [.t b s.env.txAnswer], mode := txMode s.env.txAnswer
        busStat := txStat s.env.txAnswer, stepFail := decide (s.env.txAnswer ≠ .ack)
        failAcc := s.failAcc || decide (s.env.txAnswer ≠ .ack)
        sclDrv := txScl s.env.txAnswer, sdaDrv := .released, todo := rest } :=
  (reaches_step ht (doOp_tx b h)).trans (reaches_step rfl rfl)

/-- write_seq outside MT: skipped, and noted as a failure (R151). -/
theorem reaches_tx_skipped {s : State} {b : Byte} {rest : List SeqOp} (ht : s.todo = .tx b :: .noteFail :: rest)
    (h : s.mode ≠ .mt) :
    Reaches 2 s { s with stepFail := true, failAcc := true, todo := rest } := by
  refine (reaches_step (t := { s with stepFail := true, todo := .noteFail :: rest }) ht ?_).trans
    (reaches_step rfl ?_)
  · simp [State.doOp, State.opTx, h, State.setFail]
  · simp [State.doOp]

/-- read_seq in MR with NACK, and its note: no failure, and the bus is OWNED (R117). -/
theorem reaches_rx_note {s : State} {rest : List SeqOp} (ht : s.todo = .rx false :: .noteFail :: rest)
    (h : s.mode = .mr) :
    Reaches 2 s
      { s with
        env := s.env.afterRx s.par, rx := s.env.rxAnswer s.par
        trace := s.trace ++ [.r (s.env.rxAnswer s.par) false], mode := .owned, busStat := .rxNack
        stepFail := false, sclDrv := .low, sdaDrv := .released, todo := rest } := by
  refine (reaches_step (t := { s with
      env := s.env.afterRx s.par, rx := s.env.rxAnswer s.par
      trace := s.trace ++ [.r (s.env.rxAnswer s.par) false], mode := .owned, busStat := .rxNack
      stepFail := false, sclDrv := .low, sdaDrv := .released, todo := .noteFail :: rest }) ht ?_).trans
    (reaches_step rfl ?_)
  · simp [State.doOp, State.opRx, h, State.record, State.setBus, State.setFail, driveOf]
  · simp [State.doOp]

/-- read_seq outside MR: skipped, `READ_FAIL_VALUE`, and noted as a failure (R151, R117). -/
theorem reaches_rx_skipped {s : State} {rest : List SeqOp} (ht : s.todo = .rx false :: .noteFail :: rest)
    (h : s.mode ≠ .mr) :
    Reaches 2 s { s with rx := readFailValue, stepFail := true, failAcc := true, todo := rest } := by
  refine (reaches_step (t := { s with rx := readFailValue, stepFail := true, todo := .noteFail :: rest }) ht ?_).trans
    (reaches_step rfl ?_)
  · simp [State.doOp, State.opRx, h, State.setFail]
  · simp [State.doOp]

/-- stop_seq on an owned bus (R102). -/
theorem reaches_stop {s : State} {rest : List SeqOp} (ht : s.todo = .stop :: rest) (h : s.mode ≠ .idle) :
    Reaches 1 s
      { s with
        trace := s.trace ++ [.p], mode := .idle, busStat := .noInfo, sclDrv := .released, sdaDrv := .released
        todo := rest } :=
  reaches_step ht (by simp [State.doOp, State.opStop, h, State.record, State.setBus])

/-- stop_seq on an IDLE bus: nothing (R102). -/
theorem reaches_stop_idle {s : State} {rest : List SeqOp} (ht : s.todo = .stop :: rest) (h : s.mode = .idle) :
    Reaches 1 s { s with todo := rest } :=
  reaches_step ht (by simp [State.doOp, State.opStop, h])

/-- start_seq when it is ok, and the note: no failure (R155). -/
theorem reaches_start_note {s : State} {a : BitVec 7} {d : Dir} {rest : List SeqOp}
    (ht : s.todo = .start a d :: .noteFail :: rest) (h : attemptOk s.par a d s.env = true) :
    Reaches 3 s
      { s with
        env := envAfterAttempt a d s.env
        trace := s.trace ++ [if s.mode = .idle then .s else .sr, .a (addressByte a d) .ack]
        mode := ackMode d, busStat := ackStat d, stepFail := false
        sclDrv := .low, sdaDrv := .released, todo := rest } :=
  (reaches_of_run (run_start_ok ht h)).trans (reaches_step rfl (by simp [State.doOp]))

/-- retry_seq granted after `k` refused attempts, from its first line on (R103). -/
theorem reaches_retry {s : State} {a : BitVec 7} {d : Dir} {k : Nat} {rest : List SeqOp}
    (ht : s.todo = retrySeq a d ++ rest) (h : grantsAfter s.par a d k s.env = true) :
    ∃ (es : List Event) (c : BitVec 16), c.toNat = min (k + 1) 0xFFFF ∧
      Reaches (5 * k + 5) s
        { s with
          env := envWhenGranted a d k s.env, trace := s.trace ++ es, mode := ackMode d, busStat := ackStat d
          stepFail := false, attempts := c, sclDrv := .low, sdaDrv := .released, todo := rest } := by
  obtain ⟨n, hn, es, c, hc, hrun⟩ :=
    run_retry (a := a) (d := d) (rest := rest) k { s with attempts := 0#16, todo := .attempt a d :: rest } rfl h
  refine ⟨es, c, by simpa using hc, ?_⟩
  exact ((reaches_step (t := { s with attempts := 0#16, todo := .attempt a d :: rest }) ht rfl).trans
    (reaches_of_run hrun)).mono (by omega)

/-- retry_seq granted at once (R103). -/
theorem reaches_retry_at_once {s : State} {a : BitVec 7} {d : Dir} {rest : List SeqOp}
    (ht : s.todo = retrySeq a d ++ rest) (h : attemptOk s.par a d s.env = true) :
    Reaches 5 s
      { s with
        env := envAfterAttempt a d s.env
        trace := s.trace ++ [if s.mode = .idle then .s else .sr, .a (addressByte a d) .ack]
        mode := ackMode d, busStat := ackStat d, stepFail := false, attempts := 1#16
        sclDrv := .low, sdaDrv := .released, todo := rest } :=
  (reaches_step (t := { s with attempts := 0#16, todo := .attempt a d :: rest }) ht rfl).trans
    (reaches_of_run (run_attempt_ok (s := { s with attempts := 0#16, todo := .attempt a d :: rest }) rfl h))

end Sys2Proof.Machine
end

