-- ==== Sys2Proof/Laws/Transactions.lean ====
section
/-! SUPPORT. Whole register transactions and scans when every phase succeeds (41_register_access.md R153, R155, R159;
42_keypad_scan.md R171, R173, R176), and what they do to a reference device (20_memory.md R64). -/

namespace Sys2Proof.Machine

/-! ## Which environments let a transaction succeed, and what they are afterwards -/

/-- Every phase of a register write succeeds at the first attempt. -/
def WriteOk (p : Params) (reg : BitVec 3) (e : Env) : Prop :=
  attemptOk p p.periphAddr .write e = true ∧
  (envAfterAttempt p.periphAddr .write e).txAnswer = .ack ∧
  ((envAfterAttempt p.periphAddr .write e).afterTx (regByte reg)).txAnswer = .ack

/-- The environment after a register write. -/
def envAfterWrite (p : Params) (reg : BitVec 3) (v : Byte) (e : Env) : Env :=
  ((envAfterAttempt p.periphAddr .write e).afterTx (regByte reg)).afterTx v

/-- The environment after the first half of a register read: the register number is sent. -/
def envAfterPointer (p : Params) (reg : BitVec 3) (e : Env) : Env :=
  (envAfterAttempt p.periphAddr .write e).afterTx (regByte reg)

/-- Every phase of a register read succeeds at the first attempt. -/
def ReadOk (p : Params) (reg : BitVec 3) (e : Env) : Prop :=
  attemptOk p p.periphAddr .write e = true ∧
  (envAfterAttempt p.periphAddr .write e).txAnswer = .ack ∧
  attemptOk p p.periphAddr .read (envAfterPointer p reg e) = true

/-- The byte a register read receives. -/
def readByte (p : Params) (reg : BitVec 3) (e : Env) : Byte :=
  (envAfterAttempt p.periphAddr .read (envAfterPointer p reg e)).rxAnswer p

/-- The environment after a register read. -/
def envAfterRead (p : Params) (reg : BitVec 3) (e : Env) : Env :=
  (envAfterAttempt p.periphAddr .read (envAfterPointer p reg e)).afterRx p

/-! ## Register transactions -/

/-- write_reg_seq when every phase succeeds (R153, R159). -/
theorem reaches_writeReg {s : State} {reg : BitVec 3} {v : Byte} {rest : List SeqOp}
    (ht : s.todo = writeRegSeq s.par reg v ++ rest) (hm : s.mode = .idle) (h : WriteOk s.par reg s.env) :
    Reaches 10 s
      { s with
        env := envAfterWrite s.par reg v s.env, trace := s.trace ++ writeRegEvents s.par reg v
        mode := .idle, busStat := .noInfo, stepFail := false, attempts := 1#16
        sclDrv := .released, sdaDrv := .released, todo := rest } := by
  obtain ⟨h1, h2, h3⟩ := h
  have r1 := reaches_retry_at_once (rest := .tx (regByte reg) :: .noteFail :: .tx v :: .noteFail :: .stop :: rest)
    (show s.todo = retrySeq s.par.periphAddr .write ++ _ by rw [ht]; simp [writeRegSeq]) h1
  refine (r1.trans (reaches_tx_note rfl rfl)).trans ?_ |>.mono (show 5 + 2 + 3 ≤ 10 by omega)
  refine (reaches_tx_note rfl ?_).trans (m := 2) (n := 1) ?_
  · simp [h2, txMode]
  · have hne : txMode .ack ≠ .idle := by decide
    have := reaches_stop (rest := rest) (s := { s with
      env := envAfterWrite s.par reg v s.env
      trace := s.trace ++ [.s, .a (addressByte s.par.periphAddr .write) .ack, .t (regByte reg) .ack, .t v .ack]
      mode := txMode .ack, busStat := txStat .ack, stepFail := false, attempts := 1#16
      sclDrv := .low, sdaDrv := .released, todo := .stop :: rest }) rfl hne
    simpa [h2, h3, hm, envAfterWrite, writeRegEvents, txScl] using this

/-- read_reg_seq when every phase succeeds (R155, R159). -/
theorem reaches_readReg {s : State} {reg : BitVec 3} {rest : List SeqOp}
    (ht : s.todo = readRegSeq s.par reg ++ rest) (hm : s.mode = .idle) (h : ReadOk s.par reg s.env) :
    Reaches 13 s
      { s with
        env := envAfterRead s.par reg s.env, rx := readByte s.par reg s.env
        trace := s.trace ++ readRegEvents s.par reg (readByte s.par reg s.env)
        mode := .idle, busStat := .noInfo, stepFail := false, attempts := 1#16
        sclDrv := .released, sdaDrv := .released, todo := rest } := by
  obtain ⟨h1, h2, h3⟩ := h
  have r1 := reaches_retry_at_once (rest := .tx (regByte reg) :: .noteFail :: .start s.par.periphAddr .read ::
      .noteFail :: .rx false :: .noteFail :: .stop :: rest)
    (show s.todo = retrySeq s.par.periphAddr .write ++ _ by rw [ht]; simp [readRegSeq]) h1
  refine (r1.trans (reaches_tx_note rfl rfl)).trans ?_ |>.mono (show 5 + 2 + 6 ≤ 13 by omega)
  refine (reaches_start_note rfl h3).trans (m := 3) (n := 3) ?_
  refine (reaches_rx_note rfl rfl).trans (m := 2) (n := 1) ?_
  have hne : BusMode.owned ≠ .idle := by decide
  have := reaches_stop (rest := rest) (s := { s with
    env := envAfterRead s.par reg s.env, rx := readByte s.par reg s.env
    trace := s.trace ++ [.s, .a (addressByte s.par.periphAddr .write) .ack, .t (regByte reg) .ack, .sr,
      .a (addressByte s.par.periphAddr .read) .ack, .r (readByte s.par reg s.env) false]
    mode := .owned, busStat := .rxNack, stepFail := false, attempts := 1#16
    sclDrv := .low, sdaDrv := .released, todo := .stop :: rest }) rfl hne
  simpa [h2, hm, envAfterRead, envAfterPointer, readByte, readRegEvents, txScl, txMode, ackMode] using this

/-! ## Scans -/

/-- Every phase of a row scan succeeds at the first attempt. -/
def ScanRowOk (p : Params) (y : BitVec 2) (e : Env) : Prop :=
  WriteOk p p.rowReg e ∧ ReadOk p p.colReg (envAfterWrite p p.rowReg (rowSelect p y) e) ∧
  WriteOk p p.rowReg (envAfterRead p p.colReg (envAfterWrite p p.rowReg (rowSelect p y) e))

/-- The byte a row scan reads from COL_REG. -/
def rowByte (p : Params) (y : BitVec 2) (e : Env) : Byte :=
  readByte p p.colReg (envAfterWrite p p.rowReg (rowSelect p y) e)

/-- The environment after a row scan. -/
def envAfterRow (p : Params) (y : BitVec 2) (e : Env) : Env :=
  envAfterWrite p p.rowReg 0xFF#8 (envAfterRead p p.colReg (envAfterWrite p p.rowReg (rowSelect p y) e))

/-- The events of a row scan whose phases all succeed (R171). -/
def scanRowEvents (p : Params) (y : BitVec 2) (v : Byte) : List Event :=
  writeRegEvents p p.rowReg (rowSelect p y) ++
    (settleEvents p ++ (readRegEvents p p.colReg v ++ writeRegEvents p p.rowReg 0xFF#8))

/-- The wait between row select and column read (R171). -/
theorem reaches_settle {s : State} {rest : List SeqOp} (ht : s.todo = settleSeq s.par ++ rest) :
    Reaches 1 s { s with trace := s.trace ++ settleEvents s.par, todo := rest } := by
  by_cases h : s.par.rowSettle = 0
  · refine (reaches_of_run (n := 0) ?_).mono (by omega)
    simp [settleSeq, settleEvents, h] at ht ⊢
    rw [← ht]
  · refine reaches_step (op := .settle) (rest := rest) (by simpa [settleSeq, h] using ht) ?_
    simp [State.doOp, State.record, settleEvents, h]

/-- scan_row_seq when every phase succeeds (R171). -/
theorem reaches_scanRow {s : State} {y : BitVec 2} {rest : List SeqOp}
    (ht : s.todo = scanRowSeq s.par y ++ rest) (hm : s.mode = .idle) (h : ScanRowOk s.par y s.env) :
    Reaches 34 s
      { s with
        env := envAfterRow s.par y s.env, rx := rowByte s.par y s.env
        trace := s.trace ++ scanRowEvents s.par y (rowByte s.par y s.env)
        mode := .idle, busStat := .noInfo, stepFail := false, attempts := 1#16
        sclDrv := .released, sdaDrv := .released, todo := rest } := by
  obtain ⟨h1, h2, h3⟩ := h
  have r1 := reaches_writeReg (s := s) (reg := s.par.rowReg) (v := rowSelect s.par y)
    (rest := settleSeq s.par ++ (readRegSeq s.par s.par.colReg ++ (writeRegSeq s.par s.par.rowReg 0xFF#8 ++ rest)))
    (by rw [ht]; simp [scanRowSeq]) hm h1
  have r2 := r1.trans (reaches_settle rfl)
  have r3 := r2.trans (reaches_readReg rfl rfl h2)
  have r4 := r3.trans (reaches_writeReg rfl rfl h3)
  refine Reaches.mono ?_ (show 10 + 1 + 13 + 10 ≤ 34 by omega)
  simpa [scanRowEvents, envAfterRow, rowByte, List.append_assoc] using r4

/-- One row of scan_keypad_seq: the scan and its nibble (R173). -/
theorem reaches_accRow {s : State} {y : BitVec 2} {rest : List SeqOp}
    (ht : s.todo = scanRowSeq s.par y ++ .accRow :: rest) (hm : s.mode = .idle) (h : ScanRowOk s.par y s.env) :
    Reaches 35 s
      { s with
        env := envAfterRow s.par y s.env, rx := rowByte s.par y s.env
        acc := accShift s.acc (columnNibble s.par (rowByte s.par y s.env))
        trace := s.trace ++ scanRowEvents s.par y (rowByte s.par y s.env)
        mode := .idle, busStat := .noInfo, stepFail := false, attempts := 1#16
        sclDrv := .released, sdaDrv := .released, todo := rest } :=
  (reaches_scanRow ht hm h).trans (reaches_step rfl rfl)

/-- The environment after the rows of a scan, in scan order. -/
def envAfterRows (p : Params) : List (BitVec 2) → Env → Env
  | [], e => e
  | y :: ys, e => envAfterRows p ys (envAfterRow p y e)

/-- Every phase of a list of row scans succeeds at the first attempt. -/
def RowsOk (p : Params) : List (BitVec 2) → Env → Prop
  | [], _ => True
  | y :: ys, e => ScanRowOk p y e ∧ RowsOk p ys (envAfterRow p y e)

/-- The bytes read by a list of row scans. -/
def rowBytes (p : Params) : List (BitVec 2) → Env → List Byte
  | [], _ => []
  | y :: ys, e => rowByte p y e :: rowBytes p ys (envAfterRow p y e)

/-- The events of a list of row scans. -/
def rowsEvents (p : Params) : List (BitVec 2) → Env → List Event
  | [], _ => []
  | y :: ys, e => scanRowEvents p y (rowByte p y e) ++ rowsEvents p ys (envAfterRow p y e)

/-- ACC after the nibbles of a list of bytes (R173). -/
def accBytes (p : Params) (acc : Mask) (vs : List Byte) : Mask :=
  vs.foldl (fun m v => accShift m (columnNibble p v)) acc

/-- A list of row scans with their nibbles: what changes is the bus, the byte latch, ACC, ATTEMPTS, the trace and the
environment. -/
theorem reaches_rows (ys : List (BitVec 2)) {rest : List SeqOp} :
    ∀ s : State, s.todo = (ys.flatMap fun r => scanRowSeq s.par r ++ [.accRow]) ++ rest → s.mode = .idle →
      RowsOk s.par ys s.env → ys ≠ [] →
      ∃ v, Reaches (35 * ys.length) s
        { s with
          env := envAfterRows s.par ys s.env, rx := v, acc := accBytes s.par s.acc (rowBytes s.par ys s.env)
          trace := s.trace ++ rowsEvents s.par ys s.env
          mode := .idle, busStat := .noInfo, stepFail := false, attempts := 1#16
          sclDrv := .released, sdaDrv := .released, todo := rest } := by
  induction ys with
  | nil => intro s _ _ _ h; exact absurd rfl h
  | cons y ys ih =>
    intro s ht hm hok _
    obtain ⟨h1, h2⟩ := hok
    have r1 := reaches_accRow (s := s) (y := y)
      (rest := (ys.flatMap fun r => scanRowSeq s.par r ++ [.accRow]) ++ rest) (by rw [ht]; simp) hm h1
    cases ys with
    | nil => exact ⟨_, by simpa [envAfterRows, accBytes, rowBytes, rowsEvents] using r1⟩
    | cons y' ys =>
      obtain ⟨v, r2⟩ := ih
        { s with
          env := envAfterRow s.par y s.env, rx := rowByte s.par y s.env
          acc := accShift s.acc (columnNibble s.par (rowByte s.par y s.env))
          trace := s.trace ++ scanRowEvents s.par y (rowByte s.par y s.env)
          mode := .idle, busStat := .noInfo, stepFail := false, attempts := 1#16
          sclDrv := .released, sdaDrv := .released
          todo := ((y' :: ys).flatMap fun r => scanRowSeq s.par r ++ [.accRow]) ++ rest } rfl rfl h2 (by simp)
      refine ⟨v, ?_⟩
      have r3 := (r1.trans r2).mono (show _ ≤ 35 * (y :: y' :: ys).length by simp; omega)
      simpa [envAfterRows, accBytes, rowBytes, rowsEvents, List.append_assoc] using r3

/-- The rows in scan order (R173). -/
def scanOrder : List (BitVec 2) := [3#2, 2#2, 1#2, 0#2]

/-- scan_keypad_seq when every phase succeeds (R173). -/
theorem reaches_scanKeypad {s : State} {rest : List SeqOp}
    (ht : s.todo = scanKeypadSeq s.par ++ rest) (hm : s.mode = .idle) (h : RowsOk s.par scanOrder s.env) :
    ∃ v, Reaches 141 s
      { s with
        env := envAfterRows s.par scanOrder s.env, rx := v
        acc := accBytes s.par 0#16 (rowBytes s.par scanOrder s.env)
        trace := s.trace ++ rowsEvents s.par scanOrder s.env
        mode := .idle, busStat := .noInfo, stepFail := false, attempts := 1#16
        sclDrv := .released, sdaDrv := .released, todo := rest } := by
  obtain ⟨v, r⟩ := reaches_rows scanOrder (rest := rest)
    { s with acc := 0#16, todo := (scanOrder.flatMap fun r => scanRowSeq s.par r ++ [.accRow]) ++ rest } rfl hm h
    (by decide)
  exact ⟨v, (reaches_step (by rw [ht]; rfl) rfl).trans r⟩

/-- The debounce wait: the timer counts down and the wait is recorded at its end (R178). -/
theorem reaches_waitTick (n : Nat) {rest : List SeqOp} :
    ∀ s : State, s.todo = .waitTick :: rest → s.timer = .counting n →
      Reaches (n + 1) s { s with timer := .idle, trace := s.trace ++ [.w tDebounce], todo := rest } := by
  induction n with
  | zero =>
    intro s ht hc
    exact reaches_step ht (by simp [State.doOp, State.opWaitTick, hc, State.record])
  | succ n ih =>
    intro s ht hc
    have r1 : Reaches 1 s { s with timer := .counting n } :=
      reaches_step ht (by simp [State.doOp, State.opWaitTick, hc, ht])
    exact (r1.trans (ih _ ht rfl)).mono (by omega)

/-- The end of the first scan of SCAN_EDGE: the sample is saved and the debounce time passes (R176 steps 1 and 2). -/
theorem reaches_wait {s : State} {rest : List SeqOp} (ht : s.todo = .saveS1 :: .waitBegin :: .waitTick :: rest) :
    Reaches (debounceCycles s.par + s.env.extraWait + 3) s
      { s with s1 := s.acc, timer := .idle, env := s.env.afterWait, trace := s.trace ++ [.w tDebounce], todo := rest } := by
  have r1 := reaches_step (t := { s with s1 := s.acc, todo := .waitBegin :: .waitTick :: rest }) ht rfl
  have r2 := r1.trans (reaches_step
    (t := { s with
      s1 := s.acc, timer := .counting (debounceCycles s.par + s.env.extraWait), env := s.env.afterWait
      todo := .waitTick :: rest }) rfl rfl)
  exact (r2.trans (reaches_waitTick (debounceCycles s.par + s.env.extraWait) _ rfl rfl)).mono (by omega)

/-- An attempt leaves the length of the next wait open as it was. -/
theorem envAfterAttempt_wait (a : BitVec 7) (d : Dir) (e : Env) :
    (envAfterAttempt a d e).waits = e.waits ∧ (envAfterAttempt a d e).waited = e.waited := by
  unfold envAfterAttempt
  split <;> exact ⟨rfl, rfl⟩

theorem envAfterWrite_wait (p : Params) (reg : BitVec 3) (v : Byte) (e : Env) :
    (envAfterWrite p reg v e).waits = e.waits ∧ (envAfterWrite p reg v e).waited = e.waited :=
  envAfterAttempt_wait p.periphAddr .write e

theorem envAfterRead_wait (p : Params) (reg : BitVec 3) (e : Env) :
    (envAfterRead p reg e).waits = e.waits ∧ (envAfterRead p reg e).waited = e.waited := by
  have h1 := envAfterAttempt_wait p.periphAddr .write e
  have h2 := envAfterAttempt_wait p.periphAddr .read (envAfterPointer p reg e)
  exact ⟨h2.1.trans h1.1, h2.2.trans h1.2⟩

theorem envAfterRow_wait (p : Params) (y : BitVec 2) (e : Env) :
    (envAfterRow p y e).waits = e.waits ∧ (envAfterRow p y e).waited = e.waited := by
  unfold envAfterRow
  rw [(envAfterWrite_wait ..).1, (envAfterWrite_wait ..).2, (envAfterRead_wait ..).1, (envAfterRead_wait ..).2]
  exact envAfterWrite_wait ..

/-- Scanning rows does not touch how long the next wait is. -/
theorem envAfterRows_extraWait (p : Params) (ys : List (BitVec 2)) (e : Env) :
    (envAfterRows p ys e).extraWait = e.extraWait := by
  induction ys generalizing e with
  | nil => rfl
  | cons y ys ih =>
    rw [envAfterRows, ih]
    unfold Env.extraWait
    rw [(envAfterRow_wait ..).1, (envAfterRow_wait ..).2]

/-- The two scans of SCAN_EDGE and the wait between them, when every phase succeeds (R176 steps 1 to 3). -/
theorem reaches_scanEdge {s : State} {rest : List SeqOp} (ht : s.todo = scanEdgeSeq s.par ++ rest)
    (hm : s.mode = .idle) (h1 : RowsOk s.par scanOrder s.env)
    (h2 : RowsOk s.par scanOrder (envAfterRows s.par scanOrder s.env).afterWait) :
    let e := (envAfterRows s.par scanOrder s.env).afterWait
    ∃ v, Reaches (debounceCycles s.par + s.env.extraWait + 286) s
      { s with
        env := envAfterRows s.par scanOrder e, rx := v
        acc := accBytes s.par 0#16 (rowBytes s.par scanOrder e)
        s1 := accBytes s.par 0#16 (rowBytes s.par scanOrder s.env)
        s2 := accBytes s.par 0#16 (rowBytes s.par scanOrder e)
        timer := .idle
        trace := s.trace ++ (rowsEvents s.par scanOrder s.env ++
          .w tDebounce :: rowsEvents s.par scanOrder e)
        mode := .idle, busStat := .noInfo, stepFail := false, attempts := 1#16
        sclDrv := .released, sdaDrv := .released, todo := rest } := by
  intro e
  obtain ⟨v1, r1⟩ := reaches_scanKeypad (s := s)
    (rest := .saveS1 :: .waitBegin :: .waitTick :: (scanKeypadSeq s.par ++ .saveS2 :: rest))
    (by rw [ht]; simp [scanEdgeSeq]) hm h1
  have r2 := r1.trans (reaches_wait rfl)
  obtain ⟨v2, r3⟩ := reaches_scanKeypad (rest := .saveS2 :: rest)
    (s := { s with
      env := e, rx := v1
      acc := accBytes s.par 0#16 (rowBytes s.par scanOrder s.env)
      s1 := accBytes s.par 0#16 (rowBytes s.par scanOrder s.env), timer := .idle
      trace := s.trace ++ rowsEvents s.par scanOrder s.env ++ [.w tDebounce]
      mode := .idle, busStat := .noInfo, stepFail := false, attempts := 1#16
      sclDrv := .released, sdaDrv := .released, todo := scanKeypadSeq s.par ++ .saveS2 :: rest }) rfl rfl h2
  refine ⟨v2, ?_⟩
  have r4 := (r2.trans r3).trans (reaches_step rfl rfl)
  rw [envAfterRows_extraWait] at r4
  refine Reaches.mono ?_ (show 141 + (debounceCycles s.par + s.env.extraWait + 3) + 141 + 1 ≤
    debounceCycles s.par + s.env.extraWait + 286 by omega)
  simpa [State.doOp, List.append_assoc] using r4

/-! ## Reference devices -/

theorem plain_attempt {p : Params} {e : Env} (h : e.Plain) (d : Dir) :
    attemptOk p p.periphAddr d e = true := by
  obtain ⟨h1, h2, -, h4⟩ := h
  rw [attemptOk_iff]
  have hd : (addressByte p.periphAddr d).extractLsb' 1 7 = p.periphAddr := by
    generalize p.periphAddr = a
    revert a
    cases d <;> decide
  cases hdev : e.device with
  | free => simp [hdev] at h4
  | absent => simp [hdev] at h4
  | simx m =>
    simp [Env.startAnswer, h1, hdev, Env.addressAnswer, Env.afterStart, h2, addressMatches, hd]
  | simk m ks =>
    simp [Env.startAnswer, h1, hdev, Env.addressAnswer, Env.afterStart, h2, addressMatches, hd]

end Sys2Proof.Machine
end

