-- ==== Sys2Proof/Laws/Devices.lean ====
section
/-! SUPPORT. The reference devices SIMX and SIMK (20_memory.md R64, R65) under whole transactions: which environments
they are, what a register write and a register read do to them, and that their store stays canonical. -/

namespace Sys2Proof.Machine

/-! ## The store under each answer -/

/-- A change of the SIMX inside a device. -/
def Device.mapSim (f : SimX → SimX) : Device → Device
  | .simx m => .simx (f m)
  | .simk m ks => .simk (f m) ks
  | .free => .free
  | .absent => .absent

@[simp] theorem afterWait_device (e : Env) : e.afterWait.device = e.device := rfl
@[simp] theorem afterWait_rxs (e : Env) : e.afterWait.rxs = e.rxs := rfl

@[simp] theorem afterStart_device (e : Env) : e.afterStart.device = e.device := rfl

theorem afterAddress_device (e : Env) (b : Byte) :
    (e.afterAddress b).device = e.device.mapSim fun m => m.afterAddress b := by
  unfold Env.afterAddress Device.mapSim
  cases e.device <;> rfl

theorem afterTx_device (e : Env) (b : Byte) : (e.afterTx b).device = e.device.mapSim fun m => m.afterTx b := by
  unfold Env.afterTx Device.mapSim
  cases e.device <;> rfl

@[simp] theorem afterAddress_store (e : Env) (b : Byte) : (e.afterAddress b).device.store = e.device.store := by
  rw [afterAddress_device]
  cases e.device <;> rfl

@[simp] theorem afterRx_store (p : Params) (e : Env) : (e.afterRx p).device.store = e.device.store := by
  unfold Env.afterRx
  cases e.device <;> rfl

/-- A transmitted byte is stored at the pointer, if the device stores it (R64). -/
theorem afterTx_store (e : Env) (b : Byte) :
    (e.afterTx b).device.store =
      match e.device.storeAddress with
      | some a => e.device.store.write a b
      | none => e.device.store := by
  rw [afterTx_device]
  cases e.device with
  | free => rfl
  | absent => rfl
  | simx m =>
    simp only [Device.mapSim, Device.store, SimX.afterTx, Device.storeAddress]
    cases m.pointerNext <;> rfl
  | simk m ks =>
    simp only [Device.mapSim, Device.store, SimX.afterTx, Device.storeAddress]
    cases m.pointerNext <;> rfl

/-! ## The canonical form -/

/-- The store is canonical and holds only `MX[0..7]`. -/
def StoreOk (m : Memory) : Prop := m.wf ∧ ∀ c ∈ m, c.1 < 8

theorem storeOk_write {m : Memory} (h : StoreOk m) {a : Nat} (ha : a < 8) (v : Byte) : StoreOk (m.write a v) := by
  refine ⟨Memory.write_wf h.1 a v, fun c hc => ?_⟩
  rcases Memory.mem_write hc with ⟨rfl, -⟩ | hc
  · exact ha
  · exact h.2 c hc

theorem storeAddress_lt {d : Device} {a : Nat} (h : d.storeAddress = some a) : a < 8 := by
  cases d with
  | free => cases h
  | absent => cases h
  | simx m =>
    simp only [Device.storeAddress] at h
    split at h
    · cases h
    · injection h with h; subst h; exact m.px.isLt
  | simk m ks =>
    simp only [Device.storeAddress] at h
    split at h
    · cases h
    · injection h with h; subst h; exact m.px.isLt

/-- A transmitted byte keeps the canonical form. -/
theorem afterTx_storeOk {e : Env} (h : StoreOk e.device.store) (b : Byte) : StoreOk (e.afterTx b).device.store := by
  rw [afterTx_store]
  split
  · rename_i a ha
    exact storeOk_write h (storeAddress_lt ha) b
  · exact h

/-- Every step of the sequencer keeps the canonical form. -/
theorem doOp_storeOk (op : SeqOp) {s : State} (h : StoreOk s.env.device.store) :
    StoreOk (s.doOp op).env.device.store := by
  cases op with
  | finish r => cases r <;> exact h
  | retryUnlessOk a d => simp only [State.doOp, State.opRetryUnlessOk]; split <;> exact h
  | start a d => simp only [State.doOp, State.opStart]; split <;> (try split) <;> exact h
  | address a d =>
    have h' : StoreOk (s.env.afterAddress (addressByte a d)).device.store := by rwa [afterAddress_store]
    simp only [State.doOp, opAddress_eq]; split <;> exact h'
  | stop => simp only [State.doOp, State.opStop]; split <;> exact h
  | tx b =>
    have h' := afterTx_storeOk h b
    simp only [State.doOp, State.opTx]; split <;> (try split) <;> first | exact h' | exact h
  | rx k =>
    have h' : StoreOk (s.env.afterRx s.par).device.store := by rwa [afterRx_store]
    simp only [State.doOp, State.opRx]; split <;> (try split) <;> first | exact h' | exact h
  | waitTick => simp only [State.doOp, State.opWaitTick]; split <;> exact h
  | _ => exact h

/-! ## A reference device answers every phase of its own transactions -/

/-- The device's SIMX, if it has one. -/
def Device.sim? : Device → Option SimX
  | .simx m => some m
  | .simk m _ => some m
  | .free => none
  | .absent => none

theorem plain_iff (e : Env) :
    e.Plain ↔ e.starts = [] ∧ e.addrs = [] ∧ e.txs = [] ∧ e.device.sim?.isSome = true := by
  unfold Env.Plain Device.sim?
  cases e.device <;> simp

theorem plain_tx {e : Env} (h : e.Plain) : e.txAnswer = .ack := by
  obtain ⟨-, -, h3, h4⟩ := h
  unfold Env.txAnswer
  cases hd : e.device <;> simp_all

theorem plain_afterTx {e : Env} (h : e.Plain) (b : Byte) : (e.afterTx b).Plain := by
  rw [plain_iff] at h ⊢
  obtain ⟨h1, h2, h3, h4⟩ := h
  refine ⟨h1, h2, by simp [Env.afterTx, h3], ?_⟩
  rw [afterTx_device]
  cases hd : e.device <;> simp_all [Device.mapSim, Device.sim?]

theorem plain_afterRx {e : Env} (h : e.Plain) (p : Params) : (e.afterRx p).Plain := by
  rw [plain_iff] at h ⊢
  obtain ⟨h1, h2, h3, h4⟩ := h
  refine ⟨h1, h2, h3, ?_⟩
  unfold Env.afterRx
  cases hd : e.device <;> simp_all [Device.sim?]

theorem plain_afterWait {e : Env} (h : e.Plain) : e.afterWait.Plain := h

/-- The start condition of a reference device is granted, so the attempt is an address phase. -/
theorem plain_afterAttempt {e : Env} (h : e.Plain) (a : BitVec 7) (d : Dir) :
    envAfterAttempt a d e = e.afterStart.afterAddress (addressByte a d) := by
  obtain ⟨h1, -, -, h4⟩ := h
  refine if_pos ?_
  unfold Env.startAnswer
  cases hd : e.device <;> simp_all

theorem plain_envAfterAttempt {e : Env} (h : e.Plain) (a : BitVec 7) (d : Dir) : (envAfterAttempt a d e).Plain := by
  rw [plain_afterAttempt h]
  rw [plain_iff] at h ⊢
  obtain ⟨h1, h2, h3, h4⟩ := h
  refine ⟨by simp [Env.afterAddress, Env.afterStart, h1], by simp [Env.afterAddress, Env.afterStart, h2], h3, ?_⟩
  rw [afterAddress_device]
  cases hd : e.device <;> simp_all [Device.mapSim, Device.sim?]

theorem plain_writeOk {e : Env} (h : e.Plain) (p : Params) (reg : BitVec 3) : WriteOk p reg e :=
  ⟨plain_attempt h .write, plain_tx (plain_envAfterAttempt h ..),
    plain_tx (plain_afterTx (plain_envAfterAttempt h ..) _)⟩

theorem plain_envAfterWrite {e : Env} (h : e.Plain) (p : Params) (reg : BitVec 3) (v : Byte) :
    (envAfterWrite p reg v e).Plain := plain_afterTx (plain_afterTx (plain_envAfterAttempt h ..) _) _

theorem plain_envAfterPointer {e : Env} (h : e.Plain) (p : Params) (reg : BitVec 3) :
    (envAfterPointer p reg e).Plain := plain_afterTx (plain_envAfterAttempt h ..) _

theorem plain_readOk {e : Env} (h : e.Plain) (p : Params) (reg : BitVec 3) : ReadOk p reg e :=
  ⟨plain_attempt h .write, plain_tx (plain_envAfterAttempt h ..), plain_attempt (plain_envAfterPointer h ..) .read⟩

theorem plain_envAfterRead {e : Env} (h : e.Plain) (p : Params) (reg : BitVec 3) : (envAfterRead p reg e).Plain :=
  plain_afterRx (plain_envAfterAttempt (plain_envAfterPointer h ..) ..) _

theorem plain_scanRowOk {e : Env} (h : e.Plain) (p : Params) (y : BitVec 2) : ScanRowOk p y e :=
  ⟨plain_writeOk h .., plain_readOk (plain_envAfterWrite h ..) ..,
    plain_writeOk (plain_envAfterRead (plain_envAfterWrite h ..) ..) ..⟩

theorem plain_envAfterRow {e : Env} (h : e.Plain) (p : Params) (y : BitVec 2) : (envAfterRow p y e).Plain :=
  plain_envAfterWrite (plain_envAfterRead (plain_envAfterWrite h ..) ..) ..

theorem plain_rowsOk (p : Params) (ys : List (BitVec 2)) : ∀ {e : Env}, e.Plain → RowsOk p ys e := by
  induction ys with
  | nil => intro e _; trivial
  | cons y ys ih => intro e h; exact ⟨plain_scanRowOk h .., ih (plain_envAfterRow h ..)⟩

theorem plain_envAfterRows (p : Params) (ys : List (BitVec 2)) : ∀ {e : Env}, e.Plain → (envAfterRows p ys e).Plain := by
  induction ys with
  | nil => intro e h; exact h
  | cons y ys ih => intro e h; exact ih (plain_envAfterRow h ..)

/-! ## What a transaction does to a reference device -/

/-- After an address byte with direction WRITE and the register number, the pointer is the register. -/
theorem afterPointer_sim (m : SimX) (a : BitVec 7) (reg : BitVec 3) :
    (m.afterAddress (addressByte a .write)).afterTx (regByte reg) =
      { mx := m.mx, px := reg, pointerNext := false } := by
  have h0 : (addressByte a .write).getLsbD 0 = false := by revert a; decide
  have h1 : (regByte reg).extractLsb' 0 3 = reg := by revert reg; decide
  simp only [SimX.afterAddress, SimX.afterTx, h0, h1, Bool.not_false, if_true]

theorem plain_envAfterPointer_device {e : Env} (h : e.Plain) (p : Params) (reg : BitVec 3) :
    (envAfterPointer p reg e).device =
      e.device.mapSim fun m => { mx := m.mx, px := reg, pointerNext := false } := by
  simp only [envAfterPointer, afterTx_device, plain_afterAttempt h, afterAddress_device, afterStart_device]
  cases e.device <;> simp only [Device.mapSim, afterPointer_sim]

/-- A register write sets `MX[reg]` and leaves the pointer there (R64, R153). -/
theorem plain_envAfterWrite_device {e : Env} (h : e.Plain) (p : Params) (reg : BitVec 3) (v : Byte) :
    (envAfterWrite p reg v e).device =
      e.device.mapSim fun m => { mx := m.mx.write reg.toNat v, px := reg, pointerNext := false } := by
  have hp := plain_envAfterPointer_device h p reg
  unfold envAfterPointer at hp
  simp only [envAfterWrite, afterTx_device _ v, hp]
  cases e.device <;> simp [Device.mapSim, SimX.afterTx]

/-- A register write stores its byte at the register's number and nowhere else. -/
theorem plain_envAfterWrite_read {e : Env} (h : e.Plain) (hs : StoreOk e.device.store) (p : Params) (reg : BitVec 3)
    (v : Byte) (x : Nat) :
    (envAfterWrite p reg v e).device.store.read x = if x = reg.toNat then v else e.device.store.read x := by
  rw [plain_envAfterWrite_device h]
  obtain ⟨-, -, -, h4⟩ := h
  cases hd : e.device with
  | free => simp [hd] at h4
  | absent => simp [hd] at h4
  | simx m => rw [hd] at hs; exact Memory.read_write hs.1 _ _ _
  | simk m ks => rw [hd] at hs; exact Memory.read_write hs.1 _ _ _

theorem envAfterWrite_storeOk {e : Env} (h : e.Plain) (hs : StoreOk e.device.store) (p : Params) (reg : BitVec 3)
    (v : Byte) : StoreOk (envAfterWrite p reg v e).device.store := by
  unfold envAfterWrite
  refine afterTx_storeOk (afterTx_storeOk ?_ _) _
  rw [plain_afterAttempt h, afterAddress_store]
  exact hs

/-- A register read leaves the store as it is. -/
theorem plain_envAfterRead_store {e : Env} (h : e.Plain) (p : Params) (reg : BitVec 3) :
    (envAfterRead p reg e).device.store = e.device.store := by
  have h' := plain_envAfterPointer_device h p reg
  rw [envAfterRead, afterRx_store, plain_afterAttempt (plain_envAfterPointer h ..), afterAddress_store,
    afterStart_device, h']
  cases e.device <;> rfl

/-- Scripted bytes are received in order (R60). -/
theorem readByte_scripted {e : Env} {v : Byte} {vs : List Byte} (h : e.Plain) (hr : e.rxs = v :: vs) (p : Params)
    (reg : BitVec 3) : readByte p reg e = v := by
  rw [readByte, plain_afterAttempt (plain_envAfterPointer h ..), envAfterPointer, plain_afterAttempt h]
  simp [Env.rxAnswer, Env.afterAddress, Env.afterStart, Env.afterTx, hr]

theorem envAfterRead_rxs {e : Env} (h : e.Plain) (p : Params) (reg : BitVec 3) :
    (envAfterRead p reg e).rxs = e.rxs.tail := by
  rw [envAfterRead, plain_afterAttempt (plain_envAfterPointer h ..), envAfterPointer, plain_afterAttempt h]
  rfl

theorem envAfterWrite_rxs {e : Env} (h : e.Plain) (p : Params) (reg : BitVec 3) (v : Byte) :
    (envAfterWrite p reg v e).rxs = e.rxs := by
  rw [envAfterWrite, plain_afterAttempt h]
  rfl

/-! ## Rows -/

theorem envAfterRow_rxs {e : Env} (h : e.Plain) (p : Params) (y : BitVec 2) : (envAfterRow p y e).rxs = e.rxs.tail := by
  rw [envAfterRow, envAfterWrite_rxs (plain_envAfterRead (plain_envAfterWrite h ..) ..),
    envAfterRead_rxs (plain_envAfterWrite h ..), envAfterWrite_rxs h]

theorem rowByte_scripted {e : Env} {v : Byte} {vs : List Byte} (h : e.Plain) (hr : e.rxs = v :: vs) (p : Params)
    (y : BitVec 2) : rowByte p y e = v :=
  readByte_scripted (plain_envAfterWrite h ..) (by rw [envAfterWrite_rxs h, hr]) ..

theorem envAfterRow_storeOk {e : Env} (h : e.Plain) (hs : StoreOk e.device.store) (p : Params) (y : BitVec 2) :
    StoreOk (envAfterRow p y e).device.store := by
  refine envAfterWrite_storeOk (plain_envAfterRead (plain_envAfterWrite h ..) ..) ?_ ..
  rw [plain_envAfterRead_store (plain_envAfterWrite h ..)]
  exact envAfterWrite_storeOk h hs ..

/-- A row scan leaves the row-output register all ones and every other byte as it was (R171). -/
theorem envAfterRow_read {e : Env} (h : e.Plain) (hs : StoreOk e.device.store) (p : Params) (y : BitVec 2) (x : Nat) :
    (envAfterRow p y e).device.store.read x = if x = p.rowReg.toNat then 0xFF#8 else e.device.store.read x := by
  have hr := plain_envAfterRead (plain_envAfterWrite h p p.rowReg (rowSelect p y)) p p.colReg
  rw [envAfterRow, plain_envAfterWrite_read hr, plain_envAfterRead_store (plain_envAfterWrite h ..),
    plain_envAfterWrite_read h hs]
  · split <;> rfl
  · rw [plain_envAfterRead_store (plain_envAfterWrite h ..)]
    exact envAfterWrite_storeOk h hs ..

theorem envAfterRows_storeOk (p : Params) (ys : List (BitVec 2)) :
    ∀ {e : Env}, e.Plain → StoreOk e.device.store → StoreOk (envAfterRows p ys e).device.store := by
  induction ys with
  | nil => intro e _ hs; exact hs
  | cons y ys ih => intro e h hs; exact ih (plain_envAfterRow h ..) (envAfterRow_storeOk h hs ..)

theorem envAfterRows_read (p : Params) (ys : List (BitVec 2)) (hne : ys ≠ []) (x : Nat) :
    ∀ {e : Env}, e.Plain → StoreOk e.device.store →
      (envAfterRows p ys e).device.store.read x = if x = p.rowReg.toNat then 0xFF#8 else e.device.store.read x := by
  induction ys with
  | nil => exact absurd rfl hne
  | cons y ys ih =>
    intro e h hs
    by_cases hys : ys = []
    · subst hys; exact envAfterRow_read h hs ..
    · rw [envAfterRows, ih hys (plain_envAfterRow h ..) (envAfterRow_storeOk h hs ..), envAfterRow_read h hs]
      split <;> rfl

theorem envAfterRows_rxs (p : Params) (ys : List (BitVec 2)) :
    ∀ {e : Env}, e.Plain → (envAfterRows p ys e).rxs = e.rxs.drop ys.length := by
  induction ys with
  | nil => intro e _; rfl
  | cons y ys ih =>
    intro e h
    rw [envAfterRows, ih (plain_envAfterRow h ..), envAfterRow_rxs h]
    simp

/-- The bytes of a list of rows are the next bytes of the script. -/
theorem rowBytes_scripted (p : Params) (ys : List (BitVec 2)) (vs ws : List Byte) :
    ∀ {e : Env}, e.Plain → vs.length = ys.length → e.rxs = vs ++ ws → rowBytes p ys e = vs := by
  induction ys generalizing vs with
  | nil => intro e _ hl _; simp at hl; simp [rowBytes, hl]
  | cons y ys ih =>
    intro e h hl hr
    cases vs with
    | nil => simp at hl
    | cons v vs =>
      rw [rowBytes, rowByte_scripted h hr, ih vs (plain_envAfterRow h ..) (by simpa using hl)]
      rw [envAfterRow_rxs h, hr]; rfl

/-- A row scan records 17 events, and one more if there is a settle time (R171). -/
theorem scanRowEvents_length (p : Params) (y : BitVec 2) (v : Byte) :
    (scanRowEvents p y v).length = if p.rowSettle = 0 then 17 else 18 := by
  unfold scanRowEvents settleEvents
  split <;> simp [writeRegEvents, readRegEvents]

theorem rowsEvents_length (p : Params) (ys : List (BitVec 2)) :
    ∀ e : Env, (rowsEvents p ys e).length = ys.length * (if p.rowSettle = 0 then 17 else 18) := by
  induction ys with
  | nil => intro e; simp [rowsEvents]
  | cons y ys ih =>
    intro e
    rw [rowsEvents, List.length_append, scanRowEvents_length, ih, List.length_cons, Nat.succ_mul, Nat.add_comm]

/-- The length of the events of one row, by the row's number. -/
theorem rowScanEvents_length (p : Params) (row : Fin 4) (v : Byte) :
    (rowScanEvents p row v).length = if p.rowSettle = 0 then 17 else 18 := by
  unfold rowScanEvents settleEvents
  split <;> simp [writeRegEvents, readRegEvents]

/-- The events of a scan, row by row (R173). -/
theorem rowsEvents_four {p : Params} {e : Env} {v3 v2 v1 v0 : Byte} (h : rowBytes p scanOrder e = [v3, v2, v1, v0]) :
    rowsEvents p scanOrder e =
      rowScanEvents p 3 v3 ++ (rowScanEvents p 2 v2 ++ (rowScanEvents p 1 v1 ++ rowScanEvents p 0 v0)) := by
  simp only [scanOrder, rowBytes, List.cons.injEq] at h
  obtain ⟨h3, h2, h1, h0, -⟩ := h
  simp only [scanOrder, rowsEvents, h3, h2, h1, h0, List.append_nil]
  rfl

/-- Four nibbles shifted into ACC: the first is at the top and nothing older is left (R173, R175). -/
theorem accShift_four (acc : Mask) (a b c d : BitVec 4) :
    accShift (accShift (accShift (accShift acc a) b) c) d = fourNibbles a b c d := by
  apply BitVec.eq_of_getLsbD_eq
  intro i hi
  simp only [accShift, fourNibbles, BitVec.getLsbD_or, BitVec.getLsbD_shiftLeft, BitVec.getLsbD_append,
    BitVec.truncate_eq_setWidth, BitVec.getLsbD_setWidth]
  interval_cases i <;> simp

/-- ACC after the bytes of four rows: row 3's nibble at the top (R175). -/
theorem accBytes_four (p : Params) (acc : Mask) (v3 v2 v1 v0 : Byte) :
    accBytes p acc [v3, v2, v1, v0] =
      fourNibbles (columnNibble p v3) (columnNibble p v2) (columnNibble p v1) (columnNibble p v0) :=
  accShift_four ..

end Sys2Proof.Machine
end

