-- ==== Sys2Proof/Laws/Endings.lean ====
section
/-! SUPPORT. The endings that are no plain success: a register transaction whose later phases may fail
(41_register_access.md R153 to R156), and a retry that is never granted (40_bus_primitives.md R114). -/

namespace Sys2Proof.Machine

/-! ## Register transactions once the bus is owned -/

/-- The steps of WRITE_REG after the bus is obtained, for every answer to the two bytes (R153, R152). -/
theorem run_writeReg_owned (s : State) (a v : Byte)
    (ht : s.todo = [.tx a, .noteFail, .tx v, .noteFail, .stop, .finish .access]) (hm : s.mode = .mt)
    (hf : s.failAcc = false) :
    let r1 := s.env.txAnswer
    let r2 := (s.env.afterTx a).txAnswer
    let t := State.runOps 6 s
    t.CompletedWith 0x0000#16 (!(decide (r1 = .ack) && decide (r2 = .ack))) ∧ s.FixedAs t ∧ t.mode = .idle ∧
      t.attempts = s.attempts ∧ t.debounce = s.debounce ∧
      (r1 ≠ .arbLost → r2 ≠ .arbLost → t.busStat = .noInfo ∧ t.env = (s.env.afterTx a).afterTx v) ∧
      (r1 = .arbLost ∨ r2 = .arbLost → t.busStat = .arbLost) := by
  intro r1 r2 t
  have h1 : r1 = s.env.txAnswer := rfl
  have h2 : r2 = (s.env.afterTx a).txAnswer := rfl
  have h3 : t = State.runOps 6 s := rfl
  clear_value r1 r2 t
  cases h : s.env.txAnswer <;> cases h' : (s.env.afterTx a).txAnswer <;>
  · rw [h] at h1
    rw [h'] at h2
    subst h1 h2
    simp [State.runOps, ht, State.doOp, State.opTx, hm, h, h', State.record, State.setBus, State.setFail,
      State.opStop, State.opFinish, hf] at h3
    subst h3
    simp [State.CompletedWith, State.FixedAs, State.complete]

/-- The steps of READ_REG after the bus is obtained, for every answer (R155, R156). -/
theorem run_readReg_owned (s : State) (a : Byte) (p : BitVec 7)
    (ht : s.todo = [.tx a, .noteFail, .start p .read, .noteFail, .rx false, .noteFail, .stop, .finish .accessByte])
    (hm : s.mode = .mt) (hf : s.failAcc = false) {n : Nat} (hn : 9 ≤ n) :
    let e := s.env.afterTx a
    let ok := attemptOk s.par p .read e
    let v := if ok then (envAfterAttempt p .read e).rxAnswer s.par else 0xFF#8
    let t := State.runOps n s
    t.CompletedWith (v.zeroExtend 16) (!(decide (s.env.txAnswer = .ack) && ok)) ∧ s.FixedAs t ∧ t.mode = .idle ∧
      t.attempts = s.attempts ∧ t.debounce = s.debounce ∧ (ok = true → t.busStat = .noInfo) := by
  intro e ok v t
  have h2 : ok = attemptOk s.par p .read e := rfl
  have h3 : t = State.runOps n s := rfl
  have h5 : v = if ok then (envAfterAttempt p .read e).rxAnswer s.par else 0xFF#8 := rfl
  clear_value ok t v
  obtain ⟨k, rfl⟩ := Nat.exists_eq_add_of_le hn
  rw [runOps_add] at h3
  simp only [envAfterAttempt] at h5
  simp only [attemptOk] at h2
  cases h : s.env.txAnswer <;> cases h' : (s.env.afterTx a).startAnswer <;>
    cases h4 : ((s.env.afterTx a).afterStart.addressAnswer s.par (addressByte p .read)) <;>
  · simp [h', e, h4] at h2
    subst h2
    simp [State.runOps, ht, State.doOp, State.opTx, hm, h, h', h4, State.opStart, State.opAddress, State.opRx,
      State.record, State.setBus, State.setFail, State.opStop, State.opFinish, hf, ackMode] at h3
    rw [runOps_idle (by rfl)] at h3
    subst h3
    simp [h', e] at h5
    subst h5
    simp [State.CompletedWith, State.FixedAs, State.complete, readFailValue]

/-- read_reg_seq whose repeated start is not acknowledged: the read is skipped, and the bus is released (R151, R155). -/
theorem reaches_readReg_nack {s : State} {reg : BitVec 3} {rest : List SeqOp}
    (ht : s.todo = readRegSeq s.par reg ++ rest)
    (h1 : attemptOk s.par s.par.periphAddr .write s.env = true)
    (h2 : (envAfterAttempt s.par.periphAddr .write s.env).txAnswer = .ack)
    (h3 : (envAfterPointer s.par reg s.env).startAnswer = .ok)
    (h4 : (envAfterPointer s.par reg s.env).afterStart.addressAnswer s.par (addressByte s.par.periphAddr .read) =
      .nack) :
    ∃ (es : List Event) (c : BitVec 16), Reaches 13 s
      { s with
        env := (envAfterPointer s.par reg s.env).afterStart.afterAddress (addressByte s.par.periphAddr .read)
        rx := 0xFF#8, failAcc := true, stepFail := true, trace := es, mode := .idle, busStat := .noInfo
        attempts := c, sclDrv := .released, sdaDrv := .released, todo := rest } := by
  have r1 := reaches_retry_at_once (rest := .tx (regByte reg) :: .noteFail :: .start s.par.periphAddr .read ::
      .noteFail :: .rx false :: .noteFail :: .stop :: rest)
    (show s.todo = retrySeq s.par.periphAddr .write ++ _ by rw [ht]; simp [readRegSeq]) h1
  have r2 := (r1.trans (reaches_tx_note rfl rfl)).trans (reaches_of_run (n := 6) rfl)
  unfold envAfterPointer at *
  simp [State.runOps, h2, txMode, State.doOp, State.opStart, h3, State.record, State.setBus, State.setFail,
    State.opAddress, h4, State.opRx, State.opStop, readFailValue] at r2
  exact ⟨_, _, r2⟩

/-! ## A retry that is never granted -/

/-- What is never granted now is refused, and is never granted after that. -/
theorem neverGrants_after {p : Params} {a : BitVec 7} {d : Dir} {e : Env} (h : neverGrants p a d e) :
    attemptOk p a d e = false ∧ neverGrants p a d (envAfterAttempt a d e) := by
  refine ⟨h 0, fun k => ?_⟩
  have h0 := h 0
  have h1 := h (k + 1)
  simp only [grantsAfter] at h0 h1
  simpa [h0] using h1

/-- Every step keeps a hopeless retry going, and reports nothing (R103, R114). -/
theorem hopeless_step {u : State} {a : BitVec 7} {d : Dir} {rest : List SeqOp} (op : SeqOp) (r : List SeqOp)
    (s : State) (h : SameReports u s ∧ s.Hopeless a d rest) (ht : s.todo = op :: r) :
    SameReports u (({ s with todo := r } : State).doOp op) ∧
      (({ s with todo := r } : State).doOp op).Hopeless a d rest := by
  obtain ⟨hr, h⟩ := h
  have hrep : op.isFinish = false → SameReports u (({ s with todo := r } : State).doOp op) :=
    fun hop => sameReports_step hop (s := { s with todo := r }) hr
  rcases h with ⟨h, hn⟩ | ⟨h, hn⟩ | ⟨h, hn⟩ | ⟨h, e, hs, henv, hn⟩ | ⟨h, hf, hn⟩ | ⟨h, hn⟩ <;> rw [ht] at h <;>
    injection h with ha hb <;> subst ha hb <;> refine ⟨hrep rfl, ?_⟩
  · exact .inr (.inl ⟨rfl, hn⟩)
  · exact .inr (.inr (.inl ⟨rfl, hn⟩))
  · obtain ⟨-, hn'⟩ := neverGrants_after hn
    by_cases hs : s.env.startAnswer = .ok
    · simp only [State.doOp]
      rw [opStart_ok (by exact hs)]
      exact .inr (.inr (.inr (.inl ⟨rfl, s.env, hs, rfl, hn⟩)))
    · simp only [State.doOp]
      obtain ⟨b, -, hb⟩ := opStart_refused (a := a) (d := d)
        (s := { s with todo := .retryUnlessOk a d :: rest }) (by exact hs)
      rw [hb]
      refine .inr (.inr (.inr (.inr (.inl ⟨rfl, rfl, ?_⟩))))
      rw [envAfterAttempt, if_neg hs] at hn'
      exact hn'
  · obtain ⟨he, hn'⟩ := neverGrants_after hn
    simp only [State.doOp, opAddress_eq]
    have he2 : e.afterStart.addressAnswer s.par (addressByte a d) ≠ .ack := fun h => by
      simp [attemptOk, hs, h] at he
    rw [envAfterAttempt, if_pos hs, ← henv] at hn'
    rw [← henv] at he2
    split
    · contradiction
    all_goals exact .inr (.inr (.inr (.inr (.inl ⟨rfl, rfl, hn'⟩))))
  · simp only [State.doOp, State.opRetryUnlessOk, hf, if_true]
    exact .inr (.inr (.inr (.inr (.inr ⟨rfl, hn⟩))))
  · simp only [State.doOp, State.opStop]
    split
    all_goals exact .inr (.inl ⟨rfl, hn⟩)

/-- A hopeless retry has steps left. -/
theorem hopeless_todo {a : BitVec 7} {d : Dir} {rest : List SeqOp} {s : State} (h : s.Hopeless a d rest) :
    s.todo ≠ [] := by
  rcases h with ⟨h, -⟩ | ⟨h, -⟩ | ⟨h, -⟩ | ⟨h, -⟩ | ⟨h, -⟩ | ⟨h, -⟩ <;> rw [h] <;> simp [retrySeq]

/-- However long it runs, a hopeless retry goes on (R114). -/
theorem hopeless_run {s : State} {a : BitVec 7} {d : Dir} {rest : List SeqOp} (n : Nat) (h : s.Hopeless a d rest) :
    SameReports s (State.runOps n s) ∧ (State.runOps n s).Hopeless a d rest :=
  runOps_keeps (fun t => SameReports s t ∧ t.Hopeless a d rest) (fun op r t h ht => hopeless_step op r t h ht) n s
    ⟨⟨rfl, rfl, rfl, rfl, rfl, rfl, rfl, rfl, rfl⟩, h⟩

/-- An absent peripheral grants nothing (R69). -/
theorem absent_neverGrants {p : Params} {a : BitVec 7} {d : Dir} {e : Env} (h1 : e.device = .absent)
    (h2 : e.addrs = []) : neverGrants p a d e := by
  intro k
  induction k generalizing e with
  | zero => simp [grantsAfter, attemptOk, Env.addressAnswer, Env.afterStart, h1, h2]
  | succ k ih =>
    simp only [grantsAfter]
    rw [ih, Bool.and_false]
    · unfold envAfterAttempt; split <;> simp [Env.afterAddress, Env.afterStart, h1]
    · unfold envAfterAttempt; split <;> simp [Env.afterAddress, Env.afterStart, h2]

/-- Every step keeps the retry against an absent peripheral going, and reports nothing (R69). -/
theorem absentRetry_step {u : State} {a : BitVec 7} {d : Dir} {rest : List SeqOp} (op : SeqOp) (r : List SeqOp)
    (s : State) (h : SameReports u s ∧ s.BoundForRetry a d rest ∧ s.env.Absent) (ht : s.todo = op :: r) :
    SameReports u (({ s with todo := r } : State).doOp op) ∧
      (({ s with todo := r } : State).doOp op).BoundForRetry a d rest ∧
      (({ s with todo := r } : State).doOp op).env.Absent := by
  obtain ⟨hr, h, hd, hs⟩ := h
  have hrep : op.isFinish = false → SameReports u (({ s with todo := r } : State).doOp op) :=
    fun hop => sameReports_step hop (s := { s with todo := r }) hr
  rcases h with (h | h | h | h | ⟨h, hf⟩ | h) | h <;> rw [ht] at h <;>
    injection h with ha hb <;> subst ha hb <;> refine ⟨hrep rfl, ?_⟩
  · exact ⟨.inl (.inr (.inl rfl)), hd, hs⟩
  · exact ⟨.inl (.inr (.inr (.inl rfl))), hd, hs⟩
  · have hs' : s.env.afterStart.Absent := ⟨hd, hs⟩
    by_cases ho : s.env.startAnswer = .ok
    · simp only [State.doOp]
      rw [opStart_ok (by exact ho)]
      exact ⟨.inl (.inr (.inr (.inr (.inl rfl)))), hs'⟩
    · simp only [State.doOp]
      obtain ⟨b, -, hb⟩ := opStart_refused (a := a) (d := d)
        (s := { s with todo := .retryUnlessOk a d :: rest }) (by exact ho)
      rw [hb]
      exact ⟨.inl (.inr (.inr (.inr (.inr (.inl ⟨rfl, rfl⟩))))), hs'⟩
  · have hs' : (s.env.afterAddress (addressByte a d)).Absent := by
      simp [Env.Absent, Env.afterAddress, hd, hs]
    have hn : s.env.addressAnswer s.par (addressByte a d) = .nack := by simp [Env.addressAnswer, hd, hs]
    simp only [State.doOp, opAddress_eq, hn]
    exact ⟨.inl (.inr (.inr (.inr (.inr (.inl ⟨rfl, rfl⟩))))), hs'⟩
  · simp only [State.doOp, State.opRetryUnlessOk, hf, if_true]
    exact ⟨.inl (.inr (.inr (.inr (.inr (.inr rfl))))), hd, hs⟩
  · simp only [State.doOp, State.opStop]
    split
    all_goals exact ⟨.inl (.inr (.inl rfl)), hd, hs⟩
  · exact ⟨.inl (.inl rfl), hd, hs⟩

/-- However long it runs, a retry against an absent peripheral goes on (R69). -/
theorem absentRetry_run {s : State} {a : BitVec 7} {d : Dir} {rest : List SeqOp} (n : Nat)
    (h : s.BoundForRetry a d rest) (hd : s.env.Absent) :
    SameReports s (State.runOps n s) ∧ (State.runOps n s).BoundForRetry a d rest ∧ (State.runOps n s).env.Absent :=
  runOps_keeps (fun t => SameReports s t ∧ t.BoundForRetry a d rest ∧ t.env.Absent)
    (fun op r t h ht => absentRetry_step op r t h ht) n s ⟨⟨rfl, rfl, rfl, rfl, rfl, rfl, rfl, rfl, rfl⟩, h, hd⟩

/-! ## Steps that complete a command come last -/

theorem stepsComplete_cons {op : SeqOp} {rest : List SeqOp} (h : stepsComplete (op :: rest) = true) :
    (op.isFinish = true ∧ rest = []) ∨ (op.isFinish = false ∧ stepsComplete rest = true) := by
  cases rest with
  | nil => exact .inl ⟨h, rfl⟩
  | cons a l => exact .inr (by simpa [stepsComplete] using h)

theorem stepsComplete_push {op : SeqOp} {rest : List SeqOp} (h0 : op.isFinish = false)
    (h : stepsComplete rest = true) : stepsComplete (op :: rest) = true := by
  cases rest with
  | nil => simp [stepsComplete] at h
  | cons a l => simp [stepsComplete, h0] at h ⊢; exact h

theorem stepsComplete_append {l rest : List SeqOp} (h0 : ∀ op ∈ l, op.isFinish = false)
    (h : stepsComplete rest = true) : stepsComplete (l ++ rest) = true := by
  induction l with
  | nil => exact h
  | cons op l ih =>
    exact stepsComplete_push (h0 op (by simp)) (ih fun o ho => h0 o (by simp [ho]))

end Sys2Proof.Machine
end

