-- ==== Sys2Proof/Laws/Answers.lean ====
section
/-! SUPPORT. Register accesses and scans once their retries are granted, for every answer to their later phases
(41_register_access.md R151, R153, R155; 42_keypad_scan.md R171, R173, R184). -/

namespace Sys2Proof.Machine

/-! ## How long the next wait is, is no matter of an access -/

/-- Two environments leave the length of the next wait equally open. -/
def SameWait (e f : Env) : Prop := f.waits = e.waits ∧ f.waited = e.waited

theorem SameWait.trans {e f g : Env} (h1 : SameWait e f) (h2 : SameWait f g) : SameWait e g :=
  ⟨h2.1.trans h1.1, h2.2.trans h1.2⟩

theorem SameWait.extraWait {e f : Env} (h : SameWait e f) : f.extraWait = e.extraWait := by
  simp only [Env.extraWait, h.1, h.2]

theorem sameWait_granted (a : BitVec 7) (d : Dir) (k : Nat) : ∀ e : Env, SameWait e (envWhenGranted a d k e) := by
  induction k with
  | zero => exact fun e => envAfterAttempt_wait a d e
  | succ k ih => exact fun e => SameWait.trans (envAfterAttempt_wait a d e) (ih _)

theorem sameWait_write (p : Params) (reg : BitVec 3) (v : Byte) (k : Nat) (e : Env) :
    SameWait e (writeResult p reg v k e).env := by
  refine SameWait.trans (sameWait_granted p.periphAddr .write k e) ?_
  simp only [writeResult]
  split <;> exact ⟨rfl, rfl⟩

theorem sameWait_read (p : Params) (reg : BitVec 3) (k : Nat) (e : Env) :
    SameWait e (readResult p reg k e).env := by
  refine SameWait.trans (sameWait_granted p.periphAddr .write k e) ?_
  have h := envAfterAttempt_wait p.periphAddr .read ((envWhenGranted p.periphAddr .write k e).afterTx (regByte reg))
  simp only [readResult]
  split <;> exact h

theorem sameWait_row (p : Params) (y : BitVec 2) (k : RowTries) (e : Env) : SameWait e (rowResult p y k e).env :=
  ((sameWait_write ..).trans (sameWait_read ..)).trans (sameWait_write ..)

theorem sameWait_scan (p : Params) (k : Fin 4 → RowTries) (e : Env) : SameWait e (scanResult p k e).env :=
  (((sameWait_row ..).trans (sameWait_row ..)).trans (sameWait_row ..)).trans (sameWait_row ..)

/-! ## Register accesses -/

/-- The states agree in everything that a register access or a scan of the keypad cannot change. -/
def SameButBus (s t : State) : Prop :=
  t = { s with
    env := t.env, rx := t.rx, failAcc := t.failAcc, mode := t.mode, todo := t.todo, trace := t.trace
    busStat := t.busStat, stepFail := t.stepFail, attempts := t.attempts, sclDrv := t.sclDrv, sdaDrv := t.sdaDrv
    acc := t.acc }

theorem SameButBus.trans {s t u : State} (h1 : SameButBus s t) (h2 : SameButBus t u) : SameButBus s u := by
  cases s
  cases t
  cases u
  simp_all [SameButBus]

theorem SameButBus.par {s t : State} (h : SameButBus s t) : t.par = s.par := by
  rw [h]

/-- What a register access, a row scan or a scan of the keypad leaves: the bus is IDLE, the failure of any of its steps is
noted, and ATTEMPTS is that of its last retry. -/
structure AccessLeaves (s : State) (e : Env) (v : Byte) (acc : Mask) (failed : Bool) (k : Nat) (rest : List SeqOp)
    (t : State) : Prop where
  env : t.env = e
  rx : t.rx = v
  acc : t.acc = acc
  failAcc : t.failAcc = (s.failAcc || failed)
  idle : t.mode = .idle
  attempts : t.attempts.toNat = min (k + 1) 0xFFFF
  todo : t.todo = rest
  same : SameButBus s t

/-- write_reg_seq, granted after `k` refused attempts (R151, R153). -/
theorem reaches_writeReg_any {s : State} {reg : BitVec 3} {v : Byte} {k : Nat} {rest : List SeqOp}
    (ht : s.todo = writeRegSeq s.par reg v ++ rest) (hg : grantsAfter s.par s.par.periphAddr .write k s.env = true) :
    ∃ t, Reaches (5 * k + 10) s t ∧
      AccessLeaves s (writeResult s.par reg v k s.env).env s.rx s.acc (writeResult s.par reg v k s.env).failed k rest t := by
  obtain ⟨es, c, hc, r1⟩ := reaches_retry
    (rest := .tx (regByte reg) :: .noteFail :: .tx v :: .noteFail :: .stop :: rest)
    (show s.todo = retrySeq s.par.periphAddr .write ++ _ by rw [ht]; simp [writeRegSeq]) hg
  refine ⟨_, r1.trans (reaches_of_run (n := 5) rfl), ?_⟩
  generalize he : envWhenGranted s.par.periphAddr .write k s.env = e
  cases h1 : e.txAnswer <;> cases h2 : (e.afterTx (regByte reg)).txAnswer <;>
    constructor <;>
    simp [SameButBus, State.runOps, State.doOp, State.opTx, ackMode, State.record, State.setBus, State.setFail,
      State.opStop, writeResult, he, h1, h2, hc]

/-- read_reg_seq, granted after `k` refused attempts (R151, R155). -/
theorem reaches_readReg_any {s : State} {reg : BitVec 3} {k : Nat} {rest : List SeqOp}
    (ht : s.todo = readRegSeq s.par reg ++ rest) (hg : grantsAfter s.par s.par.periphAddr .write k s.env = true) :
    ∃ t, Reaches (5 * k + 13) s t ∧
      AccessLeaves s (readResult s.par reg k s.env).env (readResult s.par reg k s.env).value s.acc
        (readResult s.par reg k s.env).failed k rest t := by
  obtain ⟨es, c, hc, r1⟩ := reaches_retry
    (rest := .tx (regByte reg) :: .noteFail :: .start s.par.periphAddr .read :: .noteFail :: .rx false :: .noteFail ::
      .stop :: rest)
    (show s.todo = retrySeq s.par.periphAddr .write ++ _ by rw [ht]; simp [readRegSeq]) hg
  generalize he : envWhenGranted s.par.periphAddr .write k s.env = e at r1
  by_cases hs : (e.afterTx (regByte reg)).startAnswer = .ok
  · refine ⟨_, r1.trans (reaches_of_run (n := 8) rfl), ?_⟩
    cases h1 : e.txAnswer <;>
      cases h2 : (e.afterTx (regByte reg)).afterStart.addressAnswer s.par (addressByte s.par.periphAddr .read) <;>
      constructor <;>
    simp [SameButBus, State.runOps, State.doOp, State.opTx, ackMode, State.record, State.setBus, State.setFail,
        State.opStop, State.opStart, State.opAddress, State.opRx, readResult, attemptOk, envAfterAttempt, readFailValue,
        he, h1, h2, hs, hc]
  · refine ⟨_, (r1.trans (reaches_of_run (n := 7) rfl)).mono (by omega), ?_⟩
    cases h3 : (e.afterTx (regByte reg)).startAnswer <;> first | exact absurd h3 hs | skip
    all_goals
      cases h1 : e.txAnswer <;>
      constructor <;>
    simp [SameButBus, State.runOps, State.doOp, State.opTx, ackMode, State.record, State.setBus, State.setFail,
        State.opStop, State.opStart, State.opRx, readResult, attemptOk, envAfterAttempt, readFailValue, he, h1, h3, hc]

/-! ## Scans -/

/-- scan_row_seq, its three retries granted (R171, R184). -/
theorem reaches_scanRow_any {s : State} {y : BitVec 2} {k : RowTries} {rest : List SeqOp}
    (ht : s.todo = scanRowSeq s.par y ++ rest) (hg : rowGranted s.par y k s.env) :
    ∃ t, Reaches (5 * k.refused + 34) s t ∧
      AccessLeaves s (rowResult s.par y k s.env).env (columnResult s.par y k s.env).value s.acc
        (rowResult s.par y k s.env).failed k.restore rest t := by
  obtain ⟨g1, g2, g3⟩ := hg
  obtain ⟨t, r1, h1⟩ := reaches_writeReg_any (s := s) (reg := s.par.rowReg) (v := rowSelect s.par y) (k := k.select)
    (rest := settleSeq s.par ++ (readRegSeq s.par s.par.colReg ++ (writeRegSeq s.par s.par.rowReg 0xFF#8 ++ rest)))
    (by rw [ht]; simp [scanRowSeq]) g1
  have p1 := h1.same.par
  have e1 : t.env = (selectResult s.par y k s.env).env := h1.env
  have r2 := r1.trans (reaches_settle (s := t)
    (rest := readRegSeq s.par s.par.colReg ++ (writeRegSeq s.par s.par.rowReg 0xFF#8 ++ rest)) (by rw [p1, h1.todo]))
  generalize hu : ({ t with
      trace := t.trace ++ settleEvents t.par
      todo := readRegSeq s.par s.par.colReg ++ (writeRegSeq s.par s.par.rowReg 0xFF#8 ++ rest) } : State) = u at r2
  have s2 : SameButBus s u := h1.same.trans (by subst hu; rfl)
  have e2 : u.env = (selectResult s.par y k s.env).env := by subst hu; exact e1
  obtain ⟨w, r3, h3⟩ := reaches_readReg_any (s := u) (reg := s.par.colReg) (k := k.read)
    (rest := writeRegSeq s.par s.par.rowReg 0xFF#8 ++ rest) (by rw [s2.par]; subst hu; rfl)
    (by rw [s2.par, e2]; exact g2)
  rw [s2.par, e2] at h3
  have s3 := s2.trans h3.same
  have e3 : w.env = (columnResult s.par y k s.env).env := h3.env
  obtain ⟨z, r4, h4⟩ := reaches_writeReg_any (s := w) (reg := s.par.rowReg) (v := 0xFF#8) (k := k.restore)
    (rest := rest) (by rw [s3.par, h3.todo]) (by rw [s3.par, e3]; exact g3)
  rw [s3.par, e3] at h4
  refine ⟨z, ((r2.trans r3).trans r4).mono (by simp only [RowTries.refused]; omega), h4.env, h4.rx.trans h3.rx, ?_, ?_,
    h4.idle, h4.attempts, h4.todo, s3.trans h4.same⟩
  · rw [h4.acc, h3.acc]; subst hu; exact h1.acc
  · have f2 : u.failAcc = (s.failAcc || (selectResult s.par y k s.env).failed) := by subst hu; exact h1.failAcc
    rw [h4.failAcc, h3.failAcc, f2, Bool.or_assoc, Bool.or_assoc, ← Bool.or_assoc]
    simp only [rowResult, columnResult, Bool.or_assoc]

/-- One row of scan_keypad_seq: the scan and its nibble (R173). -/
theorem reaches_accRow_any {s : State} {y : BitVec 2} {k : RowTries} {rest : List SeqOp}
    (ht : s.todo = scanRowSeq s.par y ++ .accRow :: rest) (hg : rowGranted s.par y k s.env) :
    ∃ t, Reaches (5 * k.refused + 35) s t ∧
      AccessLeaves s (rowResult s.par y k s.env).env (columnResult s.par y k s.env).value
        (accShift s.acc (rowResult s.par y k s.env).value) (rowResult s.par y k s.env).failed k.restore rest t := by
  obtain ⟨t, r, h⟩ := reaches_scanRow_any ht hg
  refine ⟨_, r.trans (reaches_step h.todo rfl), h.env, h.rx, ?_, h.failAcc, h.idle, h.attempts, rfl,
    h.same.trans rfl⟩
  simp only [State.doOp, h.acc, h.rx, h.same.par]
  rfl

/-- scan_keypad_seq, its twelve retries granted (R173, R184). -/
theorem reaches_scanKeypad_any {s : State} {k : Fin 4 → RowTries} {rest : List SeqOp}
    (ht : s.todo = scanKeypadSeq s.par ++ rest) (hg : scanGranted s.par k s.env) :
    ∃ (t : State) (v : Byte), Reaches (5 * refusedInScan k + 141) s t ∧
      AccessLeaves s (scanResult s.par k s.env).env v (scanResult s.par k s.env).value (scanResult s.par k s.env).failed
        (k 0).restore rest t := by
  obtain ⟨g3, g2, g1, g0⟩ := hg
  have r0 := reaches_step (s := s) (op := .accZero)
    (rest := (scanOrder.flatMap fun r => scanRowSeq s.par r ++ [.accRow]) ++ rest) (by rw [ht]; rfl) rfl
  generalize hs : ({ s with
    todo := (scanOrder.flatMap fun r => scanRowSeq s.par r ++ [.accRow]) ++ rest } : State).doOp .accZero = s0 at r0
  have b0 : SameButBus s s0 := by subst hs; rfl
  have e0 : s0.env = s.env := by subst hs; rfl
  obtain ⟨t3, r3, h3⟩ := reaches_accRow_any (s := s0) (y := 3#2) (k := k 3)
    (rest := scanRowSeq s.par 2#2 ++ .accRow :: (scanRowSeq s.par 1#2 ++ .accRow :: (scanRowSeq s.par 0#2 ++ .accRow :: rest)))
    (by rw [b0.par]; subst hs; simp [State.doOp, scanOrder]) (by rw [b0.par, e0]; exact g3)
  rw [b0.par, e0] at h3
  have b3 := b0.trans h3.same
  obtain ⟨t2, r2, h2⟩ := reaches_accRow_any (s := t3) (y := 2#2) (k := k 2)
    (rest := scanRowSeq s.par 1#2 ++ .accRow :: (scanRowSeq s.par 0#2 ++ .accRow :: rest))
    (by rw [b3.par, h3.todo]) (by rw [b3.par, h3.env]; exact g2)
  rw [b3.par, h3.env] at h2
  have b2 := b3.trans h2.same
  obtain ⟨t1, r1, h1⟩ := reaches_accRow_any (s := t2) (y := 1#2) (k := k 1)
    (rest := scanRowSeq s.par 0#2 ++ .accRow :: rest) (by rw [b2.par, h2.todo]) (by rw [b2.par, h2.env]; exact g1)
  rw [b2.par, h2.env] at h1
  have b1 := b2.trans h1.same
  obtain ⟨t0, r0', h0⟩ := reaches_accRow_any (s := t1) (y := 0#2) (k := k 0)
    (rest := rest) (by rw [b1.par, h1.todo]) (by rw [b1.par, h1.env]; exact g0)
  rw [b1.par, h1.env] at h0
  refine ⟨t0, _, ((((r0.trans r3).trans r2).trans r1).trans r0').mono (by simp only [refusedInScan]; omega), h0.env, h0.rx,
    ?_, ?_, h0.idle, h0.attempts, h0.todo, b1.trans h0.same⟩
  · have ha : s0.acc = 0#16 := by subst hs; rfl
    rw [h0.acc, h1.acc, h2.acc, h3.acc, ha]
    exact accShift_four ..
  · have hf : s0.failAcc = s.failAcc := by subst hs; rfl
    rw [h0.failAcc, h1.failAcc, h2.failAcc, h3.failAcc, hf]
    simp only [scanResult, Bool.or_assoc]

/-- The two scans of SCAN_EDGE and the wait between them, all twenty-four retries granted (R176, R178, R184). -/
theorem reaches_scanEdge_any {s : State} {k l : Fin 4 → RowTries} {rest : List SeqOp}
    (ht : s.todo = scanEdgeSeq s.par ++ rest) (hg : scanGranted s.par k s.env)
    (hg' : scanGranted s.par l (scanResult s.par k s.env).env.afterWait) :
    let a := scanResult s.par k s.env
    let b := scanResult s.par l a.env.afterWait
    ∃ t, Reaches (5 * (refusedInScan k + refusedInScan l) + debounceCycles s.par + s.env.extraWait + 286) s t ∧
      t.env = b.env ∧ t.s1 = a.value ∧ t.s2 = b.value ∧ t.failAcc = (s.failAcc || a.failed || b.failed) ∧
      t.mode = .idle ∧ t.attempts.toNat = min ((l 0).restore + 1) 0xFFFF ∧ t.todo = rest ∧
      SameButBus { s with s1 := a.value, s2 := b.value, timer := .idle } t := by
  intro a b
  obtain ⟨t, v, r1, h1⟩ := reaches_scanKeypad_any (s := s) (k := k)
    (rest := .saveS1 :: .waitBegin :: .waitTick :: (scanKeypadSeq s.par ++ .saveS2 :: rest))
    (by rw [ht]; simp [scanEdgeSeq]) hg
  have r2 := r1.trans (reaches_wait h1.todo)
  rw [h1.same.par, h1.env, (sameWait_scan s.par k s.env).extraWait] at r2
  generalize hu : ({ t with
      par := s.par, s1 := t.acc, timer := .idle, env := (scanResult s.par k s.env).env.afterWait, trace := t.trace ++ [.w tDebounce]
      todo := scanKeypadSeq s.par ++ .saveS2 :: rest } : State) = u at r2
  have pu : u.par = s.par := by subst hu; rfl
  have eu : u.env = a.env.afterWait := by subst hu; rfl
  obtain ⟨w, v', r3, h2⟩ := reaches_scanKeypad_any (s := u) (k := l) (rest := .saveS2 :: rest)
    (by rw [pu]; subst hu; rfl) (by rw [pu, eu]; exact hg')
  rw [pu, eu] at h2
  have su : SameButBus { s with s1 := a.value, timer := .idle } u := by
    have h := h1.same
    have h' := h1.acc
    subst hu
    cases s
    cases t
    simp_all [SameButBus, a]
  have sw := su.trans h2.same
  have r4 := (r2.trans r3).trans (reaches_step h2.todo rfl)
  refine ⟨_, r4.mono (by omega), h2.env, ?_, h2.acc, ?_, h2.idle, h2.attempts, rfl, ?_⟩
  · have h : w.s1 = a.value := by rw [sw]
    exact h
  · have h : u.failAcc = (s.failAcc || a.failed) := by subst hu; exact h1.failAcc
    have h' := h2.failAcc
    rw [h] at h'
    exact h'
  · have h := h2.acc
    generalize a.value = x, b.value = y at *
    clear r1 r2 r3 r4 h1 h2 hg hg' su
    simp only [State.doOp]
    subst h
    unfold SameButBus at *
    rw [sw]

end Sys2Proof.Machine
end

