-- ==== Sys2Proof/Laws/Failures.lean ====
section
/-! SUPPORT. Scans whose column reads may fail (42_keypad_scan.md R184; 41_register_access.md R151): SIMX with a script in
which the repeated start of a read is answered NACK or not. -/

namespace Sys2Proof.Machine

/-- SIMX with a script in which the coming column reads give these bytes, or fail where there is none. -/
def ScriptedReads (e : Env) (rs : List (Option Byte)) (ad : List AckAnswer) (vs : List Byte) : Prop :=
  (∃ m, e.device = .simx m ∧ StoreOk m.mx) ∧ e.starts = [] ∧ e.txs = [] ∧ e.addrs = scriptedReads rs ++ ad ∧
  e.rxs = rs.filterMap id ++ vs

theorem columnNibble_ones (p : Params) : columnNibble p 0xFF#8 = 0xF#4 := by
  unfold columnNibble
  generalize p.colShift = k
  revert k
  decide

/-- One row of a scan whose column read succeeds or fails as the script says: the nibble, the failure noted, the row
register restored, and the script of the later rows left (R171, R173, R184). -/
theorem reaches_accRow_scripted {s : State} {y : BitVec 2} {r : Option Byte} {rs : List (Option Byte)}
    {ad : List AckAnswer} {vs : List Byte} {rest : List SeqOp}
    (ht : s.todo = scanRowSeq s.par y ++ .accRow :: rest) (hm : s.mode = .idle)
    (he : ScriptedReads s.env (r :: rs) ad vs) :
    ∃ (e : Env) (v : Byte) (es : List Event), Reaches 35 s
      { s with
        env := e, rx := v, acc := accShift s.acc (nibbleOf s.par r), failAcc := s.failAcc || r.isNone, trace := es
        mode := .idle, busStat := .noInfo, stepFail := false, attempts := 1#16
        sclDrv := .released, sdaDrv := .released, todo := rest } ∧
      ScriptedReads e rs ad vs ∧ e.extraWait = s.env.extraWait ∧ e.device.store.read s.par.rowReg.toNat = 0xFF#8 := by
  obtain ⟨⟨m, hd, hst⟩, h1, h2, h3, h4⟩ := he
  generalize hE : s.env = E at *
  obtain ⟨dev, st, as, ts, xs, ws, dr, wd⟩ := E
  simp only at hd h1 h2 h3 h4
  subst hd h1 h2 h3 h4
  have hst2 := storeOk_write (storeOk_write hst (a := s.par.rowReg.toNat) (by omega) (rowSelect s.par y))
    (a := s.par.rowReg.toNat) (by omega) 0xFF#8
  cases r with
  | some v =>
    have hok : ScanRowOk s.par y s.env := by
      simp [hE, ScanRowOk, WriteOk, ReadOk, attemptOk, scriptedReads, envAfterRead, envAfterPointer, envAfterWrite,
        envAfterAttempt, Env.startAnswer, Env.addressAnswer, Env.afterStart, Env.txAnswer, Env.afterAddress, Env.afterTx,
        Env.afterRx]
    have hr := reaches_accRow ht hm hok
    have hv : rowByte s.par y s.env = v := by
      simp [hE, rowByte, readByte, scriptedReads, envAfterPointer, envAfterWrite,
        envAfterAttempt, Env.startAnswer, Env.afterStart, Env.afterAddress, Env.afterTx, Env.rxAnswer]
    rw [hv] at hr
    refine ⟨_, _, _, by simpa [nibbleOf] using hr, ?_⟩
    simp [hE, ScriptedReads, scriptedReads, envAfterRow, envAfterRead, envAfterPointer, envAfterWrite,
        envAfterAttempt, Env.startAnswer, Env.afterStart, Env.afterAddress, Env.afterTx,
        Env.afterRx, Env.extraWait, afterPointer_sim, Device.store]
    simp only [SimX.afterTx, SimX.afterAddress, Bool.false_eq_true, if_false]
    exact ⟨hst2, Memory.read_write (storeOk_write hst (by omega) _).1 .. |>.trans (if_pos rfl)⟩
  | none =>
    have r1 := reaches_writeReg (s := s) (reg := s.par.rowReg) (v := rowSelect s.par y)
      (rest := settleSeq s.par ++
        (readRegSeq s.par s.par.colReg ++ (writeRegSeq s.par s.par.rowReg 0xFF#8 ++ .accRow :: rest)))
      (by rw [ht]; simp [scanRowSeq]) hm
      (by simp [WriteOk, hE, scriptedReads, attemptOk, envAfterAttempt, Env.startAnswer, Env.addressAnswer,
        Env.afterStart, Env.txAnswer, Env.afterAddress, Env.afterTx])
    have r2 := r1.trans (reaches_settle rfl)
    obtain ⟨es, c, r3⟩ := reaches_readReg_nack (reg := s.par.colReg)
      (rest := writeRegSeq s.par s.par.rowReg 0xFF#8 ++ .accRow :: rest)
      (s := { s with
        env := envAfterWrite s.par s.par.rowReg (rowSelect s.par y) s.env
        trace := s.trace ++ writeRegEvents s.par s.par.rowReg (rowSelect s.par y) ++ settleEvents s.par
        mode := .idle, busStat := .noInfo, stepFail := false, attempts := 1#16
        sclDrv := .released, sdaDrv := .released
        todo := readRegSeq s.par s.par.colReg ++ (writeRegSeq s.par s.par.rowReg 0xFF#8 ++ .accRow :: rest) }) rfl
      (by simp [hE, scriptedReads, attemptOk, envAfterWrite, envAfterAttempt, Env.startAnswer, Env.addressAnswer,
        Env.afterStart, Env.afterAddress, Env.afterTx])
      (by simp [hE, envAfterWrite, envAfterAttempt, Env.startAnswer, Env.afterStart, Env.txAnswer, Env.afterAddress,
        Env.afterTx])
      (by simp [hE, envAfterPointer, envAfterWrite, envAfterAttempt, Env.startAnswer, Env.afterStart,
        Env.afterAddress, Env.afterTx])
      (by simp [hE, scriptedReads, envAfterPointer, envAfterWrite, envAfterAttempt, Env.startAnswer,
        Env.addressAnswer, Env.afterStart, Env.afterAddress, Env.afterTx])
    have r4 := ((r2.trans r3).trans (reaches_writeReg rfl rfl
      (by simp [WriteOk, hE, scriptedReads, envAfterPointer, envAfterWrite, attemptOk, envAfterAttempt,
        Env.startAnswer, Env.addressAnswer, Env.afterStart, Env.txAnswer, Env.afterAddress, Env.afterTx]))).trans
      (reaches_step (op := .accRow) (rest := rest) (by rfl) rfl)
    refine ⟨_, _, _, by simpa [nibbleOf, State.doOp, columnNibble_ones] using r4, ?_⟩
    simp [hE, ScriptedReads, scriptedReads, envAfterPointer, envAfterWrite,
        envAfterAttempt, Env.startAnswer, Env.afterStart, Env.afterAddress, Env.afterTx,
        Env.extraWait, afterPointer_sim, Device.store]
    simp only [SimX.afterTx, SimX.afterAddress, Bool.false_eq_true, if_false]
    exact ⟨hst2, Memory.read_write (storeOk_write hst (by omega) _).1 .. |>.trans (if_pos rfl)⟩

/-- A list of rows read as the script says (R173, R184). -/
theorem reaches_rows_scripted (ys : List (BitVec 2)) {ad : List AckAnswer} {vs : List Byte} {rest : List SeqOp} :
    ∀ (rs qs : List (Option Byte)) (s : State), rs.length = ys.length → ys ≠ [] →
      s.todo = (ys.flatMap fun r => scanRowSeq s.par r ++ [.accRow]) ++ rest → s.mode = .idle →
      ScriptedReads s.env (rs ++ qs) ad vs →
      ∃ (e : Env) (v : Byte) (es : List Event), Reaches (35 * ys.length) s
        { s with
          env := e, rx := v, acc := rs.foldl (fun m r => accShift m (nibbleOf s.par r)) s.acc
          failAcc := s.failAcc || rs.any (·.isNone), trace := es
          mode := .idle, busStat := .noInfo, stepFail := false, attempts := 1#16
          sclDrv := .released, sdaDrv := .released, todo := rest } ∧
        ScriptedReads e qs ad vs ∧ e.extraWait = s.env.extraWait ∧ e.device.store.read s.par.rowReg.toNat = 0xFF#8 := by
  induction ys with
  | nil => intro _ _ _ _ h; exact absurd rfl h
  | cons y ys ih =>
    intro rs qs s hl _ ht hm he
    cases rs with
    | nil => simp at hl
    | cons r rs =>
      obtain ⟨e, v, es, r1, h1, h2, h3⟩ := reaches_accRow_scripted (s := s) (y := y) (r := r) (rs := rs ++ qs)
        (rest := (ys.flatMap fun r => scanRowSeq s.par r ++ [.accRow]) ++ rest) (by rw [ht]; simp) hm he
      by_cases hy : ys = []
      · subst hy
        have hr : rs = [] := by simpa using hl
        subst hr
        exact ⟨e, v, es, by simpa using r1, h1, h2, h3⟩
      · obtain ⟨e', v', es', r2, h4, h5, h6⟩ := ih rs qs
          { s with
            env := e, rx := v, acc := accShift s.acc (nibbleOf s.par r), failAcc := s.failAcc || r.isNone, trace := es
            mode := .idle, busStat := .noInfo, stepFail := false, attempts := 1#16
            sclDrv := .released, sdaDrv := .released
            todo := (ys.flatMap fun r => scanRowSeq s.par r ++ [.accRow]) ++ rest } (by simpa using hl) hy rfl rfl h1
        refine ⟨e', v', es', ?_, h4, h5.trans h2, h6⟩
        have r3 := (r1.trans r2).mono (show _ ≤ 35 * (y :: ys).length by simp; omega)
        simpa [Bool.or_assoc] using r3

/-- scan_keypad_seq with its four column reads as the script says (R173, R184). -/
theorem reaches_scanKeypad_scripted {s : State} {rest : List SeqOp} {r3 r2 r1 r0 : Option Byte}
    {qs : List (Option Byte)} {ad : List AckAnswer} {vs : List Byte} (ht : s.todo = scanKeypadSeq s.par ++ rest)
    (hm : s.mode = .idle) (he : ScriptedReads s.env (r3 :: r2 :: r1 :: r0 :: qs) ad vs) :
    ∃ (e : Env) (v : Byte) (es : List Event), Reaches 141 s
      { s with
        env := e, rx := v
        acc := fourNibbles (nibbleOf s.par r3) (nibbleOf s.par r2) (nibbleOf s.par r1) (nibbleOf s.par r0)
        failAcc := s.failAcc || [r3, r2, r1, r0].any (·.isNone), trace := es
        mode := .idle, busStat := .noInfo, stepFail := false, attempts := 1#16
        sclDrv := .released, sdaDrv := .released, todo := rest } ∧
      ScriptedReads e qs ad vs ∧ e.extraWait = s.env.extraWait ∧ e.device.store.read s.par.rowReg.toNat = 0xFF#8 := by
  obtain ⟨e, v, es, r, h⟩ := reaches_rows_scripted scanOrder (rest := rest) [r3, r2, r1, r0] qs
    { s with acc := 0#16, todo := (scanOrder.flatMap fun r => scanRowSeq s.par r ++ [.accRow]) ++ rest } rfl
    (by decide) rfl hm he
  refine ⟨e, v, es, ?_, h⟩
  have r' := (reaches_step (by rw [ht]; rfl) rfl).trans r
  have r'' := r'.mono (show 1 + 35 * scanOrder.length ≤ 141 by decide)
  simpa [accShift_four] using r''

/-- The two scans of SCAN_EDGE and the wait between them, with the eight column reads as the script says. -/
theorem reaches_scanEdge_scripted {s : State} {rest : List SeqOp} {a3 a2 a1 a0 b3 b2 b1 b0 : Option Byte}
    {ad : List AckAnswer} {vs : List Byte} (ht : s.todo = scanEdgeSeq s.par ++ rest) (hm : s.mode = .idle)
    (he : ScriptedReads s.env [a3, a2, a1, a0, b3, b2, b1, b0] ad vs) :
    let n := nibbleOf s.par
    ∃ (e : Env) (v : Byte) (es : List Event), Reaches (debounceCycles s.par + s.env.extraWait + 286) s
      { s with
        env := e, rx := v, acc := fourNibbles (n b3) (n b2) (n b1) (n b0)
        s1 := fourNibbles (n a3) (n a2) (n a1) (n a0), s2 := fourNibbles (n b3) (n b2) (n b1) (n b0), timer := .idle
        failAcc := s.failAcc || [a3, a2, a1, a0, b3, b2, b1, b0].any (·.isNone), trace := es
        mode := .idle, busStat := .noInfo, stepFail := false, attempts := 1#16
        sclDrv := .released, sdaDrv := .released, todo := rest } ∧
      e.device.store.read s.par.rowReg.toNat = 0xFF#8 := by
  intro n
  obtain ⟨e, v, es, r1, h1, h2, -⟩ := reaches_scanKeypad_scripted
    (rest := .saveS1 :: .waitBegin :: .waitTick :: (scanKeypadSeq s.par ++ .saveS2 :: rest))
    (by rw [ht]; simp [scanEdgeSeq]) hm he
  have r2 := r1.trans (reaches_wait rfl)
  obtain ⟨e', v', es', r3, -, -, h6⟩ := reaches_scanKeypad_scripted (rest := .saveS2 :: rest)
    (s := { s with
      env := e.afterWait, rx := v, acc := fourNibbles (n a3) (n a2) (n a1) (n a0)
      s1 := fourNibbles (n a3) (n a2) (n a1) (n a0), timer := .idle
      failAcc := s.failAcc || [a3, a2, a1, a0].any (·.isNone), trace := es ++ [.w tDebounce]
      mode := .idle, busStat := .noInfo, stepFail := false, attempts := 1#16
      sclDrv := .released, sdaDrv := .released, todo := scanKeypadSeq s.par ++ .saveS2 :: rest }) rfl rfl h1
  refine ⟨e', v', es', ?_, h6⟩
  have r4 := (r2.trans r3).trans (reaches_step rfl rfl)
  simp only [h2] at r4
  refine Reaches.mono ?_ (show 141 + (debounceCycles s.par + s.env.extraWait + 3) + 141 + 1 ≤
    debounceCycles s.par + s.env.extraWait + 286 by omega)
  simpa [State.doOp, Bool.or_assoc, n] using r4

end Sys2Proof.Machine
end

