-- ==== Sys2Proof/Laws/Keypad.lean ====
section
/-! SUPPORT. What a scan reads from the keypad expander SIMK with the default wiring (20_memory.md R65; 42_keypad_scan.md
R175): the complement of the set of pressed keys. -/

namespace Sys2Proof.Machine

/-- Under the default wiring, with row `y` selected, row r's line is low exactly for r = y. -/
theorem rowLevel_selected {p : Params} (hw : defaultWiring p) (y : BitVec 2) (m : SimX)
    (hm : m.mx.read p.rowReg.toNat = rowSelect p y) (r : Fin 4) :
    m.rowLevel p r = decide (r.val ≠ y.toNat) := by
  obtain ⟨-, -, w3, -⟩ := hw
  simp only [SimX.rowLevel, hm, rowSelect, w3]
  clear hm
  revert r y
  decide

/-- Four columns written into the high nibble of a byte, as SIMK does it, are that nibble. -/
theorem high_nibble (z : Byte) (a b c d : Bool) :
    ((List.range 4).foldl (fun v i => setBit v (4 + i) (!([a, b, c, d][i]?.getD false))) z).extractLsb' 4 4 =
      ~~~(BitVec.ofBool d ++ BitVec.ofBool c ++ BitVec.ofBool b ++ BitVec.ofBool a) := by
  revert z a b c d
  decide +kernel

/-- The nibble of SIMK's answer while row `y` is selected: the complement of that row's pressed keys (R65). -/
theorem columns_selected {p : Params} (hw : defaultWiring p) (y : BitVec 2) (k : Mask) (m : SimX)
    (hm : m.mx.read p.rowReg.toNat = rowSelect p y) :
    columnNibble p (m.columns p k) = (~~~k).extractLsb' (4 * y.toNat) 4 := by
  have hrow := rowLevel_selected hw y m hm
  obtain ⟨-, -, w3, w4⟩ := hw
  simp only [SimX.columns, SimX.columnLow, hrow, w3, columnNibble, w4]
  generalize List.foldl _ (Memory.read _ _) _ = z
  have hany : ∀ c, ((List.finRange 4).any fun r => k.getLsbD (4 * r.val + c) && !(decide (r.val ≠ y.toNat))) =
      k.getLsbD (4 * y.toNat + c) := by
    intro c
    have h : ∀ f : Fin 4 → Bool, ((List.finRange 4).any fun r => f r && !(decide (r.val ≠ y.toNat))) =
        f ⟨y.toNat, y.isLt⟩ := by
      clear hm hrow
      revert y
      decide
    exact h fun r => k.getLsbD (4 * r.val + c)
  simp only [hany]
  refine Eq.trans (high_nibble z (k.getLsbD (4 * y.toNat + 0)) (k.getLsbD (4 * y.toNat + 1))
    (k.getLsbD (4 * y.toNat + 2)) (k.getLsbD (4 * y.toNat + 3))) ?_
  apply BitVec.eq_of_getLsbD_eq
  intro i hi
  have := y.isLt
  simp only [BitVec.getLsbD_extractLsb', BitVec.getLsbD_not, BitVec.getLsbD_append]
  interval_cases i <;> simp <;> omega

/-- One row of a scan of SIMK whose keys do not change: the nibble, and the device is as it was but for its store. -/
theorem rowByte_simk {e : Env} {m : SimX} {k : Mask} {p : Params} (hw : defaultWiring p) (hp : e.Plain)
    (hd : e.device = .simk m [k]) (hs : StoreOk m.mx) (hr : e.rxs = []) (y : BitVec 2) :
    columnNibble p (rowByte p y e) = (~~~k).extractLsb' (4 * y.toNat) 4 ∧
      ∃ m', (envAfterRow p y e).device = .simk m' [k] ∧ StoreOk m'.mx ∧ (envAfterRow p y e).rxs = [] := by
  have hd1 := plain_envAfterWrite_device hp p p.rowReg (rowSelect p y)
  rw [hd] at hd1
  have hp1 := plain_envAfterWrite hp p p.rowReg (rowSelect p y)
  have hd2 := plain_envAfterPointer_device hp1 p p.colReg
  rw [hd1] at hd2
  constructor
  · rw [rowByte, readByte, plain_afterAttempt (plain_envAfterPointer hp1 ..)]
    simp only [Env.rxAnswer, Env.afterAddress, Env.afterStart, hd2, Device.mapSim]
    have h : (envAfterPointer p p.colReg (envAfterWrite p p.rowReg (rowSelect p y) e)).rxs = [] := by
      rw [envAfterPointer, plain_afterAttempt hp1, envAfterWrite, plain_afterAttempt hp]
      exact hr
    rw [h]
    simp only [SimX.afterAddress, if_true, List.headD_cons]
    refine columns_selected hw y k _ ?_
    rw [Memory.read_write hs.1, if_pos rfl]
  · have hrd := plain_envAfterRead hp1 p p.colReg
    have hd3 : (envAfterRead p p.colReg (envAfterWrite p p.rowReg (rowSelect p y) e)).device =
        .simk { mx := m.mx.write p.rowReg.toNat (rowSelect p y), px := p.colReg, pointerNext := false } [k] := by
      rw [envAfterRead, plain_afterAttempt (plain_envAfterPointer hp1 ..)]
      have h0 : (addressByte p.periphAddr .read).getLsbD 0 = true := by
        generalize p.periphAddr = a
        revert a
        decide
      simp only [Env.afterRx, Env.afterAddress, Env.afterStart, hd2, Device.mapSim, SimX.afterAddress, h0, if_true,
        nextKeys, Bool.not_true]
    rw [envAfterRow, plain_envAfterWrite_device hrd, hd3]
    refine ⟨_, rfl, ?_, ?_⟩
    · exact storeOk_write (storeOk_write hs (by omega) _) (by omega) _
    · rw [envAfterWrite_rxs hrd, envAfterRead_rxs hp1, envAfterWrite_rxs hp, hr]
      rfl

/-- A list of rows of SIMK whose keys do not change: the nibbles, and the device afterwards. -/
theorem rowBytes_simk {k : Mask} {p : Params} (hw : defaultWiring p) (ys : List (BitVec 2)) :
    ∀ {m : SimX} {e : Env}, e.Plain → e.device = .simk m [k] → StoreOk m.mx → e.rxs = [] →
      ((rowBytes p ys e).map (columnNibble p) = ys.map fun y => (~~~k).extractLsb' (4 * y.toNat) 4) ∧
        ∃ m', (envAfterRows p ys e).device = .simk m' [k] ∧ StoreOk m'.mx ∧ (envAfterRows p ys e).rxs = [] := by
  induction ys with
  | nil => intro m e _ hd hs hr; exact ⟨rfl, m, hd, hs, hr⟩
  | cons y ys ih =>
    intro m e hp hd hs hr
    obtain ⟨h1, m', h2, h3, h4⟩ := rowByte_simk hw hp hd hs hr y
    obtain ⟨h5, h6⟩ := ih (plain_envAfterRow hp ..) h2 h3 h4
    exact ⟨by simp only [rowBytes, List.map_cons, h1, h5], h6⟩

/-- A scan of SIMK whose keys do not change gives the complement of the pressed keys (R175). -/
theorem accBytes_simk {m : SimX} {k : Mask} {p : Params} {e : Env} (hw : defaultWiring p) (hp : e.Plain)
    (hd : e.device = .simk m [k]) (hs : StoreOk m.mx) (hr : e.rxs = []) (acc : Mask) :
    accBytes p acc (rowBytes p scanOrder e) = ~~~k := by
  have hb := (rowBytes_simk hw scanOrder hp hd hs hr).1
  have hl : ∃ a b c d, rowBytes p scanOrder e = [a, b, c, d] := ⟨_, _, _, _, rfl⟩
  obtain ⟨a, b, c, d, hl⟩ := hl
  rw [hl] at hb
  simp only [scanOrder, List.map_cons, List.map_nil, List.cons.injEq] at hb
  obtain ⟨h1, h2, h3, h4, -⟩ := hb
  rw [hl, accBytes_four, h1, h2, h3, h4]
  apply BitVec.eq_of_getLsbD_eq
  intro i hi
  simp only [fourNibbles, BitVec.getLsbD_append, BitVec.getLsbD_extractLsb']
  interval_cases i <;> simp

end Sys2Proof.Machine
end

