-- ==== Sys2Proof/Laws/PerInstr.lean ====
section
/-! SUPPORT. A statement about every command as syntax: its word has the match value of its row of the opcode table
under the row's mask (30_encoding.md R87). -/

namespace Sys2Proof.Laws.EncodeRow

/-- The encoded command is a word of its own row. -/
def Statement (i : Instr) : Prop := encode i &&& (opRow i).mask = (opRow i).pattern

theorem start (a : BitVec 7) (d : Dir) : Statement (.start a d) := by
  cases d <;> (revert a; unfold Statement; decide)

theorem repstart (a : BitVec 7) (d : Dir) : Statement (.repstart a d) := by
  cases d <;> (revert a; unfold Statement; decide)

theorem startRetry (a : BitVec 7) (d : Dir) : Statement (.startRetry a d) := by
  cases d <;> (revert a; unfold Statement; decide)

theorem writeByte (b : Byte) : Statement (.writeByte b) := by
  revert b; unfold Statement; decide

theorem readByte (k : Bool) : Statement (.readByte k) := by
  revert k; unfold Statement; decide

theorem stop : Statement .stop := by unfold Statement; decide

theorem writeReg (r : BitVec 3) (b : Byte) : Statement (.writeReg r b) := by
  revert r b; unfold Statement; decide +kernel

theorem readReg (r : BitVec 3) : Statement (.readReg r) := by
  revert r; unfold Statement; decide

theorem scanRow (y : BitVec 2) : Statement (.scanRow y) := by
  revert y; unfold Statement; decide

theorem scanKeypad : Statement .scanKeypad := by unfold Statement; decide

theorem scanEdge : Statement .scanEdge := by unfold Statement; decide

theorem translate (m : Mask) : Statement (.translate m) := by
  unfold Statement
  apply BitVec.eq_of_getLsbD_eq
  intro i hi
  simp only [encode, opRow, BitVec.getLsbD_and, BitVec.getLsbD_append]
  interval_cases i <;> simp

end Sys2Proof.Laws.EncodeRow
end

