-- ==== Sys2Proof/Laws/Step.lean ====
section
/-! SUPPORT. What one step of the machine can do, said once: the inversion of `runWord` and of `step`. -/

namespace Sys2Proof.Machine

/-- What running a word can do: the word is illegal; or its command is refused, begins, or goes on (R87, R223, R224). -/
theorem runWord_cases {w : Word} {s t : State} (h : runWord w s = .next t) :
    ((∃ why, decode w = .illegal why) ∧ t = s.raiseIllegal) ∨
    ∃ i, decode w = .command i ∧
      ((s.todo = [] ∧ t = s.raiseSeqErr (refusedWord i)) ∨
        (s.todo = [] ∧ allowedIn s.mode i = true ∧
          t = ({ s with todo := stepsOf s.par i } : State).burst s.quiet) ∨
        (s.todo ≠ [] ∧ t = s.burst (max s.quiet 1))) := by
  unfold runWord at h
  split at h
  · rename_i i hd
    rw [exec_eq] at h
    injection h with h
    refine .inr ⟨i, hd, ?_⟩
    rcases command_cases (allowedIn s.mode i) (refusedWord i) (stepsOf s.par i) s with ⟨h1, -, h'⟩ | ⟨h1, h2, h'⟩ | ⟨h1, h'⟩ <;>
      rw [h'] at h
    · exact .inl ⟨h1, h.symm⟩
    · exact .inr (.inl ⟨h1, h2, h.symm⟩)
    · exact .inr (.inr ⟨h1, h.symm⟩)
  · rename_i why hd
    injection h with h
    exact .inl ⟨⟨why, hd⟩, h.symm⟩

/-- Running a word touches nothing of what no command changes. -/
theorem runWord_fixed {w : Word} {s t : State} (h : runWord w s = .next t) : s.FixedAs t := by
  have hrun : ∀ (n : Nat) (u : State), s.FixedAs u → s.FixedAs (u.burst n) := fun n u hu =>
    runOps_keeps (fun x => s.FixedAs x) (fun op rest x hx _ => by simpa [State.FixedAs] using hx) n _ hu
  rcases runWord_cases h with ⟨-, rfl⟩ | ⟨i, -, ⟨-, rfl⟩ | ⟨-, -, rfl⟩ | ⟨-, rfl⟩⟩
  · exact ⟨rfl, rfl, rfl, rfl, rfl, rfl, rfl, rfl⟩
  · exact ⟨rfl, rfl, rfl, rfl, rfl, rfl, rfl, rfl⟩
  all_goals exact hrun _ _ ⟨rfl, rfl, rfl, rfl, rfl, rfl, rfl, rfl⟩

/-- A command is complete: not BUSY, DONE, and no step left (R221). -/
def Completed (t : State) : Prop := t.busy = false ∧ t.done = true ∧ t.todo = []

/-- A burst reports nothing, or completes the command. -/
theorem burst_reports (n : Nat) (s : State) : SameReports s (s.burst n) ∨ Completed (s.burst n) := by
  refine runOps_keeps (fun x => SameReports s x ∨ Completed x) ?_ n _ (.inl ⟨rfl, rfl, rfl, rfl, rfl, rfl, rfl, rfl, rfl⟩)
  intro op rest x h ht
  rcases h with h | ⟨-, -, h⟩
  · cases op with
    | finish r => right; cases r <;> exact ⟨rfl, rfl, rfl⟩
    | _ => exact .inl (sameReports_step rfl (s := { x with todo := rest }) h)
  · rw [h] at ht
    cases ht

/-- Running a word reports nothing, or completes the command (R67, R221). -/
theorem runWord_reports {w : Word} {s t : State} (h : runWord w s = .next t) : SameReports s t ∨ Completed t := by
  rcases runWord_cases h with ⟨-, rfl⟩ | ⟨i, -, ⟨-, rfl⟩ | ⟨-, -, rfl⟩ | ⟨-, rfl⟩⟩
  · exact .inr ⟨rfl, rfl, rfl⟩
  · exact .inr ⟨rfl, rfl, rfl⟩
  · exact burst_reports _ { s with todo := stepsOf s.par i }
  · exact burst_reports _ s

/-- What serving a host access does to the state `u` in which it is served, if the step goes on. -/
inductive Access (a : HostAccess) (u t : State) : Prop where
  /-- A read (R52, R55). -/
  | read (v : Word) (h : t = { u with rdata := v })
  /-- A write that changes nothing (R41, R54, R260). -/
  | ignored (h : t = u)
  /-- A write to DIV (R35). -/
  | div (v : Byte) (hr : u.inReset = false) (h : t = { u with div := v })
  /-- A write to CMD while BUSY (R226). -/
  | dropped (hb : u.busy = true) (h : t = u.dropWrite)
  /-- The assertion of reset (R263). -/
  | reset (k : Bool) (ha : a = .assertReset k) (h : t = u.assertReset k)
  /-- The release of reset (R264). -/
  | release (h : t = { u with inReset := false })
  /-- An accepted command, run in the same step (R220). -/
  | accepted (w : Word) (ha : a = .write 0x00#6 4 w) (hr : u.inReset = false) (hb : u.busy = false)
      (h : runWord w (u.accept w) = .next t)

/-- What serving an access can do. -/
theorem serve_cases {a : HostAccess} {u t : State}
    (h : (match u.serve a with
      | .done v => Host.Outcome.next v
      | .issued v => runWord v.cur v
      | .unsupported => .refused .narrowOrMisaligned) = (.next t : Host.Outcome State Fault Refusal)) :
    Access a u t := by
  cases a with
  | read off n =>
    simp only [State.serve] at h
    by_cases hs : supported off n = true
    · rw [if_pos hs] at h
      injection h with h
      exact .read _ h.symm
    · rw [if_neg hs] at h
      cases h
  | assertReset k => injection h with h; exact .reset k rfl h.symm
  | releaseReset => injection h with h; exact .release h.symm
  | write off n v =>
    simp only [State.serve] at h
    by_cases hs : supported off n = true
    · rw [if_pos hs] at h
      by_cases hr : u.inReset = true
      · rw [if_pos hr] at h
        injection h with h
        exact .ignored h.symm
      · have hr' : u.inReset = false := by simpa using hr
        rw [if_neg hr] at h
        unfold State.writeRegister at h
        simp only [supported, Bool.and_eq_true, decide_eq_true_eq] at hs
        split at h <;> rename_i h' <;> split at h'
        · rename_i h0
          split at h' <;> cases h'
          rename_i hb
          injection h with h
          exact .dropped hb h.symm
        · cases h'; injection h with h; exact .div _ hr' h.symm
        · cases h'; injection h with h; exact .ignored h.symm
        · rename_i h0
          split at h' <;> cases h'
          rename_i hb
          have hoff : off = 0x00#6 := BitVec.eq_of_toNat_eq h0
          obtain ⟨rfl, -⟩ := hs
          subst hoff
          exact .accepted v rfl hr' (by simpa using hb) h
        all_goals first | cases h' | (split at h' <;> cases h')
    · rw [if_neg hs] at h
      cases h

/-- What a step can do: nothing, if nothing is due; the sequencer goes on; or a host access is served. -/
theorem step_cases {s t : State} (h : step s = .next t) :
    (s.nextTurn = .rest ∧ t = s) ∨
    (s.nextTurn = .sequencer ∧ s.busy = true ∧ runWord s.cur s = .next t) ∨
    ∃ (a : HostAccess) (q : Nat) (ts : List HostTurn), s.Due a q ts ∧ s.nextTurn = .host a (s.served q ts) ∧
      Access a (s.served q ts) t := by
  unfold step at h
  cases hn : s.nextTurn with
  | rest =>
    rw [hn] at h
    injection h with h
    exact .inl ⟨rfl, h.symm⟩
  | sequencer =>
    rw [hn] at h
    refine .inr (.inl ⟨rfl, ?_, h⟩)
    unfold State.nextTurn at hn
    split at hn
    · rename_i hb
      simp only [Bool.and_eq_true] at hb
      exact hb.1
    · split at hn <;> cases hn
  | host a u =>
    rw [hn] at h
    unfold State.nextTurn at hn
    split at hn
    · cases hn
    · rename_i hb
      split at hn
      · cases hn
      · rename_i x xs hx
        cases hn
        refine .inr (.inr ⟨x.access, x.quiet, xs, ⟨hx, ?_⟩, rfl, serve_cases h⟩)
        cases hbusy : s.busy with
        | false => exact .inl rfl
        | true => right; simpa [hbusy, hx] using hb

/-- A due access is served. -/
theorem nextTurn_due {a : HostAccess} {q : Nat} {ts : List HostTurn} {s : State} (h : s.Due a q ts) :
    s.nextTurn = .host a (s.served q ts) := by
  obtain ⟨h1, h2⟩ := h
  unfold State.nextTurn
  rcases h2 with h2 | h2 <;> simp [h1, h2, State.served]

/-- The step at which an access is due is the serving of that access. -/
theorem step_due {a : HostAccess} {q : Nat} {ts : List HostTurn} {s : State} (h : s.Due a q ts) :
    step s = match (s.served q ts).serve a with
      | .done u => .next u
      | .issued u => runWord u.cur u
      | .unsupported => .refused .narrowOrMisaligned := by
  unfold step
  rw [nextTurn_due h] <;> rfl

end Sys2Proof.Machine
end

