-- ==== Sys2Proof/Tests/Slice0.lean ====
section
/-! SUPPORT. Small tests, each about one step, with the expected values of 95_test_vectors.md or of the rule named; and
for every obligation with hypotheses a witness that meets them all together. -/

namespace Sys2Proof.Tests

open Sys2Proof.Machine

/-! ## Assembler lines that are not well formed (R88), one for each check -/

theorem test_illformed_start : (Asm.start (.num 0x80) .write).wellFormed = false := by decide
theorem test_illformed_repstart : (Asm.repstart (.num 0x80) .read).wellFormed = false := by decide
theorem test_illformed_startRetry : (Asm.startRetry (.num 0x100) .write).wellFormed = false := by decide
theorem test_illformed_writeByte : (Asm.writeByte 0x100).wellFormed = false := by decide
theorem test_illformed_writeReg_register : (Asm.writeReg (.num 8) 0).wellFormed = false := by decide
theorem test_illformed_writeReg_value : (Asm.writeReg (.name .out1) 0x100).wellFormed = false := by decide
theorem test_illformed_readReg : (Asm.readReg (.num 8)).wellFormed = false := by decide
theorem test_illformed_scanRow : (Asm.scanRow 4).wellFormed = false := by decide
theorem test_illformed_translate : (Asm.translate 0x10000).wellFormed = false := by decide
theorem test_wellformed_at_the_edges :
    [Asm.start (.num 0x7F) .read, .writeByte 0xFF, .writeReg (.num 7) 0xFF, .scanRow 3, .translate 0xFFFF].all
      Asm.wellFormed = true := by decide
theorem test_assemble_refuses : assemble 0x20#7 (.scanRow 4) = none := by decide
theorem test_assemble_named : assemble 0x20#7 (.writeReg (.name .out1) 0xFE) = some 0x0000FE67#32 := by decide
theorem test_assemble_periph : assemble 0x20#7 (.startRetry .periph .write) = some 0x00002003#32 := by decide

/-! ## Decoding: each command's word written out from the bit patterns of R82, bit 31 on the left -/

theorem test_decode_start :
    decode (0b00000000000000000#17 ++ 0b1111111#7 ++ 0b000#3 ++ 0b1#1 ++ 0b0001#4) =
      .command (.start 0x7F#7 .read) := by decide
theorem test_decode_repstart :
    decode (0b00000000000000000#17 ++ 0b0100000#7 ++ 0b000#3 ++ 0b1#1 ++ 0b0010#4) =
      .command (.repstart 0x20#7 .read) := by decide
theorem test_decode_startRetry :
    decode (0b00000000000000000#17 ++ 0b0100000#7 ++ 0b000#3 ++ 0b0#1 ++ 0b0011#4) =
      .command (.startRetry 0x20#7 .write) := by decide
theorem test_decode_writeByte :
    decode (0b0000000000000000#16 ++ 0b01010101#8 ++ 0b0000#4 ++ 0b0100#4) = .command (.writeByte 0x55#8) := by decide
theorem test_decode_readByte_ack :
    decode (0b000000000000000000000000000#27 ++ 0b1#1 ++ 0b0101#4) = .command (.readByte true) := by decide
theorem test_decode_readByte_nack :
    decode (0b000000000000000000000000000#27 ++ 0b0#1 ++ 0b0101#4) = .command (.readByte false) := by decide
theorem test_decode_stop : decode (0#28 ++ 0b0110#4) = .command .stop := by decide
theorem test_decode_writeReg :
    decode (0b0000000000000000#16 ++ 0b11111110#8 ++ 0b011#3 ++ 0b0#1 ++ 0b0111#4) =
      .command (.writeReg 3#3 0xFE#8) := by decide
theorem test_decode_readReg :
    decode (0b000000000000000000000000#24 ++ 0b001#3 ++ 0b0#1 ++ 0b1000#4) = .command (.readReg 1#3) := by decide
theorem test_decode_scanRow :
    decode (0b0000000000000000000000000#25 ++ 0b10#2 ++ 0b0#1 ++ 0b1001#4) = .command (.scanRow 2#2) := by decide
theorem test_decode_scanKeypad : decode (0#28 ++ 0b1010#4) = .command .scanKeypad := by decide
theorem test_decode_scanEdge : decode (0#28 ++ 0b1011#4) = .command .scanEdge := by decide
theorem test_decode_translate :
    decode (0b1111110111111111#16 ++ 0b000000000000#12 ++ 0b1100#4) = .command (.translate 0xFDFF#16) := by decide

/-- Vectors E21 and E22. -/
theorem test_reserved_opcodes :
    [0x0#32, 0xD#32, 0xE#32, 0xF#32].map decode = List.replicate 4 (.illegal .reservedOpcode) := by decide
/-- Vectors E23 to E32. -/
theorem test_reserved_bits :
    [0x80000006#32, 0x00000016#32, 0x00010006#32, 0x00008001#32, 0x00000021#32, 0x00000089#32, 0x00000019#32,
      0x00002009#32, 0x0000001A#32, 0x0000010C#32].map decode = List.replicate 10 (.illegal .reservedBit) := by decide
theorem test_table_word : decodeTableWord 32 0x2001 = some (.start 0x20#7 .write) := by decide
theorem test_table_word_refused : decodeTableWord 32 0x10 = none := by decide

/-! ## One step -/

/-- The parameters of 95_test_vectors.md section 0, with a slow clock so that the debounce wait is two cycles. -/
def par : Params := { defaultParams with periphAddr := 0x20#7, baseBlock := 5, fClk := 100 }

/-- An environment; the first debounce wait takes the least number of cycles, the second three more. -/
def env (d : Device) (st : List StartAnswer) (ad tx : List AckAnswer) : Env :=
  { device := d, starts := st, addrs := ad, txs := tx, rxs := [], waits := [0, 3], draws := 0, waited := 0 }

/-- SIMX with these bytes. -/
def simx (m : Memory) (px : BitVec 3) : Device := .simx { mx := m, px := px, pointerNext := false }

/-- SIMK with these keys pressed. -/
def keys (k : List Mask) : Device := .simk { mx := [], px := 0#3, pointerNext := false } k

/-- The idle machine of section 0 in a bus mode. -/
def on (m : BusMode) (e : Env) : State := { State.reset with par := par, mode := m, env := e, quiet := 400 }

/-- The next step with this word written to CMD. -/
def issue (w : Nat) (s : State) : State :=
  match step (s.withFetchWord 32 w) with
  | .next t => t
  | .fault _ => s
  | .refused _ => s

/-- RESULT, STATUS, BUSSTAT and ATTEMPTS. -/
def regs (s : State) : Nat × Nat × Nat × Nat :=
  (s.result.toNat, s.statusByte.toNat, (statCode s.busStat).toNat, s.attempts.toNat)

/-- Vector B1. -/
theorem test_start :
    let t := issue 0x2001 (on .idle (env (simx [] 0#3) [] [] []))
    t.trace = [.s, .a 0x40#8 .ack] ∧ regs t = (0x0000, 0x82, 0x18, 0) := by decide +kernel
/-- Vector B4. -/
theorem test_start_nack :
    let t := issue 0x2111 (on .idle (env (simx [] 0#3) [] [] []))
    t.trace = [.s, .a 0x43#8 .nack] ∧ regs t = (0x0001, 0x46, 0x48, 0) := by decide +kernel
/-- Vector B9. -/
theorem test_repstart_idle :
    let t := issue 0x2012 (on .idle (env (simx [] 0#3) [] [] []))
    t.trace = [.s, .a 0x41#8 .ack] ∧ regs t = (0x0000, 0xC2, 0x40, 0) := by decide +kernel
/-- Vector B27's repeated start, by REPSTART on an MR bus (R108). -/
theorem test_repstart_owned :
    let t := issue 0x2002 (on .mr (env (simx [] 0#3) [] [] []))
    t.trace = [.sr, .a 0x40#8 .ack] ∧ regs t = (0x0000, 0x82, 0x18, 0) := by decide +kernel
/-- Vector B10. -/
theorem test_startRetry :
    let t := issue 0x2003 (on .idle (env (simx [] 0#3) [] [.nack, .nack, .ack] []))
    t.trace = [.s, .a 0x40#8 .nack, .p, .s, .a 0x40#8 .nack, .p, .s, .a 0x40#8 .ack] ∧
      regs t = (0x0000, 0x82, 0x18, 3) := by decide +kernel
/-- Vector B13: 400 steps later the command is still running. -/
theorem test_startRetry_stuck :
    (issue 0x2103 (on .idle (env (simx [] 0#3) [] [] []))).busy = true := by decide +kernel
/-- Vector B16. -/
theorem test_writeByte_nack :
    let t := issue 0x5504 (on .mt (env (simx [] 0#3) [] [] [.nack]))
    t.trace = [.t 0x55#8 .nack] ∧ regs t = (0x0001, 0x86, 0x30, 0) := by decide +kernel
/-- Vector B14. -/
theorem test_writeByte_refused :
    let t := issue 0x5504 (on .idle (env (simx [] 0#3) [] [] []))
    t.trace = [] ∧ regs t = (0x0001, 0x0A, 0xF8, 0) := by decide +kernel
/-- Vector B20. -/
theorem test_readByte_ack :
    let t := issue 0x0015 (on .mr (env (simx [(2, 0x5A#8)] 2#3) [] [] []))
    t.trace = [.r 0x5A#8 true] ∧ regs t = (0x005A, 0xC2, 0x50, 0) := by decide +kernel
/-- Vector B21. -/
theorem test_readByte_nack :
    let t := issue 0x0005 (on .mr (env (simx [(2, 0x5A#8)] 2#3) [] [] []))
    t.trace = [.r 0x5A#8 false] ∧ regs t = (0x005A, 0x42, 0x58, 0) := by decide +kernel
/-- Vector B24. -/
theorem test_stop :
    let t := issue 0x0006 (on .owned (env (simx [] 0#3) [] [] []))
    t.trace = [.p] ∧ regs t = (0x0000, 0x02, 0xF8, 0) := by decide +kernel
/-- Vector B26. -/
theorem test_stop_idle :
    let t := issue 0x0006 (on .idle (env (simx [] 0#3) [] [] []))
    t.trace = [] ∧ regs t = (0x0000, 0x02, 0xF8, 0) := by decide +kernel
/-- Vector G1. -/
theorem test_writeReg :
    let t := issue 0xFE67 (on .idle (env (simx [] 0#3) [] [] []))
    t.trace = [.s, .a 0x40#8 .ack, .t 0x03#8 .ack, .t 0xFE#8 .ack, .p] ∧ regs t = (0x0000, 0x02, 0xF8, 1) ∧
      t.storeByte 3 = 0xFE#8 := by decide +kernel
/-- Vector G7. -/
theorem test_writeReg_lost :
    let t := issue 0xFE67 (on .idle (env (simx [] 0#3) [] [] [.arbLost]))
    t.trace = [.s, .a 0x40#8 .ack, .t 0x03#8 .arbLost] ∧ regs t = (0x0000, 0x06, 0x38, 1) := by decide +kernel
/-- Vector G3. -/
theorem test_readReg :
    let t := issue 0x0028 (on .idle (env (simx [(1, 0xDB#8)] 0#3) [] [] []))
    t.trace = [.s, .a 0x40#8 .ack, .t 0x01#8 .ack, .sr, .a 0x41#8 .ack, .r 0xDB#8 false, .p] ∧
      regs t = (0x00DB, 0x02, 0xF8, 1) := by decide +kernel
/-- Vector G8. -/
theorem test_readReg_skipped :
    let t := issue 0x0028 (on .idle (env (simx [] 0#3) [] [.ack, .nack] []))
    t.trace = [.s, .a 0x40#8 .ack, .t 0x01#8 .ack, .sr, .a 0x41#8 .nack, .p] ∧ t.result = 0x00FF#16 ∧
      t.statusByte = 0x06#8 := by decide +kernel
/-- Vector K1. -/
theorem test_scanRow :
    let t := issue 0x0049 (on .idle (env (keys [0x0200#16]) [] [] []))
    t.trace.length = 17 ∧ t.trace[3]? = some (.t 0xFB#8 .ack) ∧ t.trace[10]? = some (.r 0xDB#8 false) ∧
      t.result = 0x000D#16 ∧ t.statusByte = 0x02#8 ∧ t.storeByte 3 = 0xFF#8 := by decide +kernel
/-- Vector K3. -/
theorem test_scanRow_two_keys :
    let t := issue 0x0069 (on .idle (env (keys [0x9000#16]) [] [] []))
    t.result = 0x0006#16 ∧ t.trace[3]? = some (.t 0xF7#8 .ack) := by decide +kernel
/-- Vector K6. -/
theorem test_scanKeypad :
    let t := issue 0x000A (on .idle (env (keys [0x8001#16]) [] [] []))
    t.trace.length = 68 ∧ t.result = 0x7FFE#16 ∧ t.statusByte = 0x02#8 ∧ t.debounce = 0xFFFF#16 := by decide +kernel
/-- Vector K10. -/
theorem test_scanKeypad_failed :
    let t := issue 0x000A (on .idle (env (keys [0x8001#16]) [] (List.replicate 4 [.ack, .ack, .nack, .ack]).flatten []))
    t.trace.length = 64 ∧ t.result = 0xFFFF#16 ∧ t.statusByte = 0x06#8 := by decide +kernel
/-- Vector D9. -/
theorem test_scanEdge :
    let t := issue 0x000B { on .idle (env (keys [0x0201#16]) [] [] []) with debounce := 0xFDFF#16 }
    t.trace.length = 137 ∧ t.result = 0xFFFE#16 ∧ t.debounce = 0xFDFE#16 ∧ t.statusByte = 0x02#8 := by decide +kernel
/-- Vector D6: the key is released between the scans. -/
theorem test_scanEdge_bounce :
    let t := issue 0x000B
      (on .idle (env (keys [0x0200#16, 0x0200#16, 0x0200#16, 0x0200#16, 0x0000#16]) [] [] []))
    t.result = 0xFFFF#16 ∧ t.debounce = 0xFFFF#16 ∧ t.s1 = 0xFDFF#16 ∧ t.s2 = 0xFFFF#16 := by decide +kernel
/-- Vector T10, on an MT bus. -/
theorem test_translate :
    regs (issue 0xFDFF000C (on .mt (env (simx [] 0#3) [] [] []))) = (0x0035, 0x82, 0xF8, 0) := by decide +kernel
/-- Vector T20. -/
theorem test_translate_two_keys :
    regs (issue 0x7FFE000C (on .idle (env (simx [] 0#3) [] [] []))) = (0x0000, 0x02, 0xF8, 0) := by decide +kernel
/-- Vector X-7. -/
theorem test_illegal_first :
    regs (issue 0x00000025 (on .idle (env (simx [] 0#3) [] [] []))) = (0x0000, 0x12, 0xF8, 0) := by decide +kernel
/-- Vector RS1. -/
theorem test_reset :
    regs State.reset = (0, 0, 0xF8, 0) ∧ State.reset.debounce = 0xFFFF#16 ∧ State.reset.cmd = 0#32 := by decide
/-- The first step from reset with a word placed runs it: STOP on the idle bus. -/
theorem test_first_instruction :
    regs (issue 0x00000006 State.reset) = (0, 0x01, 0xF8, 0) ∧ (issue 0x00000006 State.reset).cmd = 6#32 := by
  decide +kernel

/-- The idle machine with one access due. -/
def due (a : HostAccess) : State := { on .idle (env (simx [] 0#3) [] [] []) with host := [⟨a, 0⟩], quiet := 0 }

/-- The machine while SCAN_EDGE runs, with one access due. -/
def busyDue (a : HostAccess) : State :=
  { due a with busy := true, cur := 0x0B#32, todo := scanEdgeSeq par ++ [.finish .edge] }

/-- What a step answers, if it goes on. -/
def next (s : State) : State :=
  match step s with
  | .next t => t
  | .fault _ => s
  | .refused _ => s

/-- Vector RS4. -/
theorem test_write_div : (next (due (.write 0x14#6 4 0x12345648#32))).div = 0x48#8 := by decide +kernel
/-- Vector RS3. -/
theorem test_write_readonly :
    (next (due (.write 0x0C#6 4 0#32))).debounce = 0xFFFF#16 := by decide +kernel
/-- Vectors RS1 and RS2. -/
theorem test_read_registers :
    ([0x0C#6, 0x10#6, 0x1C#6, 0x3C#6].map fun o => (next (due (.read o 4))).rdata) =
      [0xFFFF#32, 0xF8#32, 0#32, 0#32] := by decide +kernel
/-- Vector X-4. -/
theorem test_dropped_write :
    let t := next { busyDue (.write 0x00#6 4 6#32) with cmd := 0x0B#32 }
    t.cmd = 0x0B#32 ∧ t.ovr = true ∧ t.busy = true := by decide +kernel
/-- Vector RS6. -/
theorem test_reset_aborts :
    let t := next (busyDue (.assertReset false))
    t.statusByte = 0x00#8 ∧ t.debounce = 0xFFFF#16 ∧ t.todo = [] := by decide +kernel
/-- R53. -/
theorem test_narrow : step (due (.read 0x04#6 1)) = .refused .narrowOrMisaligned := by
  unfold step; rfl

/-! ## Witnesses: states and operands that meet the hypotheses of the obligations -/

theorem witness_DecoderAgreesWithTable :
    opRow .stop ∈ opTable ∧ 6#32 &&& (opRow .stop).mask = (opRow .stop).pattern ∧ decode 6#32 = .command .stop ∧
      (∀ r ∈ opTable, 0x16#32 &&& r.mask ≠ r.pattern) ∧
      fieldOp 0xFFFFFFF0#32 = 0x0#4 ∧ fieldOp 0xD#32 = 0xD#4 ∧ fieldOp 0xE#32 = 0xE#4 ∧ fieldOp 0xFFFFFFFF#32 = 0xF#4 := by
  decide

theorem witness_DecodeOfEncode :
    (Instr.start 0x7F#7 .read).wellFormed = true ∧ (Instr.translate 0xFFFF#16).wellFormed = true := by decide

/-- The last number in each range and the first outside it. -/
theorem witness_AssemblerWords :
    assemble 0x20#7 (.start (.num 0x7F) .read) = some 0x00007F11#32 ∧ assemble 0x20#7 (.start (.num 0x80) .read) = none ∧
      assemble 0x20#7 (.writeByte 0xFF) = some 0x0000FF04#32 ∧ assemble 0x20#7 (.writeByte 0x100) = none ∧
      assemble 0x20#7 (.scanRow 3) = some 0x00000069#32 ∧ assemble 0x20#7 (.scanRow 4) = none ∧
      assemble 0x20#7 (.translate 0xFFFF) = some 0xFFFF000C#32 ∧ assemble 0x20#7 (.translate 0x10000) = none ∧
      assemble 0x20#7 (.writeReg (.num 7) 0xFF) = some 0x0000FFE7#32 ∧
      assemble 0x20#7 (.writeReg (.num 8) 0) = none ∧ assemble 0x20#7 (.writeReg (.name .cfg1) 0x100) = none ∧
      assemble 0x20#7 (.readReg (.name .in1)) = some 0x00000028#32 ∧ assemble 0x20#7 (.readReg (.num 8)) = none := by
  decide

/-- In a phase and between phases, while a command runs; and a STOP on an owned bus with a reset right after it. -/
theorem witness_ResetAbortsCommand :
    (∀ k, (busyDue (.assertReset k)).Due (.assertReset k) 0 []) ∧
      let s : State :=
        { on .mt (env (simx [] 0#3) [] [] []) with
          host := [⟨.write 0x00#6 4 6#32, 0⟩, ⟨.assertReset true, 0⟩], quiet := 0 }
      s.Due (.write 0x00#6 4 6#32) 0 [⟨.assertReset true, 0⟩] ∧ s.inReset = false ∧ s.busy = false ∧ s.todo = [] ∧
        decode 6#32 = .command .stop :=
  ⟨fun _ => ⟨rfl, .inr rfl⟩, ⟨rfl, .inl rfl⟩, rfl, rfl, rfl, by decide⟩

/-- A byte accepted and cut by reset in its phase (R263): no event is recorded and SIMX is not said to have taken it. -/
theorem test_reset_in_first_phase :
    let s : State :=
      { on .mt (env (simx [] 3#3) [] [] []) with
        host := [⟨.write 0x00#6 4 0x5504#32, 0⟩, ⟨.assertReset true, 0⟩], quiet := 0 }
    (next s).busy = true ∧ (next (next s)).trace = [] ∧ (next (next s)).env.device = .free := by decide +kernel

/-- A write while reset is asserted; its release, also with a command right after it; its assertion on an owned bus, on an
idle one, and in the first phase of a STOP. -/
theorem witness_ResetInput :
    (let s : State := { due (.write 0x00#6 4 6#32) with inReset := true };
      s.Due (.write 0x00#6 4 6#32) 0 [] ∧ (0x00#6).extractLsb' 0 2 = 0#2 ∧ s.inReset = true) ∧
    (let s : State :=
        { State.reset with inReset := true, host := [⟨.releaseReset, 0⟩, ⟨.write 0x00#6 4 6#32, 2⟩] };
      s.Due .releaseReset 0 [⟨.write 0x00#6 4 6#32, 2⟩] ∧ s.ResetHeld ∧ s.inReset = true ∧
        decode 6#32 = .command .stop) ∧
    (let s (m : BusMode) : State := { on m (env (simx [] 0#3) [] [] []) with host := [⟨.assertReset false, 0⟩] };
      (s .mt).Due (.assertReset false) 0 [] ∧ (s .mt).mode ≠ .idle ∧ (s .mt).env.device ≠ .absent ∧
        (s .idle).Due (.assertReset false) 0 [] ∧ (s .idle).mode = .idle) ∧
    (let s : State :=
        { on .mt (env (simx [] 0#3) [] [] []) with
          host := [⟨.write 0x00#6 4 6#32, 0⟩, ⟨.assertReset true, 0⟩], quiet := 0 };
      s.Due (.write 0x00#6 4 6#32) 0 [⟨.assertReset true, 0⟩] ∧ s.inReset = false ∧ s.busy = false ∧ s.todo = [] ∧
        decode 6#32 = .command .stop) :=
  ⟨⟨⟨rfl, .inl rfl⟩, rfl, rfl⟩,
    ⟨⟨rfl, .inl rfl⟩, fun _ => ⟨rfl, rfl, rfl, rfl, rfl, rfl, rfl, rfl, rfl, rfl, rfl, rfl, rfl, rfl, rfl, rfl, rfl, rfl, rfl⟩,
      rfl, by decide⟩,
    ⟨⟨rfl, .inl rfl⟩, by decide +kernel, by decide +kernel, ⟨rfl, .inl rfl⟩, rfl⟩,
    ⟨rfl, .inl rfl⟩, rfl, rfl, rfl, by decide⟩

/-- Every clause: the seven registers, the first and the last reserved offset; idle and while a command runs. -/
theorem witness_HostReadReturnsRegister :
    (∀ o : BitVec 6, (due (.read o 4)).Due (.read o 4) 0 [] ∧ (busyDue (.read o 4)).Due (.read o 4) 0 []) ∧
      ∀ o ∈ [0x00#6, 0x04#6, 0x08#6, 0x0C#6, 0x10#6, 0x14#6, 0x18#6, 0x1C#6, 0x3C#6], o.extractLsb' 0 2 = 0#2 ∧
        (0x1C#6 ≤ o ↔ o = 0x1C#6 ∨ o = 0x3C#6) :=
  ⟨fun _ => ⟨⟨rfl, .inl rfl⟩, ⟨rfl, .inr rfl⟩⟩, by decide⟩

/-- DIV, the read-only registers on its two sides, and the last reserved offset. -/
theorem witness_WritesOtherThanCmd :
    (∀ (o : BitVec 6) (v : Word), (due (.write o 4 v)).Due (.write o 4 v) 0 [] ∧ (due (.write o 4 v)).inReset = false) ∧
      ∀ o ∈ [0x14#6, 0x10#6, 0x18#6, 0x04#6, 0x3C#6], o.extractLsb' 0 2 = 0#2 ∧ o ≠ 0x00#6 :=
  ⟨fun _ _ => ⟨⟨rfl, .inl rfl⟩, rfl⟩, by decide⟩

theorem witness_WriteWhileBusyIsDropped :
    let s := busyDue (.write 0x00#6 4 6#32)
    s.Due (.write 0x00#6 4 6#32) 0 [] ∧ s.inReset = false ∧ s.busy = true := ⟨⟨rfl, .inr rfl⟩, rfl, rfl⟩

theorem witness_StepRunsAcceptedCommand :
    let s := due (.write 0x00#6 4 6#32)
    s.Due (.write 0x00#6 4 6#32) 0 [] ∧ s.inReset = false ∧ s.busy = false ∧ decode 6#32 = .command .stop :=
  ⟨⟨rfl, .inl rfl⟩, rfl, rfl, by decide⟩

theorem witness_StepContinuesCommand :
    let s : State := { busyDue (.assertReset false) with host := [] }
    let u : State := { busyDue (.assertReset false) with quiet := 3 }
    (s.busy = true ∧ (s.quiet ≠ 0 ∨ s.host = []) ∧ decode s.cur = .command .scanEdge) ∧
      (u.busy = true ∧ (u.quiet ≠ 0 ∨ u.host = []) ∧ decode u.cur = .command .scanEdge) :=
  ⟨⟨rfl, .inr rfl, by decide⟩, ⟨rfl, .inl (by decide), by decide⟩⟩

theorem witness_IllegalWordCompletes :
    let s := due (.write 0x00#6 4 0x25#32)
    s.Due (.write 0x00#6 4 0x25#32) 0 [] ∧ s.inReset = false ∧ s.busy = false ∧
      decode 0x25#32 = .illegal .reservedBit ∧ decode 0#32 = .illegal .reservedOpcode :=
  ⟨⟨rfl, .inl rfl⟩, rfl, rfl, by decide, by decide⟩

/-- Width and alignment, each by itself, for a read and for a write. -/
theorem witness_NarrowAccessRefused :
    ((1 : Nat) ≠ 4 ∧ (0x04#6).extractLsb' 0 2 = 0#2) ∧ (0x05#6).extractLsb' 0 2 ≠ 0#2 ∧
      (due (.read 0x04#6 1)).Due (.read 0x04#6 1) 0 [] ∧ (due (.read 0x05#6 4)).Due (.read 0x05#6 4) 0 [] ∧
      (due (.write 0x04#6 2 0#32)).Due (.write 0x04#6 2 0#32) 0 [] ∧
      (due (.write 0x3F#6 4 0#32)).Due (.write 0x3F#6 4 0#32) 0 [] :=
  ⟨by decide, by decide, ⟨rfl, .inl rfl⟩, ⟨rfl, .inl rfl⟩, ⟨rfl, .inl rfl⟩, ⟨rfl, .inl rfl⟩⟩

/-- The first and the last address of the window, and the addresses next to it on both sides. -/
theorem witness_WindowDecoding :
    paramBase par = 320 ∧ 320 = paramBase par + (0x00#6).toNat ∧ 383 = paramBase par + (0x3F#6).toNat ∧
      319 < paramBase par ∧ paramBase par + 0x3F < 384 := by decide +kernel

/-- A mode outside the precondition, for each of the seven commands. -/
theorem witness_RefusedOutsideMode :
    let s := on .owned (env (simx [] 0#3) [] [] [])
    s.todo = [] ∧ s.mode ≠ .mt ∧ s.mode ≠ .mr ∧ s.mode ≠ .idle := by decide +kernel

/-- The same, for a command that has no precondition. -/
theorem witness_RefusedOutsideMode_never :
    (on .mr (env (simx [] 0#3) [] [] [])).seqErr = false ∧
      ∃ a d, Instr.startRetry 0x20#7 .read = .startRetry a d := ⟨rfl, _, _, rfl⟩

/-- Every answer of the environment: granted and acknowledged, not acknowledged, lost in the address, and the two
failures of the start condition. -/
theorem witness_StartCompletes :
    let s (st : List StartAnswer) (ad : List AckAnswer) := on .idle (env (simx [] 0#3) st ad [])
    (∀ st ad, (s st ad).todo = [] ∧ 3 ≤ (s st ad).quiet) ∧
      (∀ r : AckAnswer, (s [.ok] [r]).env.startAnswer = .ok ∧
        (s [.ok] [r]).env.afterStart.addressAnswer par (addressByte 0x20#7 .write) = r) ∧
      (s [.busError] []).env.startAnswer = .busError ∧ (s [.arbLost] []).env.startAnswer = .arbLost :=
  ⟨fun _ _ => ⟨rfl, show 3 ≤ 400 by decide⟩, fun _ => ⟨rfl, rfl⟩, rfl, rfl⟩

theorem witness_StartConditionPhase :
    let s (m : BusMode) : State := { on m (env (simx [] 0#3) [] [] []) with quiet := 1 }
    (s .idle).todo = [] ∧ (s .idle).quiet = 1 ∧ (s .idle).env.startAnswer = .ok ∧ (s .mt).env.startAnswer = .ok ∧
      (s .idle).mode = .idle ∧ (s .mt).mode ≠ .idle := by decide +kernel

/-- Granted at once, and granted after two refused attempts. -/
theorem witness_StartRetryCompletes :
    let s (ad : List AckAnswer) := on .idle (env (simx [] 0#3) [] ad [])
    (s []).todo = [] ∧ grantsAfter par 0x20#7 .write 0 (s []).env = true ∧
      grantsAfter par 0x20#7 .write 2 (s [.nack, .nack, .ack]).env = true ∧ 5 * 2 + 6 ≤ (s []).quiet := by
  decide +kernel

theorem witness_RetryStopsBetweenAttempts :
    let s := on .idle (env (simx [] 0#3) [.ok, .ok, .ok] [.nack, .nack, .ack] [])
    s.todo = [] ∧ s.mode = .idle ∧ s.env.starts = .ok :: .ok :: .ok :: [] ∧
      s.env.addrs = .nack :: .nack :: .ack :: [] ∧ 16 ≤ s.quiet := by decide +kernel

/-- A START_RETRY between two attempts on a bus where nothing answers. -/
def retrying : State :=
  { on .idle (env .absent [] [] []) with
    busy := true, cur := 0x2003#32, todo := [.attempt 0x20#7 .write, .finish (.value 0#16)], quiet := 3 }

theorem witness_NeverGrantedNeverCompletes :
    (let s := on .idle (env .absent [] [] []);
      s.todo = [] ∧ neverGrants s.par 0x20#7 .write s.env) ∧
    retrying.busy = true ∧ decode retrying.cur = .command (.startRetry 0x20#7 .write) ∧
      retrying.Hopeless 0x20#7 .write [.finish (.value 0#16)] ∧ step retrying = .next (next retrying) :=
  ⟨⟨rfl, absent_neverGrants rfl rfl⟩, rfl, by decide, .inr (.inl ⟨rfl, absent_neverGrants rfl rfl⟩), rfl⟩

/-- A composite command, START_RETRY on an owned bus, and a retry that goes on. -/
theorem witness_AbsentPeripheralHangs :
    (let s (m : BusMode) := on m (env .absent [] [] []);
      retriesBus .scanEdge = true ∧ (s .idle).todo = [] ∧ (s .idle).mode = .idle ∧ (s .idle).env.Absent ∧
        retriesBus (.startRetry 0x20#7 .read) = true ∧ (s .mt).todo = [] ∧ (s .mt).env.Absent) ∧
    retrying.busy = true ∧ decode retrying.cur = .command (.startRetry 0x20#7 .write) ∧
      retrying.BoundForRetry 0x20#7 .write [.finish (.value 0#16)] ∧ retrying.env.Absent ∧
      step retrying = .next (next retrying) :=
  ⟨⟨rfl, rfl, rfl, ⟨rfl, rfl⟩, rfl, rfl, ⟨rfl, rfl⟩⟩, rfl, by decide, .inl (.inr (.inl rfl)), ⟨rfl, rfl⟩, rfl⟩

/-- Each answer to the byte. -/
theorem witness_WriteByteCompletes :
    let s (r : AckAnswer) := on .mt (env (simx [] 0#3) [] [] [r])
    ∀ r : AckAnswer, (s r).todo = [] ∧ (s r).mode = .mt ∧ 2 ≤ (s r).quiet ∧ (s r).env.txAnswer = r :=
  fun _ => ⟨rfl, rfl, show 2 ≤ 400 by decide, rfl⟩

theorem witness_ReadByteCompletes :
    let s := on .mr (env (simx [(2, 0x5A#8)] 2#3) [] [] [])
    s.todo = [] ∧ s.mode = .mr ∧ 2 ≤ s.quiet := by decide +kernel

/-- An owned bus and an idle one. -/
theorem witness_StopCompletes :
    let s (m : BusMode) := on m (env (simx [] 0#3) [] [] [])
    ((s .idle).todo = [] ∧ 2 ≤ (s .idle).quiet ∧ (s .idle).mode = .idle) ∧
      ((s .mr).todo = [] ∧ 2 ≤ (s .mr).quiet ∧ (s .mr).mode ≠ .idle) := by decide +kernel

/-- Granted at once or after one refused attempt; both bytes acknowledged, and the first lost. -/
theorem witness_WriteRegCompletes :
    let s (ad tx : List AckAnswer) := on .idle (env (simx [] 0#3) [] ad tx)
    ((s [] []).todo = [] ∧ (s [] []).failAcc = false ∧ (s [] []).mode = .idle ∧ 5 * 1 + 11 ≤ (s [] []).quiet) ∧
      grantsAfter par par.periphAddr .write 0 (s [] []).env = true ∧
      grantsAfter par par.periphAddr .write 1 (s [.nack] []).env = true ∧
      (envWhenGranted par.periphAddr .write 0 (s [] [.ack, .nack]).env).txAnswer = .ack ∧
      (envWhenGranted par.periphAddr .write 0 (s [] [.arbLost]).env).txAnswer = .arbLost := by decide +kernel

/-- The repeated start ok, and not ok. -/
theorem witness_ReadRegCompletes :
    let s (ad : List AckAnswer) := on .idle (env (simx [] 0#3) [] ad [])
    let e (ad : List AckAnswer) := (envWhenGranted par.periphAddr .write 0 (s ad).env).afterTx (regByte 1#3)
    ((s []).todo = [] ∧ (s []).failAcc = false ∧ (s []).mode = .idle ∧ 5 * 0 + 14 ≤ (s []).quiet) ∧
      grantsAfter par par.periphAddr .write 0 (s []).env = true ∧
      attemptOk par par.periphAddr .read (e []) = true ∧
      attemptOk par par.periphAddr .read (e [.ack, .nack]) = false := by decide +kernel

theorem witness_TransactionShape :
    let s := on .idle (env (simx [] 0#3) [] [] [])
    let e := envAfterAttempt par.periphAddr .write s.env
    let e1 := e.afterTx (regByte 1#3)
    s.todo = [] ∧ s.failAcc = false ∧ s.mode = .idle ∧ 14 ≤ s.quiet ∧
      attemptOk s.par s.par.periphAddr .write s.env = true ∧ e.txAnswer = .ack ∧ e1.txAnswer = .ack ∧
      attemptOk s.par s.par.periphAddr .read e1 = true := by decide +kernel

/-- The empty store is canonical. -/
theorem nil_canonical : Memory.wf [] ∧ ∀ c ∈ ([] : Memory), c.1 < 8 := ⟨by decide, by decide⟩

theorem simx_canonical (m : BusMode) (st : List StartAnswer) (ad tx : List AckAnswer) :
    (on m (env (simx [] 0#3) st ad tx)).StoreCanonical := nil_canonical

theorem keys_canonical (k : List Mask) : (on .idle (env (keys k) [] [] [])).StoreCanonical :=
  nil_canonical

theorem witness_RegisterRoundTrip :
    let s := on .idle (env (simx [] 0#3) [] [] [])
    s.todo = [] ∧ s.failAcc = false ∧ s.mode = .idle ∧ s.env.Plain ∧
      s.env.device = .simx { mx := [], px := 0#3, pointerNext := false } ∧ s.env.rxs = [] ∧ s.StoreCanonical ∧
      14 ≤ s.quiet ∧ 14 ≤ 400 :=
  ⟨rfl, rfl, rfl, ⟨rfl, rfl, rfl, trivial⟩, rfl, rfl, simx_canonical .., by decide +kernel, by decide⟩

/-- A machine whose environment has a script of received bytes. -/
def scripted (vs : List Byte) : State :=
  { on .idle { env (simx [] 0#3) [] [] [] with rxs := vs } with quiet := 400 }

theorem scripted_plain (vs : List Byte) :
    (scripted vs).todo = [] ∧ (scripted vs).failAcc = false ∧ (scripted vs).mode = .idle ∧ (scripted vs).env.Plain ∧
      (scripted vs).env.rxs = vs ∧ (scripted vs).StoreCanonical :=
  ⟨rfl, rfl, rfl, ⟨rfl, rfl, rfl, trivial⟩, rfl, nil_canonical⟩

theorem witness_ScanRowCompletes :
    let s := scripted [0xDB#8]
    s.todo = [] ∧ s.failAcc = false ∧ s.mode = .idle ∧ s.env.Plain ∧ s.env.rxs = 0xDB#8 :: [] ∧ s.StoreCanonical ∧
      36 ≤ s.quiet :=
  ⟨rfl, rfl, rfl, (scripted_plain _).2.2.2.1, rfl, (scripted_plain _).2.2.2.2.2, by decide +kernel⟩

/-- No attempt refused. -/
def atOnce : RowTries := { select := 0, read := 0, restore := 0 }

/-- A row scan in which the first attempt is refused, the row select's value is not acknowledged, the column read's
register number and the restore lose arbitration and the repeated start is not acknowledged; one in which only the restore
fails; and scans whose first bytes are refused in every way. -/
theorem witness_ScansCompleteForEveryAnswer :
    (let s := on .idle (env (simx [] 0#3) [] [.nack, .ack, .ack, .nack, .ack] [.ack, .nack, .arbLost, .arbLost]);
      let k : RowTries := { select := 1, read := 0, restore := 0 };
      (s.todo = [] ∧ s.failAcc = false ∧ s.mode = .idle ∧ rowGranted s.par 2#2 k s.env ∧
        5 * k.refused + 36 ≤ s.quiet) ∧
      (rowResult s.par 2#2 k s.env).failed = true ∧ (rowResult s.par 2#2 k s.env).value = 0xF#4) ∧
    (let s := on .idle (env (keys [0x0200#16]) [] [] [.ack, .ack, .ack, .ack, .nack]);
      rowGranted s.par 2#2 atOnce s.env ∧ (rowResult s.par 2#2 atOnce s.env).failed = true ∧
        (rowResult s.par 2#2 atOnce s.env).value = 0xD#4) ∧
    (let s := on .idle (env (keys [0x0200#16]) [] [] [.arbLost, .nack, .arbLost, .nack, .nack, .nack]);
      let e := (scanResult s.par (fun _ => atOnce) s.env).env.afterWait;
      (s.todo = [] ∧ s.failAcc = false ∧ s.mode = .idle ∧ scanGranted s.par (fun _ => atOnce) s.env ∧
        5 * refusedInScan (fun _ => atOnce) + 142 ≤ s.quiet) ∧
      scanGranted s.par (fun _ => atOnce) e ∧
      5 * (refusedInScan (fun _ => atOnce) + refusedInScan fun _ => atOnce) + debounceCycles s.par + s.env.extraWait +
        288 ≤ s.quiet ∧
      (scanResult s.par (fun _ => atOnce) s.env).failed = true ∧
        (scanResult s.par (fun _ => atOnce) e).failed = false) := by
  unfold rowGranted scanGranted rowGranted
  decide +kernel

/-- The same machine with a settle time of 5 microseconds. -/
def settling (vs : List Byte) : State := { scripted vs with par := { par with rowSettle := 5 } }

/-- Without a settle time, and with one. -/
theorem witness_ScanKeypadCompletes :
    let vs : List Byte := [0xFF#8, 0xDF#8, 0xFF#8, 0xFF#8]
    (let s := scripted vs;
      s.todo = [] ∧ s.failAcc = false ∧ s.mode = .idle ∧ s.env.Plain ∧
        s.env.rxs = 0xFF#8 :: 0xDF#8 :: 0xFF#8 :: 0xFF#8 :: [] ∧ s.StoreCanonical ∧ 142 ≤ s.quiet ∧
        s.par.rowSettle = 0) ∧
    (let s := settling vs;
      s.todo = [] ∧ s.failAcc = false ∧ s.mode = .idle ∧ s.env.Plain ∧
        s.env.rxs = 0xFF#8 :: 0xDF#8 :: 0xFF#8 :: 0xFF#8 :: [] ∧ s.StoreCanonical ∧ 142 ≤ s.quiet ∧
        s.par.rowSettle ≠ 0) :=
  ⟨⟨rfl, rfl, rfl, (scripted_plain _).2.2.2.1, rfl, nil_canonical, by decide +kernel, rfl⟩,
    ⟨rfl, rfl, rfl, (scripted_plain _).2.2.2.1, rfl, nil_canonical, by decide +kernel, by decide +kernel⟩⟩

theorem witness_ScanKeypadSeesPressedKeys :
    let s := on .idle (env (keys [0x0200#16]) [] [] [])
    s.todo = [] ∧ s.failAcc = false ∧ s.mode = .idle ∧ s.env.Plain ∧
      s.env.device = .simk { mx := [], px := 0#3, pointerNext := false } [0x0200#16] ∧ s.env.rxs = [] ∧
      s.StoreCanonical ∧ defaultWiring s.par ∧ 142 ≤ s.quiet :=
  ⟨rfl, rfl, rfl, ⟨rfl, rfl, rfl, trivial⟩, rfl, rfl, keys_canonical _, ⟨rfl, rfl, rfl, rfl⟩, by decide +kernel⟩

/-- Without a settle time, and with one. -/
theorem witness_ScanEdgeCompletes :
    let vs : List Byte := [0xFF#8, 0xDF#8, 0xFF#8, 0xFF#8, 0xFF#8, 0xDF#8, 0xFF#8, 0xFF#8]
    (let s := scripted vs;
      s.todo = [] ∧ s.failAcc = false ∧ s.mode = .idle ∧ s.env.Plain ∧
        s.env.rxs = 0xFF#8 :: 0xDF#8 :: 0xFF#8 :: 0xFF#8 :: 0xFF#8 :: 0xDF#8 :: 0xFF#8 :: 0xFF#8 :: [] ∧
        s.StoreCanonical ∧ 288 + debounceCycles s.par + s.env.extraWait ≤ s.quiet ∧ s.par.rowSettle = 0) ∧
    (let s := settling vs;
      s.todo = [] ∧ s.failAcc = false ∧ s.mode = .idle ∧ s.env.Plain ∧
        s.env.rxs = 0xFF#8 :: 0xDF#8 :: 0xFF#8 :: 0xFF#8 :: 0xFF#8 :: 0xDF#8 :: 0xFF#8 :: 0xFF#8 :: [] ∧
        s.StoreCanonical ∧ 288 + debounceCycles s.par + s.env.extraWait ≤ s.quiet ∧ s.par.rowSettle ≠ 0) :=
  ⟨⟨rfl, rfl, rfl, (scripted_plain _).2.2.2.1, rfl, nil_canonical, by decide +kernel, rfl⟩,
    ⟨rfl, rfl, rfl, (scripted_plain _).2.2.2.1, rfl, nil_canonical, by decide +kernel, by decide +kernel⟩⟩

/-- A SCAN_EDGE that has just been accepted, one at the beginning of its wait, and one in the middle of a longer wait. -/
theorem witness_DebounceWaitLasts :
    let s := on .idle (env (keys [0x0200#16]) [] [] [])
    let rest := scanKeypadSeq par ++ [.saveS2, .finish .edge]
    let a : State := { s with quiet := 2 }
    let b : State := { s with todo := .waitBegin :: .waitTick :: rest }
    let c : State := { s with todo := .waitTick :: rest, timer := .counting 7 }
    (a.todo = [] ∧ a.mode = .idle ∧ a.quiet ≤ debounceCycles a.par) ∧
      (b.todo = .waitBegin :: .waitTick :: rest ∧ 0 ≤ debounceCycles b.par ∧ 2 ≤ debounceCycles b.par) ∧
      (c.todo = .waitTick :: rest ∧ c.timer = .counting 7 ∧ 1 ≤ 7 ∧ 7 ≤ 7) ∧
      20 * par.fClk ≤ 1000 * 2 := by
  refine ⟨⟨rfl, rfl, by decide +kernel⟩, ⟨rfl, by decide +kernel, by decide +kernel⟩, ⟨rfl, rfl, by decide, by decide⟩,
    by decide +kernel⟩

/-- A machine against SIMX with a script of column reads, some of which fail. -/
def failing (rs : List (Option Byte)) : State :=
  on .idle { env (simx [] 0#3) [] (scriptedReads rs) [] with rxs := rs.filterMap id }

/-- The column read of a row scan fails; every column read of a scan fails (vectors K10 and D12); some fail; the last step of SCAN_EDGE after a failure; and a failure
noted while a command runs. -/
theorem witness_ScanFailuresReported :
    (let s := on .idle (env (simx [] 0#3) [] [.ack, .ack, .nack, .ack] []);
      s.todo = [] ∧ s.failAcc = false ∧ s.mode = .idle ∧ s.StoreCanonical ∧
        s.env.device = .simx { mx := [], px := 0#3, pointerNext := false } ∧ s.env.starts = [] ∧
        s.env.addrs = .ack :: .ack :: .nack :: .ack :: [] ∧ s.env.txs = [] ∧ 36 ≤ s.quiet) ∧
    (∀ r3 r2 r1 r0 : Option Byte, let s := failing [r3, r2, r1, r0]
      s.todo = [] ∧ s.failAcc = false ∧ s.mode = .idle ∧ s.StoreCanonical ∧
        s.env.device = .simx { mx := [], px := 0#3, pointerNext := false } ∧ s.env.starts = [] ∧ s.env.txs = [] ∧
        s.env.addrs = scriptedReads [r3, r2, r1, r0] ++ [] ∧ s.env.rxs = [r3, r2, r1, r0].filterMap id ++ [] ∧
        142 ≤ s.quiet) ∧
    (let rs : List (Option Byte) := [none, some 0xDF#8, none, none, none, some 0xDF#8, none, some 0xFF#8];
      let s := failing rs;
      s.todo = [] ∧ s.failAcc = false ∧ s.mode = .idle ∧ s.StoreCanonical ∧
        s.env.device = .simx { mx := [], px := 0#3, pointerNext := false } ∧ s.env.starts = [] ∧ s.env.txs = [] ∧
        s.env.addrs = scriptedReads rs ++ [] ∧ s.env.rxs = rs.filterMap id ++ [] ∧
        288 + debounceCycles s.par + s.env.extraWait ≤ s.quiet) ∧
    (let s : State := { on .idle (env .free [] [] []) with todo := [.finish .edge], failAcc := true, busy := true };
      s.todo = [.finish .edge] ∧ s.busy = true ∧ s.failAcc = true ∧ step s = .next (next s)) :=
  ⟨⟨rfl, rfl, rfl, simx_canonical .., rfl, rfl, rfl, rfl, by decide +kernel⟩,
    fun _ _ _ _ => ⟨rfl, rfl, rfl, nil_canonical, rfl, rfl, rfl, (List.append_nil _).symm, (List.append_nil _).symm,
      show 142 ≤ 400 by decide⟩,
    ⟨rfl, rfl, rfl, nil_canonical, rfl, rfl, rfl, (List.append_nil _).symm, (List.append_nil _).symm, by decide +kernel⟩,
    ⟨rfl, rfl, rfl, rfl⟩⟩

/-- A key held, with DEBOUNCE as reset left it. -/
theorem witness_ScanEdgeIdempotent :
    let s := on .idle (env (keys [0x0200#16]) [] [] [])
    s.todo = [] ∧ s.failAcc = false ∧ s.mode = .idle ∧ s.env.Plain ∧
      s.env.device = .simk { mx := [], px := 0#3, pointerNext := false } [0x0200#16] ∧ s.env.rxs = [] ∧
      s.StoreCanonical ∧ defaultWiring s.par ∧ 288 + debounceCycles s.par + s.env.extraWait ≤ s.quiet ∧
      288 + debounceCycles s.par + s.env.afterWait.extraWait ≤ 400 :=
  ⟨rfl, rfl, rfl, ⟨rfl, rfl, rfl, trivial⟩, rfl, rfl, keys_canonical _, ⟨rfl, rfl, rfl, rfl⟩, by decide +kernel,
    by decide +kernel⟩

/-- Exactly one bit clear (the first and the last), none clear, and all clear. -/
theorem witness_TranslateCompletes :
    (on .mt (env (simx [] 0#3) [] [] [])).todo = [] ∧ 1 ≤ (on .mt (env (simx [] 0#3) [] [] [])).quiet ∧
      (∀ j : Fin 16, (0xFFFE#16).getLsbD j.val = false ↔ j = 0) ∧
      (∀ j : Fin 16, (0x7FFF#16).getLsbD j.val = false ↔ j = 15) ∧
      (¬ ∃ i : Fin 16, ∀ j : Fin 16, (0xFFFF#16).getLsbD j.val = false ↔ j = i) ∧
      (¬ ∃ i : Fin 16, ∀ j : Fin 16, (0x0000#16).getLsbD j.val = false ↔ j = i) := by decide +kernel

theorem witness_TranslateSingleton : defaultParams.keymap = defaultKeymap := rfl

theorem witness_FrameOfStartAndStop :
    (∃ a d, Instr.start 0x20#7 .read = .start a d) ∧
      (∀ op ∈ ([.address 0x20#7 .read, .finish .outcome] : List SeqOp), stepOfStart op = true) ∧
      (∀ op ∈ ([] : List SeqOp), stepOfStart op = true) := ⟨⟨_, _, rfl⟩, by decide, by decide⟩

theorem witness_FrameOfStartRetry :
    ∀ op ∈ (retrySeq 0x20#7 .read ++ [.finish (.value 0#16)] : List SeqOp), stepOfRetry op = true := by decide

/-- A device that stores the byte, and one that takes it as a register number. -/
theorem witness_FrameOfWriteByte :
    let s := on .mt (env (simx [] 5#3) [] [] [])
    s.todo = [] ∧ s.StoreCanonical ∧ s.env.device.storeAddress = some 5 ∧
      (Device.simx { mx := [], px := 5#3, pointerNext := true }).storeAddress = none :=
  ⟨rfl, nil_canonical, rfl, rfl⟩

theorem witness_FrameOfReadByte :
    ∀ op ∈ ([.rx true, .finish .byte] : List SeqOp), stepOfReadByte op = true := by decide

theorem witness_FrameOfTranslate :
    ∀ op ∈ ([.finish (.value 0x35#16)] : List SeqOp), stepOfTranslate op = true := by decide

theorem witness_FrameOfRegisterAccess :
    (∃ y, Instr.scanRow 2#2 = .scanRow y) ∧
      ∀ op ∈ scanRowSeq par 2#2 ++ [.finish .row], stepOfAccess op = true := ⟨⟨_, rfl⟩, by decide +kernel⟩

theorem witness_FrameOfScanKeypad :
    ∀ op ∈ scanKeypadSeq par ++ [.finish .mask], stepOfScan op = true := by decide +kernel

/-- A running command in its first start condition meets every invariant, and the next step goes on from it. -/
def midway : State :=
  { on .idle (env (keys [0x0200#16]) [] [] []) with
    busy := true, cur := 0x0B#32, todo := scanEdgeSeq par ++ [.finish .edge], ovr := true, quiet := 4 }

theorem midway_steps : step midway = .next (next midway) := rfl

theorem witness_StepKeepsBusStatFits : midway.BusStatFits ∧ step midway = .next (next midway) := ⟨rfl, midway_steps⟩

theorem witness_StepKeepsLinesFit : midway.LinesFit ∧ step midway = .next (next midway) :=
  ⟨⟨rfl, rfl⟩, midway_steps⟩

theorem witness_StepKeepsRunning : midway.Running ∧ step midway = .next (next midway) :=
  ⟨by unfold State.Running; decide +kernel, midway_steps⟩

theorem witness_StepKeepsStatusExclusive : midway.StatusExclusive ∧ step midway = .next (next midway) :=
  ⟨by unfold State.StatusExclusive; decide +kernel, midway_steps⟩

theorem witness_StepKeepsResetHeld :
    let s : State := { State.reset with inReset := true, host := [⟨.write 0x00#6 4 6#32, 0⟩] }
    s.ResetHeld ∧ s.inReset = true ∧ step s = .next (next s) :=
  ⟨fun _ => ⟨rfl, rfl, rfl, rfl, rfl, rfl, rfl, rfl, rfl, rfl, rfl, rfl, rfl, rfl, rfl, rfl, rfl, rfl, rfl⟩, rfl, rfl⟩

theorem witness_StepKeepsEdgeInScanEdge :
    midway.Running ∧ midway.EdgeOnlyInScanEdge ∧ SeqOp.finish .edge ∈ midway.todo ∧
      step midway = .next (next midway) :=
  ⟨witness_StepKeepsRunning.1, fun _ => by decide +kernel, by decide +kernel, midway_steps⟩

/-- The last step of a SCAN_EDGE that saw a key pressed. -/
def edgeEnd : State :=
  { on .idle (env (keys [0x0200#16]) [] [] []) with
    busy := true, cur := 0x0B#32, todo := [.finish .edge], s1 := 0xFDFF#16, s2 := 0xFDFF#16, quiet := 1 }

/-- DEBOUNCE changes in SCAN_EDGE and, after it held another value, in reset. -/
theorem witness_DebounceHasOneWriter :
    (edgeEnd.Running ∧ edgeEnd.EdgeOnlyInScanEdge ∧ step edgeEnd = .next (next edgeEnd) ∧
        (next edgeEnd).debounce ≠ edgeEnd.debounce) ∧
      let s : State := { due (.assertReset false) with debounce := 0xFDFF#16 }
      s.Running ∧ s.EdgeOnlyInScanEdge ∧ step s = .next (next s) ∧ (next s).debounce ≠ s.debounce :=
  ⟨⟨by unfold State.Running; decide +kernel, fun _ => by decide +kernel, rfl, by decide +kernel⟩,
    rfl, fun h => absurd h (by decide +kernel), rfl, by decide +kernel⟩

/-- A step with OVR set, and one that asserts reset. -/
theorem witness_WriteWhileBusyIsDropped_sticky : (step midway = .next (next midway) ∧ midway.ovr = true) ∧
    let s : State := { due (.assertReset false) with ovr := true }
    step s = .next (next s) ∧ s.ovr = true ∧ (next s).ovr = false ∧
      ∃ k u, s.nextTurn = .host (.assertReset k) u :=
  ⟨⟨midway_steps, rfl⟩, rfl, rfl, rfl, _, _, rfl⟩

/-- A step that completes a command and changes RESULT and DEBOUNCE, and one that leaves BUSY at 1. -/
theorem witness_ResultOnlyAtCompletion :
    (step edgeEnd = .next (next edgeEnd) ∧ (next edgeEnd).result ≠ edgeEnd.result ∧
        (next edgeEnd).debounce ≠ edgeEnd.debounce) ∧
      midway.StatusExclusive ∧ step midway = .next (next midway) ∧ (next midway).busy = true :=
  ⟨⟨rfl, by decide +kernel, by decide +kernel⟩, witness_StepKeepsStatusExclusive.1, midway_steps, by decide +kernel⟩

theorem witness_StepKeepsStoreCanonical : midway.StoreCanonical ∧ step midway = .next (next midway) :=
  ⟨nil_canonical, midway_steps⟩

theorem witness_TraceOnlyGrows : step midway = .next (next midway) ∧ (next midway).trace ≠ [] :=
  ⟨midway_steps, by decide +kernel⟩

theorem witness_EventsOnTheLines : AckAnswer.ack ≠ .arbLost ∧ AckAnswer.nack ≠ .arbLost := by decide

end Sys2Proof.Tests
end

section
/-! PROOFS. What one step does to the command that runs: the inversion of `step` with the host accesses that a command
does not see taken together. -/

namespace Sys2Proof.Machine

/-- What a step does, by what it means for the command that runs. -/
inductive StepEffect (s t : State) : Prop where
  /-- No command sees it: nothing is due, or the host reads, writes DIV or where a write has no effect, has a write
  dropped or releases reset (R52 to R55, R226, R264). -/
  | unseen (rdata : Word) (div : Byte) (ovr inReset : Bool) (host : List HostTurn) (quiet : Nat)
      (h : t = { s with rdata := rdata, div := div, ovr := ovr, inReset := inReset, host := host, quiet := quiet })
  /-- The command in CUR goes on (R36). -/
  | goesOn (hb : s.busy = true) (h : runWord s.cur s = .next t)
  /-- Reset is asserted (R263). -/
  | reset (k : Bool) (q : Nat) (ts : List HostTurn) (hn : s.nextTurn = .host (.assertReset k) (s.served q ts))
      (h : t = (s.served q ts).assertReset k)
  /-- A command is accepted and runs (R220). -/
  | accepted (w : Word) (q : Nat) (ts : List HostTurn) (hn : s.nextTurn = .host (.write 0x00#6 4 w) (s.served q ts))
      (hb : s.busy = false) (h : runWord w ((s.served q ts).accept w) = .next t)

/-- Every step has one of these effects. -/
theorem step_effect {s t : State} (h : step s = .next t) : StepEffect s t := by
  rcases step_cases h with ⟨-, rfl⟩ | ⟨-, hb, hrun⟩ | ⟨a, q, ts, -, hn, hacc⟩
  · exact .unseen _ _ _ _ _ _ rfl
  · exact .goesOn hb hrun
  · cases hacc with
    | read v h => exact .unseen _ _ _ _ _ _ h
    | ignored h => exact .unseen _ _ _ _ _ _ h
    | div v _ h => exact .unseen _ _ _ _ _ _ h
    | dropped _ h => exact .unseen _ _ _ _ _ _ h
    | release h => exact .unseen _ _ _ _ _ _ h
    | reset k ha h => exact .reset k q ts (ha ▸ hn) h
    | accepted w ha _ hb hrun => exact .accepted w q ts (ha ▸ hn) hb hrun

end Sys2Proof.Machine
end

section
/-! PROOFS. What a step does to the bus: BUSSTAT, the bus mode and the two line drivers (10_state.md R31, R34, R40). -/

namespace Sys2Proof.Machine

/-- BUSSTAT, the bus mode and the line drivers are as they were. -/
def State.BusAs (s t : State) : Prop :=
  t.mode = s.mode ∧ t.busStat = s.busStat ∧ t.sclDrv = s.sclDrv ∧ t.sdaDrv = s.sdaDrv

/-- The bus is as it was, or a phase or a reset has left it in a state that fits on its own, whatever it found. -/
def State.BusFrom (s t : State) : Prop := s.BusAs t ∨ (t.BusStatFits ∧ t.LinesFit)

theorem State.BusAs.refl (s : State) : s.BusAs s := ⟨rfl, rfl, rfl, rfl⟩

theorem State.BusAs.trans {s t u : State} (h : s.BusAs t) (h' : t.BusAs u) : s.BusAs u := by
  obtain ⟨hm, hb, hc, hd⟩ := h
  obtain ⟨hm', hb', hc', hd'⟩ := h'
  exact ⟨hm'.trans hm, hb'.trans hb, hc'.trans hc, hd'.trans hd⟩

theorem State.BusAs.busStatFits {s t : State} (h : s.BusAs t) (hs : s.BusStatFits) : t.BusStatFits := by
  obtain ⟨hm, hb, -, -⟩ := h
  simpa only [State.BusStatFits, hm, hb] using hs

theorem State.BusAs.linesFit {s t : State} (h : s.BusAs t) (hs : s.LinesFit) : t.LinesFit := by
  obtain ⟨hm, -, hc, hd⟩ := h
  simpa only [State.LinesFit, hm, hc, hd] using hs

theorem State.BusFrom.trans {s t u : State} (h : s.BusFrom t) (h' : t.BusFrom u) : s.BusFrom u := by
  rcases h' with has | hfit
  · rcases h with h | ⟨hstat, hlines⟩
    · exact .inl (h.trans has)
    · exact .inr ⟨has.busStatFits hstat, has.linesFit hlines⟩
  · exact .inr hfit

/-- A phase that leaves the bus owned leaves a code of its mode, and SCL low (R132). -/
theorem busFrom_owned {s t : State} (hs : statFits t.mode t.busStat = true) (hm : t.mode ≠ .idle)
    (hc : t.sclDrv = .low) : s.BusFrom t := .inr ⟨hs, by rwa [State.LinesFit, if_neg hm]⟩

/-- A phase that releases the bus leaves a code of the IDLE bus, and both lines released (R134, R136, R137). -/
theorem busFrom_released {s t : State} (hs : statFits .idle t.busStat = true) (hm : t.mode = .idle)
    (hc : t.sclDrv = .released) (hd : t.sdaDrv = .released) : s.BusFrom t :=
  .inr ⟨by rwa [State.BusStatFits, hm], by rw [State.LinesFit, if_pos hm]; exact ⟨hc, hd⟩⟩

theorem opStart_bus (a : BitVec 7) (d : Dir) (s : State) : s.BusFrom (s.opStart a d) := by
  by_cases h : s.env.startAnswer = .ok
  · rw [opStart_ok h]
    by_cases hm : s.mode = .idle <;> simp only [hm, if_true, if_false] <;>
      exact busFrom_owned rfl nofun rfl
  · obtain ⟨b, hb, hs⟩ := opStart_refused (a := a) (d := d) h
    rw [hs]
    rcases hb with rfl | rfl <;> exact busFrom_released rfl rfl rfl rfl

theorem opAddress_bus (a : BitVec 7) (d : Dir) (s : State) : s.BusFrom (s.opAddress a d) := by
  rw [opAddress_eq]
  cases s.env.addressAnswer s.par (addressByte a d) with
  | ack => cases d <;> exact busFrom_owned rfl nofun rfl
  | nack => cases d <;> exact busFrom_owned rfl nofun rfl
  | arbLost => exact busFrom_released rfl rfl rfl rfl

theorem opStop_bus (s : State) : s.BusFrom s.opStop := by
  by_cases hm : s.mode = .idle
  · rw [opStop_idle hm]; exact .inl (.refl s)
  · rw [opStop_owned hm]; exact busFrom_released rfl rfl rfl rfl

theorem opTx_bus (b : Byte) (s : State) : s.BusFrom (s.opTx b) := by
  by_cases hm : s.mode = .mt
  · rw [opTx_mt b hm]
    cases s.env.txAnswer with
    | ack => exact busFrom_owned rfl nofun rfl
    | nack => exact busFrom_owned rfl nofun rfl
    | arbLost => exact busFrom_released rfl rfl rfl rfl
  · rw [opTx_skipped b hm]; exact .inl (.refl s)

theorem opRx_bus (k : Bool) (s : State) : s.BusFrom (s.opRx k) := by
  by_cases hm : s.mode = .mr
  · rw [opRx_mr k hm]
    cases k <;> exact busFrom_owned rfl nofun rfl
  · rw [opRx_skipped k hm]; exact .inl (.refl s)

/-- What a sequencer step can do to the bus: only the five phase operations touch it. -/
theorem doOp_bus (op : SeqOp) (s : State) : s.BusFrom (s.doOp op) := by
  have same : s.BusAs s := .refl s
  cases op with
  | start a d => exact opStart_bus a d s
  | address a d => exact opAddress_bus a d s
  | stop => exact opStop_bus s
  | tx b => exact opTx_bus b s
  | rx k => exact opRx_bus k s
  | retryUnlessOk a d => simp only [State.doOp, State.opRetryUnlessOk]; split <;> exact .inl same
  | waitTick => simp only [State.doOp, State.opWaitTick]; split <;> exact .inl same
  | finish r => cases r <;> exact .inl same
  | _ => exact .inl same

/-- What a burst can do to the bus. -/
theorem burst_bus (n : Nat) (s : State) : s.BusFrom (s.burst n) :=
  runOps_keeps (fun t => s.BusFrom t) (fun op rest t h _ => h.trans (doOp_bus op { t with todo := rest })) n _
    (.inl (.refl s))

/-- What running a word can do to the bus. -/
theorem runWord_bus {w : Word} {s t : State} (h : runWord w s = .next t) : s.BusFrom t := by
  rcases runWord_cases h with ⟨-, rfl⟩ | ⟨i, -, ⟨-, rfl⟩ | ⟨-, -, rfl⟩ | ⟨-, rfl⟩⟩
  · exact .inl (.refl s)
  · exact .inl (.refl s)
  · exact burst_bus s.quiet { s with todo := stepsOf s.par i }
  · exact burst_bus _ s

/-- What a step can do to the bus: but for the sequencer only a reset touches it. -/
theorem step_bus {s t : State} (h : step s = .next t) : s.BusFrom t := by
  cases step_effect h with
  | unseen _ _ _ _ _ _ h => subst h; exact .inl (.refl s)
  | goesOn _ hrun => exact runWord_bus hrun
  | reset k q ts _ h => subst h; exact busFrom_released rfl rfl rfl rfl
  | accepted w q ts _ _ hrun => exact runWord_bus (s := (s.served q ts).accept w) hrun

/-- Settles O49: a step leaves BUSSTAT and the bus mode alone, or in agreement. -/
theorem stepKeepsBusStatFits : Obligations.StepKeepsBusStatFits := by
  intro s t hs h
  rcases step_bus h with has | ⟨hfit, -⟩
  · exact has.busStatFits hs
  · exact hfit

/-- Settles O50: a step leaves the line drivers and the bus mode alone, or in agreement. -/
theorem stepKeepsLinesFit : Obligations.StepKeepsLinesFit := by
  intro s t hs h
  rcases step_bus h with has | ⟨-, hfit⟩
  · exact has.linesFit hs
  · exact hfit

end Sys2Proof.Machine
end

section
/-! PROOFS. The steps a command is made of and how a step of the machine uses them up: BUSY and the sequencer, and which
command the storing step belongs to (10_state.md R24, R33, R36; 60_exceptions.md R221). -/

namespace Sys2Proof.Machine

/-! ## No phase sequence completes a command -/

theorem retrySeq_unfinished (a : BitVec 7) (d : Dir) : ∀ op ∈ retrySeq a d, op.isFinish = false := by
  simp [retrySeq, SeqOp.isFinish]

theorem writeRegSeq_unfinished (p : Params) (r : BitVec 3) (b : Byte) :
    ∀ op ∈ writeRegSeq p r b, op.isFinish = false := by
  simp [writeRegSeq, retrySeq, SeqOp.isFinish]

theorem readRegSeq_unfinished (p : Params) (r : BitVec 3) : ∀ op ∈ readRegSeq p r, op.isFinish = false := by
  simp [readRegSeq, retrySeq, SeqOp.isFinish]

theorem settleSeq_unfinished (p : Params) : ∀ op ∈ settleSeq p, op.isFinish = false := by
  unfold settleSeq
  split <;> simp [SeqOp.isFinish]

theorem scanRowSeq_unfinished (p : Params) (y : BitVec 2) : ∀ op ∈ scanRowSeq p y, op.isFinish = false := by
  simp only [scanRowSeq, List.forall_mem_append]
  exact ⟨⟨⟨writeRegSeq_unfinished p _ _, settleSeq_unfinished p⟩, readRegSeq_unfinished p _⟩,
    writeRegSeq_unfinished p _ _⟩

theorem scanKeypadSeq_unfinished (p : Params) : ∀ op ∈ scanKeypadSeq p, op.isFinish = false := by
  refine List.forall_mem_cons.mpr ⟨rfl, fun op hmem => ?_⟩
  obtain ⟨y, -, hop⟩ := List.mem_flatMap.mp hmem
  exact List.forall_mem_append.mpr ⟨scanRowSeq_unfinished p y, by simp [SeqOp.isFinish]⟩ op hop

theorem scanEdgeSeq_unfinished (p : Params) : ∀ op ∈ scanEdgeSeq p, op.isFinish = false := by
  simp only [scanEdgeSeq, List.forall_mem_append]
  have hscan := scanKeypadSeq_unfinished p
  exact ⟨⟨⟨hscan, by simp [SeqOp.isFinish]⟩, hscan⟩, by simp [SeqOp.isFinish]⟩

/-- Every command ends with its one report and reports nothing before it; the report that stores DEBOUNCE is that of
SCAN_EDGE alone (R33, R221). -/
theorem stepsOf_eq (p : Params) (i : Instr) :
    ∃ (pre : List SeqOp) (r : Report), stepsOf p i = pre ++ [.finish r] ∧ (∀ op ∈ pre, op.isFinish = false) ∧
      (r = .edge → i = .scanEdge) := by
  cases i with
  | start a d => exact ⟨[.start a d], _, rfl, by simp [SeqOp.isFinish], nofun⟩
  | repstart a d => exact ⟨[.start a d], _, rfl, by simp [SeqOp.isFinish], nofun⟩
  | startRetry a d => exact ⟨_, _, rfl, retrySeq_unfinished a d, nofun⟩
  | writeByte b => exact ⟨[.tx b], _, rfl, by simp [SeqOp.isFinish], nofun⟩
  | readByte k => exact ⟨[.rx k], _, rfl, by simp [SeqOp.isFinish], nofun⟩
  | stop => exact ⟨[.stop], _, rfl, by simp [SeqOp.isFinish], nofun⟩
  | writeReg r b => exact ⟨_, _, rfl, writeRegSeq_unfinished p r b, nofun⟩
  | readReg r => exact ⟨_, _, rfl, readRegSeq_unfinished p r, nofun⟩
  | scanRow y => exact ⟨_, _, rfl, scanRowSeq_unfinished p y, nofun⟩
  | scanKeypad => exact ⟨_, _, rfl, scanKeypadSeq_unfinished p, nofun⟩
  | scanEdge => exact ⟨_, _, rfl, scanEdgeSeq_unfinished p, fun _ => rfl⟩
  | translate m => exact ⟨[], _, rfl, by simp, nofun⟩

theorem stepsOf_complete (p : Params) (i : Instr) : stepsComplete (stepsOf p i) = true := by
  obtain ⟨pre, r, heq, hpre, -⟩ := stepsOf_eq p i
  rw [heq]
  exact stepsComplete_append hpre rfl

/-- A completing step that is ahead of unfinished ones stands behind them. -/
theorem finish_mem_append {pre rest : List SeqOp} {r : Report} (hpre : ∀ op ∈ pre, op.isFinish = false)
    (h : SeqOp.finish r ∈ pre ++ rest) : SeqOp.finish r ∈ rest :=
  (List.mem_append.mp h).resolve_left fun hmem => Bool.noConfusion (hpre _ hmem)

theorem stepsOf_edge {p : Params} {i : Instr} (h : SeqOp.finish .edge ∈ stepsOf p i) : i = .scanEdge := by
  obtain ⟨pre, r, heq, hpre, hedge⟩ := stepsOf_eq p i
  rw [heq] at h
  have hr := finish_mem_append hpre h
  simp only [List.mem_singleton, SeqOp.finish.injEq] at hr
  exact hedge hr.symm

/-! ## BUSY and the steps left -/

theorem opFinish_completed (r : Report) (s : State) : Completed (s.opFinish r) := by
  cases r <;> exact ⟨rfl, rfl, rfl⟩

theorem Completed.running {t : State} (h : Completed t) : t.Running := by
  obtain ⟨hb, -, htodo⟩ := h
  simpa [State.Running, hb] using htodo

theorem running_busy {s : State} (h : s.busy = true) : s.Running ↔ stepsComplete s.todo = true := by
  simp [State.Running, h]

theorem running_idle {s : State} (h : s.busy = false) : s.Running ↔ s.todo = [] := by
  simp [State.Running, h]

/-- A sequencer that has a step to take belongs to a command that is BUSY. -/
theorem State.Running.busy_of_todo {s : State} (h : s.Running) (ht : s.todo ≠ []) : s.busy = true := by
  by_contra hb
  exact ht ((running_idle (by simpa using hb)).mp h)

/-- A step completes the command with its last step, and leaves it running before that (R221). -/
theorem doOp_running {op : SeqOp} {rest : List SeqOp} {s : State} (h : s.Running) (ht : s.todo = op :: rest) :
    (({ s with todo := rest } : State).doOp op).Running := by
  have hb := h.busy_of_todo (by simp [ht])
  rw [running_busy hb, ht] at h
  rcases stepsComplete_cons h with ⟨hop, -⟩ | ⟨hop, hrest⟩
  · cases op with
    | finish r => exact (opFinish_completed r _).running
    | _ => cases hop
  · obtain ⟨pre, hpre, htodo⟩ := doOp_todo hop { s with todo := rest }
    obtain ⟨hbusy, -⟩ := doOp_reports hop { s with todo := rest }
    rw [running_busy (hbusy.trans hb), htodo]
    exact stepsComplete_append hpre hrest

theorem burst_running (n : Nat) {s : State} (h : s.Running) : (s.burst n).Running :=
  runOps_keeps State.Running (fun _ _ _ h ht => doOp_running h ht) n { s with quiet := 0 } h

/-- A word runs in a controller that is BUSY, with a command to begin or one that goes on (R220). -/
theorem runWord_running {w : Word} {s t : State} (hb : s.busy = true) (hs : s.todo = [] ∨ s.Running)
    (h : runWord w s = .next t) : t.Running := by
  rcases runWord_cases h with ⟨-, rfl⟩ | ⟨i, -, ⟨-, rfl⟩ | ⟨-, -, rfl⟩ | ⟨htodo, rfl⟩⟩
  · exact Completed.running ⟨rfl, rfl, rfl⟩
  · exact Completed.running ⟨rfl, rfl, rfl⟩
  · exact burst_running s.quiet (s := { s with todo := stepsOf s.par i })
      ((running_busy (s := { s with todo := stepsOf s.par i }) hb).mpr (stepsOf_complete s.par i))
  · exact burst_running _ (hs.resolve_left htodo)

/-- Settles O51: but for the sequencer only a reset and an accepted command, which finds the sequencer idle, touch BUSY
or the steps left. -/
theorem stepKeepsRunning : Obligations.StepKeepsRunning := by
  intro s t hs h
  cases step_effect h with
  | unseen _ _ _ _ _ _ h => subst h; exact hs
  | goesOn hb hrun => exact runWord_running hb (.inr hs) hrun
  | reset k q ts _ h => subst h; exact rfl
  | accepted w q ts _ hb hrun =>
    exact runWord_running (s := (s.served q ts).accept w) rfl (.inl ((running_idle hb).mp hs)) hrun

/-! ## The step that stores DEBOUNCE -/

/-- A step of the sequencer puts no storing step ahead: what completes the command stands ahead of it already. -/
theorem doOp_edge {op : SeqOp} {rest : List SeqOp} {s : State} (h : s.EdgeOnlyInScanEdge)
    (ht : s.todo = op :: rest) : (({ s with todo := rest } : State).doOp op).EdgeOnlyInScanEdge := by
  intro hmem
  rw [doOp_cur]
  cases hop : op.isFinish with
  | true =>
    cases op with
    | finish r =>
      obtain ⟨-, -, htodo⟩ := opFinish_completed r { s with todo := rest }
      simp only [State.doOp, htodo, List.not_mem_nil] at hmem
    | _ => cases hop
  | false =>
    obtain ⟨pre, hpre, htodo⟩ := doOp_todo hop { s with todo := rest }
    rw [htodo] at hmem
    exact h (by rw [ht]; exact List.mem_cons_of_mem _ (finish_mem_append hpre hmem))

theorem burst_edge (n : Nat) {s : State} (h : s.EdgeOnlyInScanEdge) : (s.burst n).EdgeOnlyInScanEdge :=
  runOps_keeps State.EdgeOnlyInScanEdge (fun _ _ _ h ht => doOp_edge h ht) n { s with quiet := 0 } h

theorem edge_of_idle {s : State} (h : s.todo = []) : s.EdgeOnlyInScanEdge := fun hmem => by
  simp [h] at hmem

/-- Running the word in CUR puts the storing step ahead only if that word is SCAN_EDGE (R176). -/
theorem runWord_edge {s t : State} (hs : s.EdgeOnlyInScanEdge) (h : runWord s.cur s = .next t) :
    t.EdgeOnlyInScanEdge := by
  rcases runWord_cases h with ⟨-, rfl⟩ | ⟨i, hi, ⟨-, rfl⟩ | ⟨-, -, rfl⟩ | ⟨-, rfl⟩⟩
  · exact edge_of_idle rfl
  · exact edge_of_idle rfl
  · refine burst_edge s.quiet (s := { s with todo := stepsOf s.par i }) fun hmem => ?_
    exact hi.trans (congrArg _ (stepsOf_edge hmem))
  · exact burst_edge _ hs

/-- Settles O54: a command that is accepted finds no step left, so that its own are the only ones ahead. -/
theorem stepKeepsEdgeInScanEdge : Obligations.StepKeepsEdgeInScanEdge := by
  intro s t hrunning hs h
  cases step_effect h with
  | unseen _ _ _ _ _ _ h => subst h; exact hs
  | goesOn _ hrun => exact runWord_edge hs hrun
  | reset k q ts _ h => subst h; exact edge_of_idle rfl
  | accepted w q ts _ hb hrun =>
    exact runWord_edge (s := (s.served q ts).accept w) (edge_of_idle ((running_idle hb).mp hrunning)) hrun

end Sys2Proof.Machine
end

section
/-! PROOFS. Which steps report: RESULT, DEBOUNCE and the flags of STATUS (10_state.md R32, R67; 60_exceptions.md
R221). -/

namespace Sys2Proof.Machine

theorem SameReports.refl (s : State) : SameReports s s := ⟨rfl, rfl, rfl, rfl, rfl, rfl, rfl, rfl, rfl⟩

/-- What a step reports: nothing new, since `s` or since the command that it accepts; or a completion or a reset. -/
inductive StepReports (s t : State) : Prop where
  /-- Nothing is reported. -/
  | same (h : SameReports s t)
  /-- A command is accepted and has reported nothing yet (R220). -/
  | begun (w : Word) (h : SameReports (s.accept w) t)
  /-- A command that was running, or is accepted in this step, completes (R221). -/
  | completed (hsrc : s.busy = true ∨ ∃ w u, s.nextTurn = .host (.write 0x00#6 4 w) u) (h : Completed t)
  /-- Reset is asserted (R263). -/
  | reset (hsrc : ∃ k u, s.nextTurn = .host (.assertReset k) u) (h : t.busy = false)

theorem step_reports {s t : State} (h : step s = .next t) : StepReports s t := by
  cases step_effect h with
  | unseen _ _ _ _ _ _ h => subst h; exact .same (.refl s)
  | reset k q ts hn h => subst h; exact .reset ⟨k, _, hn⟩ rfl
  | goesOn hb hrun =>
    rcases runWord_reports hrun with hsame | hdone
    · exact .same hsame
    · exact .completed (.inl hb) hdone
  | accepted w q ts hn _ hrun =>
    rcases runWord_reports hrun with hsame | hdone
    · exact .begun w hsame
    · exact .completed (.inr ⟨w, _, hn⟩) hdone

/-- A step that changes RESULT or DEBOUNCE asserts reset or completes a command (R32, R221). -/
theorem changed_report_source {s t : State} (h : step s = .next t)
    (hne : t.result ≠ s.result ∨ t.debounce ≠ s.debounce) :
    (∃ k u, s.nextTurn = .host (.assertReset k) u) ∨
    (t.busy = false ∧ t.done = true ∧ t.todo = [] ∧
      (s.busy = true ∨ ∃ w u, s.nextTurn = .host (.write 0x00#6 4 w) u)) := by
  cases step_reports h with
  | same h =>
    obtain ⟨-, -, -, -, hresult, -, -, -, hdebounce⟩ := h
    exact absurd hne (by simp [hresult, hdebounce])
  | begun w h =>
    obtain ⟨-, -, -, -, hresult, -, -, -, hdebounce⟩ := h
    exact absurd hne (by simp [hresult, hdebounce])
  | completed hsrc h =>
    obtain ⟨hb, hd, htodo⟩ := h
    exact .inr ⟨hb, hd, htodo, hsrc⟩
  | reset hsrc _ => exact .inl hsrc

/-- While BUSY no report of STATUS is up (R220, R228). -/
theorem State.StatusExclusive.busy {s : State} (h : s.StatusExclusive) (hb : s.busy = true) :
    s.done = false ∧ s.fail = false ∧ s.seqErr = false ∧ s.illegal = false := by
  obtain ⟨-, hdone, hflags⟩ := h
  exact ⟨hdone hb, hflags (hdone hb)⟩

/-- A step that leaves a command running has reported nothing (R67, R220). -/
theorem busy_reports_nothing {s t : State} (hs : s.StatusExclusive) (h : step s = .next t) (hb : t.busy = true) :
    t.result = s.result ∧ t.debounce = s.debounce ∧ t.done = false ∧ t.fail = false ∧ t.seqErr = false ∧
    t.illegal = false := by
  cases step_reports h with
  | same h =>
    obtain ⟨-, -, hbusy, hdone, hresult, hfail, hseq, hill, hdebounce⟩ := h
    obtain ⟨hdone', hfail', hseq', hill'⟩ := hs.busy (hbusy.symm.trans hb)
    exact ⟨hresult, hdebounce, hdone.trans hdone', hfail.trans hfail', hseq.trans hseq', hill.trans hill'⟩
  | begun w h =>
    obtain ⟨-, -, -, hdone, hresult, hfail, hseq, hill, hdebounce⟩ := h
    exact ⟨hresult, hdebounce, hdone, hfail, hseq, hill⟩
  | completed _ h =>
    obtain ⟨hb', -⟩ := h
    simp [hb'] at hb
  | reset _ hb' => simp [hb'] at hb

/-- Settles O56: a step reports nothing new, completes a command or asserts reset. -/
theorem resultOnlyAtCompletion : Obligations.ResultOnlyAtCompletion :=
  ⟨fun _ _ => changed_report_source, fun _ _ => busy_reports_nothing⟩

end Sys2Proof.Machine
end

section
/-! PROOFS. The host's view of the registers (10_state.md R20 to R35; 20_memory.md R52 to R55), and the step that goes
on with a command (R36). -/

namespace Sys2Proof.Machine

theorem supported_word {off : BitVec 6} (h : off.extractLsb' 0 2 = 0#2) : supported off 4 = true := by
  simp [supported, h]

/-- A reserved offset reads 0 (R54). -/
theorem readRegister_reserved {off : BitVec 6} (h : 0x1C#6 ≤ off) (s : State) : s.readRegister off = 0#32 := by
  have hoff : 0x1C ≤ off.toNat := h
  unfold State.readRegister
  split
  case h_8 => rfl
  all_goals omega

/-- Settles O8: the value is that of `State.readRegister`, which the schedule does not enter. -/
theorem hostReadReturnsRegister : Obligations.HostReadReturnsRegister := by
  intro s q ts off hdue halign
  refine ⟨s.readRegister off, ?_, ?_, ?_, ?_, ?_, ?_, ?_, ?_, fun h => readRegister_reserved h s⟩
  · rw [step_due hdue]
    simp only [State.serve, supported_word halign, if_true]
    rfl
  all_goals rintro rfl; rfl

/-- An aligned write out of reset, but to CMD, puts its low byte into DIV or changes nothing (R35, R41, R54). -/
theorem writeRegister_of_ne_cmd {off : BitVec 6} (h : off ≠ 0x00#6) (v : Word) (s : State) :
    s.writeRegister off v = .done (if off = 0x14#6 then { s with div := v.extractLsb' 0 8 } else s) := by
  unfold State.writeRegister
  split
  · rename_i h0
    exact absurd (BitVec.eq_of_toNat_eq h0) h
  · rename_i h14
    rw [if_pos (BitVec.eq_of_toNat_eq h14)]
  · rename_i h14
    rw [if_neg fun hoff => h14 (congrArg BitVec.toNat hoff)]

/-- Settles O10: out of reset an aligned write is served by `State.writeRegister`. -/
theorem writesOtherThanCmd : Obligations.WritesOtherThanCmd := by
  intro s q ts off v hdue halign hoff hreset
  have hreset' : (s.served q ts).inReset = false := hreset
  rw [step_due hdue]
  simp only [State.serve, supported_word halign, hreset', if_true, writeRegister_of_ne_cmd hoff]
  rfl

/-- The bits of STATUS, with the width written as the sum of its fields (R23). -/
theorem statusByte_getLsbD (s : State) (n : Nat) :
    s.statusByte.getLsbD n =
      (modeBits s.mode ++ BitVec.ofBool s.ovr ++ BitVec.ofBool s.illegal ++ BitVec.ofBool s.seqErr ++
        BitVec.ofBool s.fail ++ BitVec.ofBool s.done ++ BitVec.ofBool s.busy).getLsbD n := rfl

theorem statusByte_bits (s : State) :
    s.statusByte.getLsbD 0 = s.busy ∧ s.statusByte.getLsbD 1 = s.done ∧ s.statusByte.getLsbD 2 = s.fail ∧
    s.statusByte.getLsbD 3 = s.seqErr ∧ s.statusByte.getLsbD 4 = s.illegal ∧ s.statusByte.getLsbD 5 = s.ovr := by
  simp only [statusByte_getLsbD, BitVec.getLsbD_append]
  simp

theorem statusByte_busMode (s : State) : s.statusByte.extractLsb' 6 2 = modeBits s.mode := by
  apply BitVec.eq_of_getLsbD_eq
  intro i hi
  simp only [BitVec.getLsbD_extractLsb', statusByte_getLsbD, BitVec.getLsbD_append]
  interval_cases i <;> simp

/-- The thirteen codes, in the order of R34. -/
def busStats : List BusStat :=
  [.busError, .startSent, .repStartSent, .slawAck, .slawNack, .txAck, .txNack, .arbLost, .slarAck, .slarNack, .rxAck,
    .rxNack, .noInfo]

theorem mem_busStats (b : BusStat) : b ∈ busStats := by cases b <;> decide

theorem statCode_injective : Function.Injective statCode := fun b c h =>
  List.inj_on_of_nodup_map (f := statCode) (l := busStats) (by decide) (mem_busStats b) (mem_busStats c) h

/-- Settles O9: STATUS bit by bit, and the two encodings by their tables. -/
theorem statusFieldsAndCodes : Obligations.StatusFieldsAndCodes := by
  refine ⟨fun s => ?_, rfl, rfl, fun _ _ h => statCode_injective h⟩
  obtain ⟨h0, h1, h2, h3, h4, h5⟩ := statusByte_bits s
  exact ⟨h0, h1, h2, h3, h4, h5, statusByte_busMode s⟩

theorem nextTurn_sequencer {s : State} (hb : s.busy = true) (hq : s.quiet ≠ 0 ∨ s.host = []) :
    s.nextTurn = .sequencer := by
  unfold State.nextTurn
  rw [if_pos (by simpa [hb] using hq)]

theorem runWord_command {w : Word} {i : Instr} (h : decode w = .command i) (s : State) : runWord w s = exec i s := by
  unfold runWord
  rw [h]

/-- Settles O13: it is the sequencer's turn, and it runs the word in CUR. -/
theorem stepContinuesCommand : Obligations.StepContinuesCommand := by
  intro s i hb hq hi
  unfold step
  rw [nextTurn_sequencer hb hq]
  exact runWord_command hi s

end Sys2Proof.Machine
end

section
/-! PROOFS. A running command in one step of the machine, and the retry against an absent peripheral (20_memory.md R69;
40_bus_primitives.md R103, R114). -/

namespace Sys2Proof.Machine

/-- Unless reset is asserted, a step leaves a command that has steps left as it is or takes some of them: what else it
changes is the host's, or DIV, OVR or the reset input. -/
theorem running_step {i : Instr} {s t : State} (hb : s.busy = true) (hi : decode s.cur = .command i)
    (ht : s.todo ≠ []) (h : step s = .next t) :
    (∃ k u, s.nextTurn = .host (.assertReset k) u) ∨
    ∃ (rdata : Word) (div : Byte) (ovr inReset : Bool) (host : List HostTurn) (quiet n : Nat),
      t = State.runOps n { s with
        rdata := rdata, div := div, ovr := ovr, inReset := inReset, host := host, quiet := quiet } := by
  cases step_effect h with
  | unseen rdata div ovr inReset host quiet h => exact .inr ⟨rdata, div, ovr, inReset, host, quiet, 0, h⟩
  | reset k q ts hn _ => exact .inl ⟨k, _, hn⟩
  | accepted w q ts _ hidle _ => simp [hb] at hidle
  | goesOn _ hrun =>
    rcases runWord_cases hrun with ⟨⟨why, hill⟩, -⟩ | ⟨j, -, ⟨hnil, -⟩ | ⟨hnil, -, -⟩ | ⟨-, hburst⟩⟩
    · rw [hi] at hill
      cases hill
    · exact absurd hnil ht
    · exact absurd hnil ht
    · exact .inr ⟨_, _, _, _, _, 0, _, hburst⟩

/-- The commands that retry begin with their retry, or with clearing ACC and then their retry (R112, R153, R155, R171,
R173). -/
theorem stepsOf_retries (p : Params) {i : Instr} (h : retriesBus i = true) :
    ∃ (a : BitVec 7) (d : Dir) (rest : List SeqOp),
      stepsOf p i = retrySeq a d ++ rest ∨ stepsOf p i = .accZero :: (retrySeq a d ++ rest) := by
  cases i with
  | startRetry a d => exact ⟨a, d, _, .inl rfl⟩
  | writeReg r b => exact ⟨p.periphAddr, .write, _, .inl rfl⟩
  | readReg r => exact ⟨p.periphAddr, .write, _, .inl rfl⟩
  | scanRow y => exact ⟨p.periphAddr, .write, _, .inl rfl⟩
  | scanKeypad => exact ⟨p.periphAddr, .write, _, .inr rfl⟩
  | scanEdge => exact ⟨p.periphAddr, .write, _, .inr rfl⟩
  | _ => cases h

/-- START_RETRY is refused in no bus mode, and no command that retries is refused on an IDLE bus (R224). -/
theorem allowedIn_retries {m : BusMode} {i : Instr} (h : retriesBus i = true)
    (hm : (∃ a d, i = .startRetry a d) ∨ m = .idle) : allowedIn m i = true := by
  rcases hm with ⟨a, d, rfl⟩ | rfl
  · rfl
  · cases i with
    | writeByte b => cases h
    | readByte k => cases h
    | _ => rfl

/-- A command that begins takes its first burst (R220). -/
theorem exec_begins {i : Instr} {s : State} (ht : s.todo = []) (ha : allowedIn s.mode i = true) :
    exec i s = .next (({ s with todo := stepsOf s.par i } : State).burst s.quiet) := by
  simp [exec_eq, State.command, ht, ha]

theorem boundForRetry_todo {a : BitVec 7} {d : Dir} {rest : List SeqOp} {s : State} (h : s.BoundForRetry a d rest) :
    s.todo ≠ [] := by
  rcases h with (h | h | h | h | ⟨h, -⟩ | h) | h <;> simp [h, retrySeq]

/-- Settles O23: a command that retries begins on the way to its retry, and however many steps are taken it is still in
it and has reported nothing. -/
theorem absentPeripheralHangs : Obligations.AbsentPeripheralHangs := by
  refine ⟨fun i s q hi ht hm habs => ?_, fun a d rest i s t hb hi hbound habs h => ?_⟩
  · obtain ⟨a, d, rest, hsteps⟩ := stepsOf_retries s.par hi
    have hbegin : ({ s with todo := stepsOf s.par i, quiet := 0 } : State).BoundForRetry a d rest :=
      hsteps.elim (fun h => .inl (.inl h)) .inr
    obtain ⟨⟨-, -, hbusy, -, hresult, -, -, -, hdebounce⟩, hbound, habs'⟩ := absentRetry_run q hbegin habs
    exact ⟨_, a, d, rest, exec_begins (s := { s with quiet := q }) ht (allowedIn_retries hi hm), hbound, habs',
      boundForRetry_todo hbound, hbusy, hresult, hdebounce⟩
  · refine (running_step hb hi (boundForRetry_todo hbound) h).imp_right ?_
    rintro ⟨rdata, div, ovr, inReset, host, quiet, n, rfl⟩
    obtain ⟨⟨-, hcur, hbusy, -, hresult, -, -, -, hdebounce⟩, hbound', habs'⟩ := absentRetry_run n
      (s := { s with rdata := rdata, div := div, ovr := ovr, inReset := inReset, host := host, quiet := quiet })
      hbound habs
    exact ⟨hbusy.trans hb, hcur, hbound', habs', hresult, hdebounce⟩

end Sys2Proof.Machine
end

section
/-! PROOFS. What every step keeps of the environment's side: the store of the reference device and the bus trace
(20_memory.md R59, R62, R64). -/

namespace Sys2Proof.Machine

/-- A property that every step of the sequencer and every completion keep, and that does not see STEP and the quiet
budget, is kept by running a word. -/
theorem runWord_keeps (I : State → Prop)
    (hstep : ∀ (op : SeqOp) (s : State), I s → I (s.doOp op))
    (htodo : ∀ (l : List SeqOp) (s : State), I s → I { s with todo := l })
    (hquiet : ∀ (n : Nat) (s : State), I s → I { s with quiet := n })
    (hcomplete : ∀ (r : Mask) (f e i : Bool) (s : State), I s → I (s.complete r f e i))
    {w : Word} {s t : State} (hs : I s) (h : runWord w s = .next t) : I t := by
  have hburst (n : Nat) {u : State} (hu : I u) : I (u.burst n) :=
    runOps_keeps I (fun op rest x hx _ => hstep op _ (htodo rest x hx)) n _ (hquiet 0 u hu)
  rcases runWord_cases h with ⟨-, rfl⟩ | ⟨i, -, ⟨-, rfl⟩ | ⟨-, -, rfl⟩ | ⟨-, rfl⟩⟩
  · exact hcomplete _ _ _ _ s hs
  · exact hcomplete _ _ _ _ s hs
  · exact hburst _ (htodo _ s hs)
  · exact hburst _ hs

/-! ## The device's store -/

/-- A device whose transaction a reset has cut has no store (R267), nor has an absent one. -/
theorem cut_store (d : Device) : d.cut.store = [] := by
  cases d <;> rfl

theorem assertReset_storeCanonical {s : State} (h : s.StoreCanonical) (k : Bool) :
    (s.assertReset k).StoreCanonical := by
  simp only [State.StoreCanonical, State.assertReset_env]
  split
  · simp [cut_store, Memory.wf]
  · exact h

theorem runWord_storeCanonical {w : Word} {s t : State} (hs : s.StoreCanonical) (h : runWord w s = .next t) :
    t.StoreCanonical :=
  runWord_keeps State.StoreCanonical (fun op _ hx => doOp_storeOk op hx) (fun _ _ hx => hx) (fun _ _ hx => hx)
    (fun _ _ _ _ _ hx => hx) hs h

/-- Settles O57: only the sequencer and a reset reach the device. -/
theorem stepKeepsStoreCanonical : Obligations.StepKeepsStoreCanonical := by
  intro s t hs h
  cases step_effect h with
  | unseen _ _ _ _ _ _ h => subst h; exact hs
  | goesOn _ hrun => exact runWord_storeCanonical hs hrun
  | reset k q ts _ h => subst h; exact assertReset_storeCanonical (s := s.served q ts) hs k
  | accepted w q ts _ _ hrun => exact runWord_storeCanonical (s := (s.served q ts).accept w) hs hrun

/-! ## The bus trace -/

/-- A step of the sequencer records one event at most (R62). -/
theorem doOp_trace (op : SeqOp) (s : State) :
    (s.doOp op).trace = s.trace ∨ ∃ e, (s.doOp op).trace = s.trace ++ [e] := by
  cases op with
  | start a d =>
    by_cases h : s.env.startAnswer = .ok
    · simp only [State.doOp, opStart_ok h]
      exact .inr ⟨_, rfl⟩
    · obtain ⟨b, -, hs⟩ := opStart_refused (a := a) (d := d) h
      simp only [State.doOp, hs]
      exact .inr ⟨_, rfl⟩
  | address a d => simp only [State.doOp, opAddress_eq]; split <;> exact .inr ⟨_, rfl⟩
  | stop =>
    by_cases hm : s.mode = .idle
    · simp only [State.doOp, opStop_idle hm, true_or]
    · simp only [State.doOp, opStop_owned hm]
      exact .inr ⟨_, rfl⟩
  | tx b =>
    by_cases hm : s.mode = .mt
    · rw [doOp_tx b hm]
      exact .inr ⟨_, rfl⟩
    · simp only [State.doOp, opTx_skipped b hm, State.setFail_trace, true_or]
  | rx k =>
    by_cases hm : s.mode = .mr
    · simp only [State.doOp, opRx_mr k hm]
      exact .inr ⟨_, rfl⟩
    · simp only [State.doOp, opRx_skipped k hm, State.setFail_trace, true_or]
  | settle => exact .inr ⟨_, rfl⟩
  | waitTick =>
    simp only [State.doOp, State.opWaitTick]
    split
    · exact .inl rfl
    all_goals exact .inr ⟨_, rfl⟩
  | retryUnlessOk a d => simp only [State.doOp, State.opRetryUnlessOk]; split <;> exact .inl rfl
  | finish r => cases r <;> exact .inl rfl
  | _ => exact .inl rfl

theorem doOp_trace_prefix (op : SeqOp) (s : State) : s.trace <+: (s.doOp op).trace := by
  rcases doOp_trace op s with h | ⟨e, h⟩
  · rw [h]
  · rw [h]; exact List.prefix_append ..

theorem runWord_trace {w : Word} {s t : State} (h : runWord w s = .next t) : s.trace <+: t.trace :=
  runWord_keeps (fun x => s.trace <+: x.trace) (fun op x hx => hx.trans (doOp_trace_prefix op x)) (fun _ _ hx => hx)
    (fun _ _ hx => hx) (fun _ _ _ _ _ hx => hx) (List.prefix_refl _) h

theorem step_trace {s t : State} (h : step s = .next t) : s.trace <+: t.trace := by
  cases step_effect h with
  | unseen _ _ _ _ _ _ h => subst h; exact List.prefix_refl _
  | goesOn _ hrun => exact runWord_trace hrun
  | reset k q ts _ h => subst h; exact List.prefix_refl _
  | accepted w q ts _ _ hrun => exact runWord_trace (s := (s.served q ts).accept w) hrun

/-- Settles O58: only the sequencer records, and a reset keeps what is recorded (log entry 18). -/
theorem traceOnlyGrows : Obligations.TraceOnlyGrows := by
  intro s t h
  obtain ⟨es, hes⟩ := step_trace h
  exact ⟨es, hes.symm⟩

end Sys2Proof.Machine
end

section
/-! PROOFS. Which host accesses reach the controller: their width and alignment, and the window (20_memory.md R50, R53,
R70). -/

namespace Sys2Proof.Machine

theorem supported_eq_false {off : BitVec 6} {n : Nat} (h : n ≠ 4 ∨ off.extractLsb' 0 2 ≠ 0#2) :
    supported off n = false := by
  simpa [supported, imp_iff_not_or] using h

/-- Settles O15: such an access is served as unsupported, whether or not reset is asserted. -/
theorem narrowAccessRefused : Obligations.NarrowAccessRefused := by
  intro s q n ts off v h
  have hs := supported_eq_false h
  constructor <;> intro hdue <;> rw [step_due hdue] <;> simp [State.serve, hs]

theorem windowOffset_inside (p : Params) (off : BitVec 6) : windowOffset p (paramBase p + off.toNat) = some off := by
  have hoff := off.isLt
  rw [windowOffset, if_pos (by omega), Nat.add_sub_cancel_left, BitVec.ofNat_toNat, BitVec.setWidth_eq]

theorem windowOffset_outside {p : Params} {addr : Nat} (h : addr < paramBase p ∨ paramBase p + 0x3F < addr) :
    windowOffset p addr = none := by
  rw [windowOffset, if_neg (by omega)]

/-- Settles O16: an access is made at the offset that the decoder gives, if it gives one. -/
theorem windowDecoding : Obligations.WindowDecoding := by
  intro p addr n v
  refine ⟨Nat.mul_mod_right .., ?_, fun hout => ?_⟩
  · rintro off rfl
    simp [memRead, memWrite, windowOffset_inside]
  · simp [memRead, memWrite, windowOffset_outside hout]

end Sys2Proof.Machine
end

section
/-! PROOFS. The decoder and the encoder are inverse to each other (30_encoding.md R81 to R87): the command an opcode names
encodes to the bits of the word that the opcode uses, so a word decodes exactly when it has no other bit set. -/

namespace Sys2Proof

/-! ## Fields and formats -/

@[simp] theorem Dir.bit_ofBit (b : Bool) : (Dir.ofBit b).bit = BitVec.ofBool b := by cases b <;> rfl

@[simp] theorem Dir.ofBit_bit (d : Dir) : Dir.ofBit (d.bit.getLsbD 0) = d := by cases d <;> rfl

/-- The formats of R82: a format's fields, put back where the word has them, are the bits in its `fmask` of R87. -/
theorem format_fields_eq_and_fmask (w : Word) :
    0#28 ++ fieldOp w = w &&& 0x0000000F#32 ∧
    0#17 ++ fieldAddr w ++ 0#3 ++ (Dir.ofBit (fieldBit4 w)).bit ++ fieldOp w = w &&& 0x00007F1F#32 ∧
    0#16 ++ fieldData w ++ 0#4 ++ fieldOp w = w &&& 0x0000FF0F#32 ∧
    0#27 ++ BitVec.ofBool (fieldBit4 w) ++ fieldOp w = w &&& 0x0000001F#32 ∧
    0#16 ++ fieldData w ++ fieldReg w ++ 0#1 ++ fieldOp w = w &&& 0x0000FFEF#32 ∧
    0#24 ++ fieldReg w ++ 0#1 ++ fieldOp w = w &&& 0x000000EF#32 ∧
    0#25 ++ fieldRow w ++ 0#1 ++ fieldOp w = w &&& 0x0000006F#32 ∧
    fieldMask w ++ 0#12 ++ fieldOp w = w &&& 0xFFFF000F#32 := by
  refine ⟨?N, ?A, ?B, ?K, ?RW, ?RR, ?S, ?T⟩
  all_goals
    apply BitVec.eq_of_getLsbD_eq
    intro i hi
    simp only [fieldOp, fieldAddr, fieldBit4, fieldData, fieldReg, fieldRow, fieldMask, BitVec.getLsbD_append,
      BitVec.getLsbD_and, BitVec.getLsbD_extractLsb']
    interval_cases i <;> simp

/-! ## Encoding and decoding -/

/-- R81 to R84: the encoder puts OP and each field where the decoder reads it, so each is read off the word's parts. -/
theorem commandOf_encode (i : Instr) : commandOf (encode i) = some i := by
  cases i <;>
    simp only [commandOf, encode, fieldOp, fieldBit4, fieldAddr, fieldData, fieldReg, fieldRow, fieldMask,
      BitVec.extractLsb'_append_eq_of_le, BitVec.extractLsb'_append_eq_right, BitVec.extractLsb'_eq_self,
      BitVec.getLsbD_append, BitVec.reduceToNat, Nat.reduceLeDiff, Nat.reduceSub, Nat.reduceLT, ↓reduceIte,
      Dir.ofBit_bit, BitVec.getLsbD_ofBool, decide_true, Bool.true_and]

/-- R87: the command that OP names, encoded, is the bits of the word that OP uses. -/
theorem encode_of_commandOf {w : Word} {i : Instr} (h : commandOf w = some i) :
    ∃ m, usedBits (fieldOp w) = some m ∧ encode i = w &&& m := by
  obtain ⟨hN, hA, hB, hK, hRW, hRR, hS, hT⟩ := format_fields_eq_and_fmask w
  unfold commandOf at h
  split at h
  case h_13 => cases h
  all_goals
    rename_i hop
    obtain rfl := Option.some.inj h
    simp only [usedBits, hop, Option.some.injEq, exists_eq_left']
    rw [(BitVec.toNat_eq_nat.1 hop).2] at hN hA hB hK hRW hRR hS hT
    assumption

/-- `w & ~fmask = 0` of R87, said of the bits that are used. -/
theorem and_not_eq_zero_iff {w m : Word} : w &&& ~~~m = 0#32 ↔ w &&& m = w := by
  have hsplit : (w &&& m) ||| (w &&& ~~~m) = w := by ext i hi; simp [← Bool.and_or_distrib_left]
  have hdisjoint : w &&& m &&& ~~~m = 0#32 := by simp [BitVec.and_assoc]
  constructor <;> intro h
  · rwa [h, BitVec.or_zero] at hsplit
  · rwa [h] at hdisjoint

theorem decode_of_commandOf {w : Word} {i : Instr} (h : commandOf w = some i) :
    decode w = if encode i = w then .command i else .illegal .reservedBit := by
  obtain ⟨m, hm, henc⟩ := encode_of_commandOf h
  simp only [decode, hm, h, henc, and_not_eq_zero_iff]

theorem decode_of_commandOf_none {w : Word} (h : commandOf w = none) : decode w = .illegal .reservedOpcode := by
  simp [decode, h]

/-- R87: the one word that decodes to a command is the word that encodes it. -/
theorem decode_eq_command_iff {w : Word} {i : Instr} : decode w = .command i ↔ encode i = w := by
  constructor
  · intro h
    cases hc : commandOf w with
    | none => simp [decode_of_commandOf_none hc] at h
    | some j =>
      rw [decode_of_commandOf hc] at h
      split at h
      next hw => cases h; exact hw
      next => cases h
  · rintro rfl
    rw [decode_of_commandOf (commandOf_encode i), if_pos rfl]

/-- Settles O1: the words are evaluated; that they decode to the commands follows from `decode_eq_command_iff`. -/
theorem workedEncodings : Obligations.WorkedEncodings := by
  intro x hx
  have henc : encode x.1 = x.2 := by revert x; decide
  exact ⟨henc, decode_eq_command_iff.2 henc⟩

/-- Settles O3: the encoded command is the word that decodes to it. -/
theorem decodeOfEncode : Obligations.DecodeOfEncode := fun _ _ => decode_eq_command_iff.2 rfl

end Sys2Proof
end

section
/-! PROOFS. The opcode table against the decoder (30_encoding.md R86, R87): a row's mask and match value fix OP and leave
only the bits that OP uses. -/

namespace Sys2Proof

theorem mem_opTable {r : OpRow} : r ∈ opTable ↔ ∃ i, opRow i = r := by
  constructor
  · intro h
    simp only [opTable, List.cons_append, List.nil_append, List.mem_cons, List.not_mem_nil, or_false] at h
    rcases h with h | h | h | h | h | h | h | h | h | h | h | h <;> exact ⟨_, h.symm⟩
  · rintro ⟨i, rfl⟩
    cases i <;> simp [opTable, opRow]

/-- R87: the encoded command is a word of its own row. -/
theorem encode_and_mask : ∀ i : Instr, encode i &&& (opRow i).mask = (opRow i).pattern
  | .start a d => Laws.EncodeRow.start a d
  | .repstart a d => Laws.EncodeRow.repstart a d
  | .startRetry a d => Laws.EncodeRow.startRetry a d
  | .writeByte b => Laws.EncodeRow.writeByte b
  | .readByte k => Laws.EncodeRow.readByte k
  | .stop => Laws.EncodeRow.stop
  | .writeReg r b => Laws.EncodeRow.writeReg r b
  | .readReg r => Laws.EncodeRow.readReg r
  | .scanRow y => Laws.EncodeRow.scanRow y
  | .scanKeypad => Laws.EncodeRow.scanKeypad
  | .scanEdge => Laws.EncodeRow.scanEdge
  | .translate m => Laws.EncodeRow.translate m

/-- R87: a row's mask has OP and every bit that the row's opcode does not use; the match value has none of the latter. -/
theorem opRow_mask (i : Instr) :
    fieldOp (opRow i).mask = 0xF#4 ∧ ∃ m, usedBits (fieldOp (opRow i).pattern) = some m ∧
      (opRow i).mask &&& ~~~m = ~~~m ∧ (opRow i).pattern &&& ~~~m = 0#32 := by
  cases i <;> simp only [opRow] <;> exact ⟨by decide, _, rfl, by decide, by decide⟩

/-- R83: a row's match value has the opcode of the row's commands. -/
theorem commandOf_of_fieldOp {w : Word} {i : Instr} (h : fieldOp w = fieldOp (opRow i).pattern) :
    ∃ j, commandOf w = some j ∧ opRow j = opRow i := by
  cases i <;> simp only [commandOf, h] <;> exact ⟨_, rfl, rfl⟩

theorem fieldOp_of_row {w : Word} {i : Instr} (h : w &&& (opRow i).mask = (opRow i).pattern) :
    fieldOp w = fieldOp (opRow i).pattern := by
  obtain ⟨hop, -⟩ := opRow_mask i
  calc fieldOp w = fieldOp w &&& fieldOp (opRow i).mask := by rw [hop]; exact BitVec.and_allOnes.symm
    _ = fieldOp (w &&& (opRow i).mask) := BitVec.extractLsb'_and.symm
    _ = fieldOp (opRow i).pattern := by rw [h]

/-- R85: a word of a row has no reserved bit set. -/
theorem and_not_usedBits_of_row {w m : Word} {i : Instr} (h : w &&& (opRow i).mask = (opRow i).pattern)
    (hm : usedBits (fieldOp w) = some m) : w &&& ~~~m = 0#32 := by
  obtain ⟨-, m', hm', hmask, hpat⟩ := opRow_mask i
  obtain rfl : m' = m := Option.some.inj (hm'.symm.trans (fieldOp_of_row h ▸ hm))
  calc w &&& ~~~m' = w &&& (opRow i).mask &&& ~~~m' := by rw [BitVec.and_assoc, hmask]
    _ = 0#32 := by rw [h, hpat]

/-- R87: the words of a row are the encoded commands of that row. -/
theorem and_mask_eq_pattern_iff {w : Word} {r : OpRow} (hr : r ∈ opTable) :
    w &&& r.mask = r.pattern ↔ ∃ i, encode i = w ∧ opRow i = r := by
  constructor
  · intro h
    obtain ⟨i, rfl⟩ := mem_opTable.1 hr
    obtain ⟨j, hj, hrow⟩ := commandOf_of_fieldOp (fieldOp_of_row h)
    obtain ⟨m, hm, henc⟩ := encode_of_commandOf hj
    exact ⟨j, henc.trans (and_not_eq_zero_iff.1 (and_not_usedBits_of_row h hm)), hrow⟩
  · rintro ⟨i, rfl, rfl⟩
    exact encode_and_mask i

/-- R86: no command is named by a reserved opcode. -/
theorem decode_reservedOpcode {w : Word}
    (h : fieldOp w = 0x0#4 ∨ fieldOp w = 0xD#4 ∨ fieldOp w = 0xE#4 ∨ fieldOp w = 0xF#4) :
    decode w = .illegal .reservedOpcode := by
  apply decode_of_commandOf_none
  rcases h with h | h | h | h <;> simp only [commandOf, h] <;> rfl

/-- Settles O2: a word that decodes is the encoded command, which is a word of the command's row. -/
theorem decoderAgreesWithTable : Obligations.DecoderAgreesWithTable := by
  intro w
  refine ⟨fun r hr => ?_, fun i => decode_eq_command_iff.1, fun hno => ?_, decode_reservedOpcode⟩
  · simp only [decode_eq_command_iff, and_mask_eq_pattern_iff hr]
  · cases h : decode w with
    | illegal why => exact ⟨why, rfl⟩
    | command i =>
      obtain rfl := decode_eq_command_iff.1 h
      exact absurd (encode_and_mask i) (hno _ (mem_opTable.2 ⟨i, rfl⟩))

end Sys2Proof
end

section
/-! PROOFS. The assembler (30_encoding.md R88): a line with its operands in range has the word of its command. -/

namespace Sys2Proof

theorem assemble_word {periph : BitVec 7} {l : Asm} {i : Instr} (hl : l.wellFormed = true)
    (hi : l.command periph = i) : ∃ w, assemble periph l = some w ∧ decode w = .command i :=
  ⟨encode i, by rw [assemble, if_pos hl, hi], decode_eq_command_iff.2 rfl⟩

theorem assemble_error {periph : BitVec 7} {l : Asm} (hl : l.wellFormed = false) : assemble periph l = none := by
  simp [assemble, hl]

theorem wellFormed_writeReg_num {r n : Nat} : (Asm.writeReg (.num r) n).wellFormed = true ↔ r ≤ 7 ∧ n ≤ 0xFF := by
  simp [Asm.wellFormed, AsmReg.inRange]

/-- Settles O4: the range of each operand is what `Asm.wellFormed` asks of its line, and its value is the field's. -/
theorem assemblerWords : Obligations.AssemblerWords := by
  intro periph word error names
  have inRange {l : Asm} {i : Instr} : l.wellFormed = true → l.command periph = i → word l i := assemble_word
  have outOfRange {l : Asm} : l.wellFormed = false → error l := assemble_error
  have le {n k : Nat} (h : n ≤ k) : decide (n ≤ k) = true := decide_eq_true h
  have gt {n k : Nat} (h : k < n) : decide (n ≤ k) = false := decide_eq_false h.not_ge
  have number : ∀ x ∈ names, x.1.number = x.2 := by decide
  refine ⟨fun n d => ⟨fun h => ?_, fun h => ?_, ?_⟩, fun n => ?_, fun r n => ⟨fun hr hn => ?_, fun h => ?_⟩,
    fun x hx => ⟨?_, fun n => ⟨fun h => ?_, fun h => ?_⟩⟩, ?_⟩
  · exact ⟨inRange (le h) rfl, inRange (le h) rfl, inRange (le h) rfl⟩
  · exact ⟨outOfRange (gt h), outOfRange (gt h), outOfRange (gt h)⟩
  · exact ⟨inRange rfl rfl, inRange rfl rfl, inRange rfl rfl⟩
  · exact ⟨fun h => inRange (le h) rfl, fun h => outOfRange (gt h), fun h => inRange (le h) rfl,
      fun h => outOfRange (gt h), fun h => inRange (le h) rfl, fun h => outOfRange (gt h),
      fun h => inRange (le h) rfl, fun h => outOfRange (gt h)⟩
  · exact inRange (wellFormed_writeReg_num.2 ⟨hr, hn⟩) rfl
  · exact outOfRange (Bool.eq_false_iff.2 fun hw => by have := wellFormed_writeReg_num.1 hw; omega)
  · exact inRange rfl (congrArg Instr.readReg (number x hx))
  · exact inRange (le h) (congrArg (Instr.writeReg · _) (number x hx))
  · exact outOfRange (gt h)
  · exact ⟨fun k => inRange rfl rfl, inRange rfl rfl, inRange rfl rfl, inRange rfl rfl⟩

end Sys2Proof
end

section
/-! PROOFS. The primitive commands that complete, for every answer of the environment (40_bus_primitives.md section 2):
one equation for each bus phase, and the burst that ends with the completion. -/

namespace Sys2Proof.Machine

/-! ## Beginning and completing in one burst -/

/-- A command that is not refused and that the burst takes to its end (R220, R221). -/
theorem exec_completes {i : Instr} {s t : State} {n : Nat} (ht : s.todo = []) (ha : allowedIn s.mode i = true)
    (hrun : Reaches n { s with todo := stepsOf s.par i, quiet := 0 } t) (hdone : t.todo = []) (hq : n ≤ s.quiet) :
    exec i s = .next t := by
  rw [exec_eq, ha, command_completes ht hrun hdone hq]

theorem complete_completedWith (r : Mask) (f : Bool) (s : State) : (s.complete r f false false).CompletedWith r f :=
  ⟨rfl, rfl, rfl, rfl, rfl, rfl, rfl⟩

theorem State.FixedAs.refl (s : State) : s.FixedAs s := ⟨rfl, rfl, rfl, rfl, rfl, rfl, rfl, rfl⟩

/-- The completion of START, REPSTART and WRITE_BYTE (R104, R118). -/
theorem reaches_finish_outcome {s : State} (ht : s.todo = [.finish .outcome]) :
    Reaches 1 s (s.complete (outcomeWord s.stepFail) s.stepFail false false) := reaches_step ht rfl

/-- The completion of START_RETRY and STOP (R112, R126). -/
theorem reaches_finish_value {s : State} {v : Mask} (ht : s.todo = [.finish (.value v)]) :
    Reaches 1 s (s.complete v false false false) := reaches_step ht rfl

/-! ## WRITE_BYTE, READ_BYTE and STOP -/

/-- Settles O24: the byte phase is that of write_seq in MT, and its outcome is what the completion reports. -/
theorem writeByteCompletes : Obligations.WriteByteCompletes := by
  intro b s ht hm hq r
  have hrun := (reaches_step (s := { s with todo := [.tx b, .finish .outcome], quiet := 0 }) rfl (doOp_tx b hm)).trans
    (reaches_finish_outcome rfl)
  refine ⟨_, exec_completes ht (by simp [allowedIn, hm]) hrun rfl hq, complete_completedWith .., .refl s, rfl, rfl,
    rfl, rfl, fun hr => ?_, fun hr => ?_, fun hr => ?_⟩
  all_goals exact ⟨congrArg txMode hr, congrArg txStat hr⟩

/-- Settles O25: the byte phase is that of read_seq in MR, and the completion reports the byte latch. -/
theorem readByteCompletes : Obligations.ReadByteCompletes := by
  intro k s ht hm hq v
  have hrun := (reaches_step (s := { s with todo := [.rx k, .finish .byte], quiet := 0 }) rfl (opRx_mr k hm)).trans
    (reaches_step (op := .finish .byte) rfl rfl)
  exact ⟨_, exec_completes ht (by simp [allowedIn, hm]) hrun rfl hq, complete_completedWith ..,
    .refl s, rfl, rfl, rfl, rfl, rfl, rfl⟩

/-- Settles O26: stop_seq does nothing on an IDLE bus and releases an owned one. -/
theorem stopCompletes : Obligations.StopCompletes := by
  intro s ht hq
  by_cases hm : s.mode = .idle
  · have hrun := (reaches_stop_idle (s := { s with todo := [.stop, .finish (.value 0#16)], quiet := 0 }) rfl hm).trans
      (reaches_finish_value rfl)
    exact ⟨_, exec_completes ht rfl hrun rfl hq, complete_completedWith .., .refl s, hm,
      rfl, rfl, rfl, fun _ => ⟨rfl, rfl⟩, fun h => absurd hm h⟩
  · have hrun := (reaches_stop (s := { s with todo := [.stop, .finish (.value 0#16)], quiet := 0 }) rfl hm).trans
      (reaches_finish_value rfl)
    exact ⟨_, exec_completes ht rfl hrun rfl hq, complete_completedWith .., .refl s, rfl,
      rfl, rfl, rfl, fun h => absurd h hm, fun _ => ⟨rfl, rfl⟩⟩

/-! ## start_seq, for every answer -/

theorem ackMode_eq (d : Dir) : ackMode d = if d = .write then .mt else .mr := by cases d <;> rfl

theorem ackStat_eq (d : Dir) : ackStat d = if d = .write then .slawAck else .slarAck := by cases d <;> rfl

theorem nackStat_eq (d : Dir) : nackStat d = if d = .write then .slawNack else .slarNack := by cases d <;> rfl

/-- The bus mode after the address phase of start_seq (R101). -/
def addressMode (d : Dir) : AckAnswer → BusMode
  | .ack => ackMode d
  | .nack => .owned
  | .arbLost => .idle

/-- The status code after the address phase of start_seq (R101). -/
def addressStat (d : Dir) : AckAnswer → BusStat
  | .ack => ackStat d
  | .nack => nackStat d
  | .arbLost => .arbLost

/-- The address phase of start_seq as one update (R101). -/
theorem doOp_address (a : BitVec 7) (d : Dir) (s : State) :
    let r := s.env.addressAnswer s.par (addressByte a d)
    s.doOp (.address a d) =
      { s with
        env := s.env.afterAddress (addressByte a d), trace := s.trace ++ [.a (addressByte a d) r]
        mode := addressMode d r, busStat := addressStat d r, stepFail := decide (r ≠ .ack)
        sclDrv := txScl r, sdaDrv := .released } := by
  intro r
  simp only [State.doOp, opAddress_eq]
  cases hr : s.env.addressAnswer s.par (addressByte a d) <;>
    simp [r, hr, State.record, State.setBus, State.setFail, addressMode, addressStat, txScl]

/-- start_seq once the start condition is granted, for every answer to the address (R101). -/
theorem reaches_start_granted {s : State} {a : BitVec 7} {d : Dir} {rest : List SeqOp}
    (ht : s.todo = .start a d :: rest) (h : s.env.startAnswer = .ok) :
    let r := s.env.afterStart.addressAnswer s.par (addressByte a d)
    Reaches 2 s
      { s with
        env := envAfterAttempt a d s.env
        trace := s.trace ++ [if s.mode = .idle then .s else .sr, .a (addressByte a d) r]
        mode := addressMode d r, busStat := addressStat d r, stepFail := decide (r ≠ .ack)
        sclDrv := txScl r, sdaDrv := .released, todo := rest } := by
  have hrun := (reaches_step ht (opStart_ok h)).trans (reaches_step (op := .address a d) rfl (doOp_address a d _))
  have henv : envAfterAttempt a d s.env = s.env.afterStart.afterAddress (addressByte a d) := if_pos h
  intro r
  rw [henv, List.append_cons]
  exact hrun

/-- The status code after a start condition (R101); a repeated start that is granted has another. -/
def startStat : StartAnswer → BusStat
  | .ok => .startSent
  | .busError => .busError
  | .arbLost => .arbLost

/-- A start condition that failed: there is no address phase (R101, R136, R137). -/
theorem doOp_start_failed {s : State} {a : BitVec 7} {d : Dir} (h : s.env.startAnswer ≠ .ok) :
    s.doOp (.start a d) =
      { s with
        env := s.env.afterStart, trace := s.trace ++ [.sfail (statCode (startStat s.env.startAnswer))], mode := .idle
        busStat := startStat s.env.startAnswer, stepFail := true, sclDrv := .released, sdaDrv := .released } := by
  cases hs : s.env.startAnswer with
  | ok => exact absurd hs h
  | busError => simp only [State.doOp, State.opStart, hs]; rfl
  | arbLost => simp only [State.doOp, State.opStart, hs]; rfl

theorem attemptOk_granted {p : Params} {a : BitVec 7} {d : Dir} {e : Env} (h : e.startAnswer = .ok) :
    (!attemptOk p a d e) = decide (e.afterStart.addressAnswer p (addressByte a d) ≠ .ack) := by
  simp [attemptOk, h]

theorem attemptOk_refused {p : Params} {a : BitVec 7} {d : Dir} {e : Env} (h : e.startAnswer ≠ .ok) :
    (!attemptOk p a d e) = true := by
  simp [attemptOk, h]

/-- START and REPSTART have the same steps, and neither is refused (R104, R108). -/
theorem exec_start_or_repstart {i : Instr} {a : BitVec 7} {d : Dir} {s t : State} {n : Nat}
    (hi : i = .start a d ∨ i = .repstart a d) (ht : s.todo = [])
    (hrun : Reaches n { s with todo := [.start a d, .finish .outcome], quiet := 0 } t) (hdone : t.todo = [])
    (hq : n ≤ s.quiet) : exec i s = .next t := by
  rcases hi with rfl | rfl <;> exact exec_completes ht rfl hrun hdone hq

/-- Settles O18: a start condition that is granted is followed by the address phase, a failed one by nothing. -/
theorem startCompletes : Obligations.StartCompletes := by
  intro i a d s hi ht hq b r busy
  by_cases hs : s.env.startAnswer = .ok
  · have hrun := (reaches_start_granted (s := { s with todo := [.start a d, .finish .outcome], quiet := 0 }) rfl hs).trans
      (reaches_finish_outcome rfl)
    refine ⟨_, exec_start_or_repstart hi ht hrun rfl hq, ?_, .refl s,
      fun _ => ⟨rfl, fun hr => ?_, fun hr => ?_, fun hr => ?_⟩, by simp [hs], by simp [hs]⟩
    · simp only [busy, attemptOk_granted hs]
      exact complete_completedWith ..
    · rw [← ackMode_eq, ← ackStat_eq]
      exact ⟨congrArg (addressMode d) hr, congrArg (addressStat d) hr⟩
    · rw [← nackStat_eq]
      exact ⟨congrArg (addressMode d) hr, congrArg (addressStat d) hr⟩
    · exact ⟨congrArg (addressMode d) hr, congrArg (addressStat d) hr⟩
  · have hrun := (reaches_step (s := { s with todo := [.start a d, .finish .outcome], quiet := 0 }) rfl
      (doOp_start_failed hs)).trans (reaches_finish_outcome rfl)
    refine ⟨_, exec_start_or_repstart hi ht hrun rfl (by omega), ?_, .refl s,
      fun h => absurd h hs, fun hx => ?_, fun hx => ?_⟩
    · simp only [busy, attemptOk_refused hs]
      exact complete_completedWith ..
    all_goals
      exact ⟨congrArg (fun x => s.trace ++ [Event.sfail (statCode (startStat x))]) hx, rfl, congrArg startStat hx⟩

theorem addressByte_addr (a : BitVec 7) (d : Dir) : (addressByte a d).extractLsb' 1 7 = a := by
  cases d <;> (revert a; decide)

theorem addressByte_dir (a : BitVec 7) (d : Dir) : (addressByte a d).getLsbD 0 = decide (d = .read) := by
  cases d <;> (revert a; decide)

/-- Settles O19: the burst of one step is the start condition, which puts the address phase ahead (log entry 1). -/
theorem startConditionPhase : Obligations.StartConditionPhase := by
  intro i a d s hi ht hq hs
  have hexec : exec i s = .next (({ s with todo := [.start a d, .finish .outcome] } : State).burst 1) := by
    rcases hi with rfl | rfl <;> rw [exec_begins ht rfl, hq] <;> rfl
  have hburst : ({ s with todo := [.start a d, .finish .outcome] } : State).burst 1 =
      ({ s with todo := [.finish .outcome], quiet := 0 } : State).opStart a d := rfl
  rw [hexec, hburst, opStart_ok (s := { s with todo := [.finish .outcome], quiet := 0 }) hs]
  exact ⟨_, rfl, rfl, rfl, rfl, rfl, rfl, rfl, addressByte_addr a d, addressByte_dir a d⟩

/-! ## retry_seq -/

/-- Settles O20: the retry loop ends with the attempt that is granted, and the completion follows. -/
theorem startRetryCompletes : Obligations.StartRetryCompletes := by
  intro a d k s ht hg hq
  obtain ⟨es, c, hc, hretry⟩ := reaches_retry
    (s := { s with todo := retrySeq a d ++ [.finish (.value 0#16)], quiet := 0 }) rfl hg
  exact ⟨_, exec_completes ht rfl (hretry.trans (reaches_finish_value rfl)) rfl hq, complete_completedWith ..,
    .refl s, hc, ackMode_eq d, ackStat_eq d, rfl, rfl⟩

/-- One attempt of the loop of retry_seq whose address is not acknowledged: a stop follows, and the next attempt is ahead
(R103). -/
theorem reaches_attempt_nack {s : State} {a : BitVec 7} {d : Dir} {rest : List SeqOp}
    (ht : s.todo = .attempt a d :: rest) (hm : s.mode = .idle) (h : s.env.startAnswer = .ok)
    (hr : s.env.afterStart.addressAnswer s.par (addressByte a d) = .nack) :
    Reaches 5 s
      { s with
        env := envAfterAttempt a d s.env, trace := s.trace ++ [.s, .a (addressByte a d) .nack, .p], mode := .idle
        busStat := .noInfo, stepFail := true, attempts := nextAttempt s.attempts
        sclDrv := .released, sdaDrv := .released, todo := .attempt a d :: rest } := by
  have hhead := reaches_step ht (rfl : _ = State.opAttempt a d _)
  have hstart := hhead.trans (reaches_start_granted rfl h)
  have htail := hstart.trans (reaches_step (op := .retryUnlessOk a d) (rest := rest)
    (t := { s with
      env := envAfterAttempt a d s.env, trace := s.trace ++ [.s, .a (addressByte a d) .nack], mode := .owned
      busStat := nackStat d, stepFail := true, attempts := nextAttempt s.attempts
      sclDrv := .low, sdaDrv := .released, todo := .stop :: .attempt a d :: rest }) rfl (by
        simp [State.doOp, State.opAttempt, State.opRetryUnlessOk, hr, hm, addressMode, addressStat, txScl]))
  simpa using htail.trans (reaches_stop rfl nofun)

theorem startAnswer_scripted {e : Env} {x : StartAnswer} {xs : List StartAnswer} (h : e.starts = x :: xs) :
    e.startAnswer = x := by
  simp [Env.startAnswer, h]

theorem addressAnswer_scripted {p : Params} {e : Env} {x : AckAnswer} {xs : List AckAnswer} (h : e.addrs = x :: xs)
    (b : Byte) : e.afterStart.addressAnswer p b = x := by
  simp [Env.addressAnswer, Env.afterStart, h]

/-- An attempt whose start condition is granted uses up one scripted answer of each kind. -/
theorem envAfterAttempt_scripts {e : Env} (h : e.startAnswer = .ok) (a : BitVec 7) (d : Dir) :
    (envAfterAttempt a d e).starts = e.starts.tail ∧ (envAfterAttempt a d e).addrs = e.addrs.tail := by
  rw [envAfterAttempt, if_pos h]
  exact ⟨rfl, rfl⟩

/-- Settles O21: two attempts that end with a stop and one that is granted. -/
theorem retryStopsBetweenAttempts : Obligations.RetryStopsBetweenAttempts := by
  intro a d s st ad ht hm hstarts haddrs hq b
  have hok1 := startAnswer_scripted hstarts
  obtain ⟨hstarts1, haddrs1⟩ := envAfterAttempt_scripts hok1 a d
  rw [hstarts] at hstarts1
  rw [haddrs] at haddrs1
  have hok2 := startAnswer_scripted hstarts1
  obtain ⟨hstarts2, haddrs2⟩ := envAfterAttempt_scripts hok2 a d
  rw [hstarts1] at hstarts2
  rw [haddrs1] at haddrs2
  have hok3 := startAnswer_scripted hstarts2
  have hbegin := reaches_step (s := { s with todo := retrySeq a d ++ [.finish (.value 0#16)], quiet := 0 }) 
    (t := { s with attempts := 0#16, todo := [.attempt a d, .finish (.value 0#16)], quiet := 0 }) rfl rfl
  have hnack1 := hbegin.trans (reaches_attempt_nack rfl hm hok1 (addressAnswer_scripted haddrs _))
  have hnack2 := hnack1.trans (reaches_attempt_nack rfl rfl hok2 (addressAnswer_scripted haddrs1 _))
  have hack := hnack2.trans (reaches_of_run (run_attempt_ok rfl
    ((attemptOk_iff ..).mpr ⟨hok3, addressAnswer_scripted haddrs2 _⟩)))
  have hrun := hack.trans (reaches_finish_value rfl)
  refine ⟨_, exec_completes ht rfl hrun rfl hq, rfl, rfl, rfl, ?_⟩
  simp [b]

end Sys2Proof.Machine
end

section
/-! PROOFS. A retry that the environment never grants (40_bus_primitives.md R103, R114). -/

namespace Sys2Proof.Machine

/-- Settles O22: START_RETRY begins at the head of a hopeless retry, and however many steps are taken the command is still
in it and has reported nothing. -/
theorem neverGrantedNeverCompletes : Obligations.NeverGrantedNeverCompletes := by
  refine ⟨fun a d s q ht hn => ?_, fun a d rest i s t hb hi hhopeless h => ?_⟩
  · have hbegin : ({ s with todo := retrySeq a d ++ [.finish (.value 0#16)], quiet := 0 } : State).Hopeless a d
        [.finish (.value 0#16)] := .inl ⟨rfl, hn⟩
    obtain ⟨⟨-, -, hbusy, hdone, hresult, hfail, hseq, hill, -⟩, hhopeless⟩ := hopeless_run q hbegin
    exact ⟨_, exec_begins (s := { s with quiet := q }) ht rfl, hhopeless, hopeless_todo hhopeless, hbusy, hdone, hresult,
      hfail, hseq, hill⟩
  · refine (running_step hb hi (hopeless_todo hhopeless) h).imp_right ?_
    rintro ⟨rdata, div, ovr, inReset, host, quiet, n, rfl⟩
    obtain ⟨⟨-, hcur, hbusy, hdone, hresult, hfail, hseq, hill, hdebounce⟩, hhopeless'⟩ := hopeless_run n
      (s := { s with rdata := rdata, div := div, ovr := ovr, inReset := inReset, host := host, quiet := quiet })
      hhopeless
    exact ⟨hbusy.trans hb, hcur, hhopeless', hdone, hresult, hfail, hseq, hill, hdebounce⟩

end Sys2Proof.Machine
end

section
/-! PROOFS. The frames of the primitive commands (40_bus_primitives.md section 2; 10_state.md R44): what a command shows
of the state is unchanged if each of its steps leaves it unchanged. -/

namespace Sys2Proof.Machine

/-! ## The frame of a command from the frames of its steps -/

/-- The steps that a step can put ahead of the sequencer (R101, R103, R178). -/
def SeqOp.adds : SeqOp → List SeqOp
  | .attempt a d => [.start a d, .retryUnlessOk a d]
  | .retryUnlessOk a d => [.stop, .attempt a d]
  | .start a d => [.address a d]
  | .waitTick => [.waitTick]
  | _ => []

theorem doOp_todo_subset (op : SeqOp) (s : State) : (s.doOp op).todo ⊆ op.adds ++ s.todo := by
  cases op with
  | finish r =>
    obtain ⟨-, -, htodo⟩ := opFinish_completed r s
    simp only [State.doOp, htodo, List.nil_subset]
  | retryUnlessOk a d =>
    simp only [State.doOp, State.opRetryUnlessOk]
    split
    · exact List.Subset.refl _
    · exact List.subset_append_right ..
  | start a d =>
    by_cases h : s.env.startAnswer = .ok
    · simp only [State.doOp, opStart_ok h]
      exact List.Subset.refl _
    · rw [doOp_start_failed h]
      exact List.subset_append_right ..
  | stop => simp only [State.doOp, State.opStop]; split <;> exact List.Subset.refl _
  | tx b => simp only [State.doOp, State.opTx]; split <;> (try split) <;> exact List.Subset.refl _
  | rx k => simp only [State.doOp, State.opRx]; split <;> (try split) <;> exact List.Subset.refl _
  | address a d => rw [doOp_address]; exact List.Subset.refl _
  | waitTick =>
    simp only [State.doOp, State.opWaitTick]
    split
    · exact List.Subset.refl _
    all_goals exact List.subset_append_right ..
  | _ => exact List.Subset.refl _

/-- What `f` shows of the state is unchanged by a command, however far its burst gets, if the steps that it takes, all of
a class `C`, leave it unchanged, and so does a refusal. -/
theorem exec_frame {α : Type} (f : State → α) (C : SeqOp → Bool)
    (hadds : ∀ op, C op = true → ∀ o ∈ op.adds, C o = true)
    (hstep : ∀ op s, C op = true → f (s.doOp op) = f s)
    (hseq : ∀ l n s, f { s with todo := l, quiet := n } = f s)
    (hrefuse : ∀ v s, f (s.raiseSeqErr v) = f s)
    {i : Instr} {s : State} (hi : ∀ op ∈ stepsOf s.par i, C op = true) (hs : ∀ op ∈ s.todo, C op = true) :
    ∃ t : State, exec i s = .next t ∧ f t = f s ∧ ∀ op ∈ t.todo, C op = true := by
  have hburst (n : Nat) (l : List SeqOp) (hl : ∀ op ∈ l, C op = true) :
      f (({ s with todo := l } : State).burst n) = f s ∧
        ∀ op ∈ (({ s with todo := l } : State).burst n).todo, C op = true := by
    refine runOps_keeps (fun x => f x = f s ∧ ∀ op ∈ x.todo, C op = true) ?_ n _ ⟨hseq l 0 s, hl⟩
    rintro op rest x ⟨hx, hC⟩ ht
    rw [ht] at hC
    obtain ⟨hop, hrest⟩ := List.forall_mem_cons.mp hC
    refine ⟨(hstep op _ hop).trans ((hseq rest x.quiet x).trans hx), fun o ho => ?_⟩
    rcases List.mem_append.mp (doOp_todo_subset op _ ho) with ho | ho
    · exact hadds op hop o ho
    · exact hrest o ho
  refine ⟨_, exec_eq i s, ?_⟩
  rcases command_cases (allowedIn s.mode i) (refusedWord i) (stepsOf s.par i) s with ⟨-, -, h⟩ | ⟨-, -, h⟩ | ⟨-, h⟩ <;>
    rw [h]
  · exact ⟨hrefuse _ s, nofun⟩
  · exact hburst _ _ hi
  · exact hburst _ s.todo hs

/-! ## What a primitive command leaves unchanged -/

/-- The state without what start_seq, stop_seq, write_seq and a completion can change: RESULT, STATUS, BUSSTAT, the bus
mode, the lines, the trace, the environment and the sequencer's position and outcome latch. -/
def State.offBus (s : State) : State :=
  { State.reset with
    cmd := s.cmd, ovr := s.ovr, debounce := s.debounce, div := s.div, attempts := s.attempts, cur := s.cur
    failAcc := s.failAcc, acc := s.acc, s1 := s.s1, s2 := s.s2, timer := s.timer, rx := s.rx, par := s.par
    inReset := s.inReset, host := s.host, rdata := s.rdata }

/-- ATTEMPTS, which retry_seq changes, and the byte latch, which read_seq changes, taken away too (R37, R103, R117). -/
def State.offPrimitive (s : State) : State := { s.offBus with attempts := 0#16, rx := 0#8 }

/-- The fields that no primitive command changes. -/
theorem frame_of_offPrimitive {s t : State} (h : t.offPrimitive = s.offPrimitive) :
    s.FixedAs t ∧ s.ScannerAs t ∧ t.debounce = s.debounce ∧ t.failAcc = s.failAcc := by
  have hfield {β : Type} (g : State → β) : g t.offPrimitive = g s.offPrimitive := congrArg g h
  exact ⟨⟨hfield State.cmd, hfield State.cur, hfield State.ovr, hfield State.div, hfield State.par, hfield State.inReset,
    hfield State.host, hfield State.rdata⟩, ⟨hfield State.acc, hfield State.s1, hfield State.s2, hfield State.timer⟩,
    hfield State.debounce, hfield State.failAcc⟩

/-- What the frame of a bus primitive speaks of: the state off the bus, and the store of the device. -/
def busView (s : State) : State × Memory := (s.offBus, s.env.device.store)

theorem busView_opStart (a : BitVec 7) (d : Dir) (s : State) : busView (s.doOp (.start a d)) = busView s := by
  by_cases h : s.env.startAnswer = .ok
  · simp only [State.doOp, opStart_ok h]; rfl
  · rw [doOp_start_failed h]; rfl

theorem busView_opAddress (a : BitVec 7) (d : Dir) (s : State) : busView (s.doOp (.address a d)) = busView s := by
  rw [doOp_address]
  exact congrArg (Prod.mk s.offBus) (afterAddress_store ..)

theorem busView_opStop (s : State) : busView s.opStop = busView s := by
  by_cases h : s.mode = .idle
  · rw [opStop_idle h]
  · rw [opStop_owned h]; rfl

/-! ## START, REPSTART and STOP -/

theorem stepOfStart_adds {op : SeqOp} (h : stepOfStart op = true) : ∀ o ∈ op.adds, stepOfStart o = true := by
  cases op with
  | start a d => simp [SeqOp.adds, stepOfStart]
  | address a d => nofun
  | stop => nofun
  | finish r => nofun
  | _ => cases h

theorem stepOfStart_frame {op : SeqOp} (h : stepOfStart op = true) (s : State) : busView (s.doOp op) = busView s := by
  cases op with
  | start a d => exact busView_opStart a d s
  | address a d => exact busView_opAddress a d s
  | stop => exact busView_opStop s
  | finish r =>
    cases r with
    | outcome => rfl
    | value v => rfl
    | _ => cases h
  | _ => cases h

/-- Settles O41: each of their steps leaves the state off the bus and the device's store alone. -/
theorem frameOfStartAndStop : Obligations.FrameOfStartAndStop := by
  intro i s hi hs
  have hsteps : ∀ op ∈ stepsOf s.par i, stepOfStart op = true := by
    rcases hi with ⟨a, d, rfl⟩ | ⟨a, d, rfl⟩ | rfl <;> simp [stepsOf, stepOfStart]
  obtain ⟨t, hexec, hview, hclass⟩ := exec_frame busView stepOfStart (fun _ => stepOfStart_adds)
    (fun _ s h => stepOfStart_frame h s) (fun _ _ _ => rfl) (fun _ _ => rfl) hsteps hs
  obtain ⟨hoff, hstore⟩ := Prod.mk.inj hview
  obtain ⟨hfixed, hscanner, hdebounce, hfailAcc⟩ := frame_of_offPrimitive
    (congrArg (fun x : State => { x with attempts := 0#16, rx := 0#8 }) hoff)
  exact ⟨t, hexec, hfixed, hscanner, hdebounce, (congrArg State.attempts hoff :), hfailAcc, (congrArg State.rx hoff :),
    fun a => congrArg (Memory.read · a) hstore, hclass⟩

/-! ## START_RETRY -/

/-- What the frame of START_RETRY speaks of: ATTEMPTS is not in it (R37). -/
def retryView (s : State) : State × Memory := ({ s.offBus with attempts := 0#16 }, s.env.device.store)

theorem retryView_of_busView {s t : State} (h : busView t = busView s) : retryView t = retryView s :=
  congrArg (fun v => ({ v.1 with attempts := 0#16 }, v.2)) h

theorem stepOfRetry_adds {op : SeqOp} (h : stepOfRetry op = true) : ∀ o ∈ op.adds, stepOfRetry o = true := by
  cases op with
  | attempt a d => simp [SeqOp.adds, stepOfRetry, stepOfStart]
  | retryUnlessOk a d => simp [SeqOp.adds, stepOfRetry, stepOfStart]
  | start a d => simp [SeqOp.adds, stepOfRetry, stepOfStart]
  | waitTick => cases h
  | _ => nofun

theorem stepOfRetry_frame {op : SeqOp} (h : stepOfRetry op = true) (s : State) :
    retryView (s.doOp op) = retryView s := by
  cases op with
  | retryBegin => rfl
  | attempt a d => rfl
  | retryUnlessOk a d => simp only [State.doOp, State.opRetryUnlessOk]; split <;> rfl
  | _ => exact retryView_of_busView (stepOfStart_frame (by exact h) s)

/-- Settles O42: retry_seq adds ATTEMPTS to what START and STOP change. -/
theorem frameOfStartRetry : Obligations.FrameOfStartRetry := by
  intro a d s hs
  have hsteps : ∀ op ∈ stepsOf s.par (.startRetry a d), stepOfRetry op = true := by
    simp [stepsOf, retrySeq, stepOfRetry, stepOfStart]
  obtain ⟨t, hexec, hview, hclass⟩ := exec_frame retryView stepOfRetry (fun _ => stepOfRetry_adds)
    (fun _ s h => stepOfRetry_frame h s) (fun _ _ _ => rfl) (fun _ _ => rfl) hsteps hs
  obtain ⟨hoff, hstore⟩ := Prod.mk.inj hview
  obtain ⟨hfixed, hscanner, hdebounce, hfailAcc⟩ := frame_of_offPrimitive
    (congrArg (fun x : State => { x with rx := 0#8 }) hoff)
  exact ⟨t, hexec, hfixed, hscanner, hdebounce, hfailAcc, (congrArg State.rx hoff :),
    fun a => congrArg (Memory.read · a) hstore, hclass⟩

/-! ## READ_BYTE -/

/-- What the frame of READ_BYTE speaks of: the byte latch is not in it. -/
def readView (s : State) : State × Memory := ({ s.offBus with rx := 0#8 }, s.env.device.store)

theorem stepOfReadByte_adds {op : SeqOp} (h : stepOfReadByte op = true) : ∀ o ∈ op.adds, stepOfReadByte o = true := by
  cases op with
  | rx k => nofun
  | finish r => nofun
  | _ => cases h

theorem stepOfReadByte_frame {op : SeqOp} (h : stepOfReadByte op = true) (s : State) :
    readView (s.doOp op) = readView s := by
  cases op with
  | rx k =>
    by_cases hm : s.mode = .mr
    · simp only [State.doOp, opRx_mr k hm]
      exact congrArg (Prod.mk { s.offBus with rx := 0#8 }) (afterRx_store ..)
    · simp only [State.doOp, opRx_skipped k hm]; rfl
  | finish r =>
    cases r with
    | byte => rfl
    | _ => cases h
  | _ => cases h

/-- Settles O44: a byte received goes to the byte latch and RESULT, and a read leaves the device's store alone. -/
theorem frameOfReadByte : Obligations.FrameOfReadByte := by
  intro k s hs
  have hsteps : ∀ op ∈ stepsOf s.par (.readByte k), stepOfReadByte op = true := by simp [stepsOf, stepOfReadByte]
  obtain ⟨t, hexec, hview, hclass⟩ := exec_frame readView stepOfReadByte (fun _ => stepOfReadByte_adds)
    (fun _ s h => stepOfReadByte_frame h s) (fun _ _ _ => rfl) (fun _ _ => rfl) hsteps hs
  obtain ⟨hoff, hstore⟩ := Prod.mk.inj hview
  obtain ⟨hfixed, hscanner, hdebounce, hfailAcc⟩ := frame_of_offPrimitive
    (congrArg (fun x : State => { x with attempts := 0#16 }) hoff)
  exact ⟨t, hexec, hfixed, hscanner, hdebounce, (congrArg State.attempts hoff :), hfailAcc,
    fun a => congrArg (Memory.read · a) hstore, hclass⟩

/-! ## WRITE_BYTE -/

theorem stepOfWriteByte_adds {op : SeqOp} (h : stepOfWriteByte op = true) :
    ∀ o ∈ op.adds, stepOfWriteByte o = true := by
  cases op with
  | tx b => nofun
  | finish r => nofun
  | _ => cases h

theorem stepOfWriteByte_frame {op : SeqOp} (h : stepOfWriteByte op = true) (s : State) :
    (s.doOp op).offBus = s.offBus := by
  cases op with
  | tx b =>
    by_cases hm : s.mode = .mt
    · rw [doOp_tx b hm]; rfl
    · simp only [State.doOp, opTx_skipped b hm]; rfl
  | finish r =>
    cases r with
    | outcome => rfl
    | _ => cases h
  | _ => cases h

/-- WRITE_BYTE sends its byte or, refused or with its one phase still ahead, does nothing to the environment. -/
theorem exec_writeByte_env {b : Byte} {s t : State} (ht : s.todo = []) (h : exec (.writeByte b) s = .next t) :
    t.env = s.env ∨ t.env = s.env.afterTx b := by
  by_cases hm : s.mode = .mt
  · rw [exec_begins ht (by simp [allowedIn, hm])] at h
    injection h with h
    subst h
    cases s.quiet with
    | zero => exact .inl rfl
    | succ n =>
      right
      change (State.runOps n (({ s with todo := [.finish .outcome], quiet := 0 } : State).doOp (.tx b))).env = _
      rw [doOp_tx (s := { s with todo := [.finish .outcome], quiet := 0 }) b hm]
      cases n with
      | zero => rfl
      | succ n => exact congrArg State.env (runOps_idle (s := State.complete _ _ _ _ _) rfl n)
  · rw [exec_eq] at h
    injection h with h
    subst h
    simp [State.command, ht, allowedIn, hm]

/-- A transmitted byte changes at most the byte at the address that the device's pointer gives (R64). -/
theorem afterTx_read {e : Env} (hwf : e.device.store.wf) (b : Byte) {x : Nat} (hx : e.device.storeAddress ≠ some x) :
    (e.afterTx b).device.store.read x = e.device.store.read x := by
  rw [afterTx_store]
  cases ha : e.device.storeAddress with
  | none => rfl
  | some a => exact (Memory.read_write hwf a x b).trans (if_neg fun h => hx (by rw [ha, h]))

/-- Settles O43: what the device stores is the one byte sent, if it is sent. -/
theorem frameOfWriteByte : Obligations.FrameOfWriteByte := by
  rintro b s ht ⟨hwf, -⟩
  have hsteps : ∀ op ∈ stepsOf s.par (.writeByte b), stepOfWriteByte op = true := by simp [stepsOf, stepOfWriteByte]
  obtain ⟨t, hexec, hoff, -⟩ := exec_frame State.offBus stepOfWriteByte (fun _ => stepOfWriteByte_adds)
    (fun _ s h => stepOfWriteByte_frame h s) (fun _ _ _ => rfl) (fun _ _ => rfl) hsteps (by simp [ht])
  obtain ⟨hfixed, hscanner, hdebounce, hfailAcc⟩ := frame_of_offPrimitive
    (congrArg (fun x : State => { x with attempts := 0#16, rx := 0#8 }) hoff)
  have hbyte {x : Nat} (hx : s.env.device.storeAddress ≠ some x) : t.storeByte x = s.storeByte x := by
    rcases exec_writeByte_env ht hexec with henv | henv <;> simp only [State.storeByte, henv]
    exact afterTx_read hwf b hx
  exact ⟨t, hexec, hfixed, hscanner, hdebounce, (congrArg State.attempts hoff :), hfailAcc, (congrArg State.rx hoff :),
    fun hnone _ => hbyte (by simp [hnone]), fun a ha _ hx => hbyte (by simpa [ha] using hx.symm)⟩

end Sys2Proof.Machine
end

section
/-! PROOFS. The events on the two lines (40_bus_primitives.md R130 to R134): a byte phase is a row of nine clocks. -/

namespace Sys2Proof.Machine

/-- SDA for the bits of a byte, most significant first (R56, R132). -/
def byteLevels (b : Byte) : List Drive := [7, 6, 5, 4, 3, 2, 1, 0].map fun i => driveOf (b.getLsbD i)

theorem waveOf_a (b : Byte) {r : AckAnswer} (h : r ≠ .arbLost) :
    waveOf (.a b r) = (byteLevels b ++ [Drive.released]).flatMap clockWave := by
  cases r with
  | arbLost => exact absurd rfl h
  | _ => rfl

theorem waveOf_t (b : Byte) {r : AckAnswer} (h : r ≠ .arbLost) :
    waveOf (.t b r) = (byteLevels b ++ [Drive.released]).flatMap clockWave := by
  cases r with
  | arbLost => exact absurd rfl h
  | _ => rfl

theorem waveOf_r (b : Byte) (k : Bool) :
    waveOf (.r b k) = (List.replicate 8 Drive.released ++ [if k then Drive.low else Drive.released]).flatMap clockWave := by
  cases k <;> rfl

/-- Each clock releases SCL once, and SDA then has the level of its bit. -/
theorem sampled_clocks {w : List LineLevels} {ds : List Drive} (h : w = ds.flatMap clockWave) :
    (w.filter fun l => l.1 = .released).map Prod.snd = ds := by
  subst h
  induction ds with
  | nil => rfl
  | cons d ds ih => simpa [clockWave] using ih

/-- SDA is the same on both sides of a moment at which SCL is released. -/
def steady (x y : LineLevels) : Prop := (x.1 = .released ∨ y.1 = .released) → x.2 = y.2

/-- Clocks that find SCL low change SDA only while SCL is low. -/
theorem steady_clocks_after (ds : List Drive) (d : Drive) : ((.low, d) :: ds.flatMap clockWave).IsChain steady := by
  induction ds generalizing d with
  | nil => simp
  | cons e ds ih =>
    simp only [List.flatMap_cons, clockWave, List.cons_append, List.nil_append, List.isChain_cons_cons]
    exact ⟨by simp [steady], fun _ => rfl, fun _ => rfl, ih e⟩

theorem steady_clocks (ds : List Drive) : (ds.flatMap clockWave).IsChain steady :=
  (steady_clocks_after ds .low).tail

/-- Settles O60: start, repeated start and stop by their definition, and a byte phase as nine clocks. -/
theorem eventsOnTheLines : Obligations.EventsOnTheLines := by
  refine ⟨rfl, rfl, rfl, fun b r k hr => ⟨?_, ?_, ?_, ?_⟩⟩
  · exact sampled_clocks (waveOf_a b hr)
  · exact sampled_clocks (waveOf_t b hr)
  · exact sampled_clocks (waveOf_r b k)
  · simp only [List.forall_mem_cons, waveOf_a b hr, waveOf_t b hr, waveOf_r]
    exact ⟨steady_clocks _, steady_clocks _, steady_clocks _, nofun⟩

end Sys2Proof.Machine
end

section
/-! PROOFS. The register access commands that complete (41_register_access.md R152 to R159): for every answer once the
bus is granted, and against SIMX (20_memory.md R64). -/

namespace Sys2Proof.Machine

theorem State.CompletedWith.busy {r : Mask} {f : Bool} {t : State} (h : t.CompletedWith r f) : t.busy = false := by
  obtain ⟨-, -, -, -, hbusy, -, -⟩ := h
  exact hbusy

theorem State.CompletedWith.todo {r : Mask} {f : Bool} {t : State} (h : t.CompletedWith r f) : t.todo = [] := by
  obtain ⟨-, -, -, -, -, -, htodo⟩ := h
  exact htodo

/-! ## For every answer once the bus is granted -/

/-- The state in which the retry of a register access has obtained the bus after `k` refused attempts, with the steps
`rest` ahead (R103, R153, R155). -/
def State.granted (k : Nat) (es : List Event) (c : BitVec 16) (rest : List SeqOp) (s : State) : State :=
  { s with
    env := envWhenGranted s.par.periphAddr .write k s.env, trace := s.trace ++ es, mode := .mt, busStat := .slawAck
    stepFail := false, attempts := c, sclDrv := .low, sdaDrv := .released, todo := rest, quiet := 0 }

/-- A command that begins with the retry of a register access, granted after `k` refused attempts, and completes `n`
steps later. -/
theorem exec_granted {i : Instr} {rest : List SeqOp} {k : Nat} {s : State} (n : Nat) (ht : s.todo = [])
    (ha : allowedIn s.mode i = true) (hi : stepsOf s.par i = retrySeq s.par.periphAddr .write ++ rest)
    (hg : grantsAfter s.par s.par.periphAddr .write k s.env = true) (hq : 5 * k + 5 + n ≤ s.quiet) :
    ∃ (es : List Event) (c : BitVec 16), c.toNat = min (k + 1) 0xFFFF ∧
      ((State.runOps n (s.granted k es c rest)).todo = [] →
        exec i s = .next (State.runOps n (s.granted k es c rest))) := by
  obtain ⟨es, c, hc, hretry⟩ := reaches_retry (s := { s with todo := stepsOf s.par i, quiet := 0 }) hi hg
  exact ⟨es, c, hc, fun hdone => exec_completes ht ha (hretry.trans (reaches_of_run rfl)) hdone hq⟩

/-- Settles O27: the retry ends with the bus in MT, and the two bytes, the stop and the completion follow. -/
theorem writeRegCompletes : Obligations.WriteRegCompletes := by
  intro reg v k s ht hf hm hg hq e r1 r2
  obtain ⟨es, c, hc, hexec⟩ := exec_granted (i := .writeReg reg v) 6 ht (by simp [allowedIn, hm]) rfl hg hq
  obtain ⟨hcompleted, hfixed, hidle, hattempts, hdebounce, hsent, hlost⟩ :=
    run_writeReg_owned (s.granted k es c _) (regByte reg) v rfl rfl hf
  exact ⟨_, hexec hcompleted.todo, hcompleted, hfixed, hidle,
    (congrArg BitVec.toNat hattempts).trans hc, hdebounce, hsent, hlost⟩

/-- Settles O28: the retry ends with the bus in MT; the register number, the repeated start, the read, the stop and the
completion follow. -/
theorem readRegCompletes : Obligations.ReadRegCompletes := by
  intro reg k s ht hf hm hg hq e r1 e1 ok v
  obtain ⟨es, c, hc, hexec⟩ := exec_granted (i := .readReg reg) 9 ht (by simp [allowedIn, hm]) rfl hg hq
  obtain ⟨hcompleted, hfixed, hidle, hattempts, hdebounce, hstat⟩ :=
    run_readReg_owned (s.granted k es c _) (regByte reg) s.par.periphAddr rfl rfl hf (Nat.le_refl 9)
  exact ⟨_, hexec hcompleted.todo, hcompleted, hfixed, hidle,
    (congrArg BitVec.toNat hattempts).trans hc, hdebounce, hstat⟩

/-! ## When every phase succeeds at once -/

/-- What a register access whose phases all succeed leaves: the value and the environment it ends with, and the events
it adds to the trace (R159). -/
structure AccessSucceeds (s : State) (r : Mask) (e : Env) (es : List Event) (t : State) : Prop where
  completed : t.CompletedWith r s.failAcc
  idle : t.mode = .idle
  env : t.env = e
  trace : t.trace = s.trace ++ es

/-- WRITE_REG when every phase succeeds (R152, R159). -/
theorem exec_writeReg_ok {reg : BitVec 3} {v : Byte} {s : State} (ht : s.todo = []) (hm : s.mode = .idle)
    (h : WriteOk s.par reg s.env) (hq : 11 ≤ s.quiet) :
    ∃ t, exec (.writeReg reg v) s = .next t ∧
      AccessSucceeds s 0x0000#16 (envAfterWrite s.par reg v s.env) (writeRegEvents s.par reg v) t := by
  have hrun := (reaches_writeReg (s := { s with todo := stepsOf s.par (.writeReg reg v), quiet := 0 }) rfl hm h).trans
    (reaches_step (op := .finish .access) rfl rfl)
  exact ⟨_, exec_completes ht (by simp [allowedIn, hm]) hrun rfl hq, complete_completedWith .., rfl, rfl, rfl⟩

/-- READ_REG when every phase succeeds (R156, R159). -/
theorem exec_readReg_ok {reg : BitVec 3} {s : State} (ht : s.todo = []) (hm : s.mode = .idle)
    (h : ReadOk s.par reg s.env) (hq : 14 ≤ s.quiet) :
    ∃ t, exec (.readReg reg) s = .next t ∧
      AccessSucceeds s ((readByte s.par reg s.env).zeroExtend 16) (envAfterRead s.par reg s.env)
        (readRegEvents s.par reg (readByte s.par reg s.env)) t := by
  have hrun := (reaches_readReg (s := { s with todo := stepsOf s.par (.readReg reg), quiet := 0 }) rfl hm h).trans
    (reaches_step (op := .finish .accessByte) rfl rfl)
  exact ⟨_, exec_completes ht (by simp [allowedIn, hm]) hrun rfl hq, complete_completedWith .., rfl, rfl, rfl⟩

/-- Settles O29: the premises say that every phase of the write, or of the read, succeeds at the first attempt. -/
theorem transactionShape : Obligations.TransactionShape := by
  intro reg v s ht _ hm hq hok e e1 hack
  refine ⟨fun hack' => ?_, fun hok' => ?_⟩
  · obtain ⟨t, hexec, h⟩ := exec_writeReg_ok (v := v) ht hm ⟨hok, hack, hack'⟩ (by omega)
    exact ⟨t, hexec, h.idle, h.completed.busy, h.trace⟩
  · obtain ⟨t, hexec, h⟩ := exec_readReg_ok ht hm ⟨hok, hack, hok'⟩ hq
    exact ⟨t, hexec, h.idle, h.completed.busy, h.trace⟩

/-! ## Against SIMX -/

/-- Without a script, a register read receives `MX[reg]` from SIMX (R64, R155). -/
theorem readByte_simx {e : Env} {m : SimX} (h : e.Plain) (hd : e.device = .simx m) (hr : e.rxs = []) (p : Params)
    (reg : BitVec 3) : readByte p reg e = m.mx.read reg.toNat := by
  have hpointer := plain_envAfterPointer_device h p reg
  have hrxs : (envAfterPointer p reg e).rxs = [] := by rw [envAfterPointer, plain_afterAttempt h]; exact hr
  rw [readByte, plain_afterAttempt (plain_envAfterPointer h ..)]
  simp only [Env.rxAnswer, afterAddress_device, afterStart_device, hpointer, hd, Device.mapSim]
  simp [Env.afterAddress, Env.afterStart, hrxs, SimX.afterAddress, SimX.byte]

/-- Settles O30: WRITE_REG stores the byte at `MX[reg]`, where READ_REG then finds it. -/
theorem registerRoundTrip : Obligations.RegisterRoundTrip := by
  intro reg v m s q ht hf hm hplain hdev hrxs hcanon hquiet hq
  obtain ⟨t, hwrite, h⟩ := exec_writeReg_ok (v := v) ht hm (plain_writeOk hplain s.par reg) (by omega)
  have hplain' : t.env.Plain := by rw [h.env]; exact plain_envAfterWrite hplain ..
  have hstore (a : Nat) : t.storeByte a = if a = reg.toNat then v else s.storeByte a := by
    rw [State.storeByte, h.env]
    exact plain_envAfterWrite_read hplain hcanon ..
  obtain ⟨u, hread, h'⟩ := exec_readReg_ok (s := { t.accept (encode (.readReg reg)) with quiet := q })
    h.completed.todo h.idle (plain_readOk hplain' t.par reg) hq
  have hdev' : t.env.device = .simx { mx := m.mx.write reg.toNat v, px := reg, pointerNext := false } := by
    rw [h.env, plain_envAfterWrite_device hplain, hdev]
    rfl
  have hbyte : readByte t.par reg t.env = v := by
    rw [readByte_simx hplain' hdev' (by rw [h.env, envAfterWrite_rxs hplain, hrxs])]
    have hreg := hstore reg.toNat
    rw [if_pos rfl, State.storeByte, hdev'] at hreg
    exact hreg
  refine ⟨t, u, hwrite, hf ▸ h.completed, hstore, hread, hbyte ▸ h'.completed, fun a => ?_⟩
  rw [State.storeByte, h'.env]
  exact congrArg (Memory.read · a) (plain_envAfterRead_store hplain' ..)

end Sys2Proof.Machine
end

section
/-! PROOFS. The frame of the register access commands and of SCAN_ROW (41_register_access.md R152, R156;
42_keypad_scan.md R172; 10_state.md R44). -/

namespace Sys2Proof.Machine

/-- What the frame of a register access speaks of: FAILACC, which it may set, is not in it (R154). -/
def accessView (s : State) : State := { s.offPrimitive with failAcc := false }

theorem accessView_of_retryView {s t : State} (h : retryView t = retryView s) : accessView t = accessView s :=
  congrArg (fun v : State × Memory => { v.1 with rx := 0#8, failAcc := false }) h

theorem accessView_of_readView {s t : State} (h : readView t = readView s) : accessView t = accessView s :=
  congrArg (fun v : State × Memory => { v.1 with attempts := 0#16, failAcc := false }) h

theorem accessView_of_offBus {s t : State} (h : t.offBus = s.offBus) : accessView t = accessView s :=
  congrArg (fun u : State => { u with attempts := 0#16, rx := 0#8, failAcc := false }) h

theorem stepOfAccess_adds {op : SeqOp} (h : stepOfAccess op = true) : ∀ o ∈ op.adds, stepOfAccess o = true := by
  cases op with
  | attempt a d => simp [SeqOp.adds, stepOfAccess, stepOfRetry, stepOfStart]
  | retryUnlessOk a d => simp [SeqOp.adds, stepOfAccess, stepOfRetry, stepOfStart]
  | start a d => simp [SeqOp.adds, stepOfAccess, stepOfRetry, stepOfStart]
  | waitTick => cases h
  | _ => nofun

theorem stepOfAccess_frame {op : SeqOp} (h : stepOfAccess op = true) (s : State) :
    accessView (s.doOp op) = accessView s := by
  cases op with
  | tx b => exact accessView_of_offBus (stepOfWriteByte_frame rfl s)
  | rx k => exact accessView_of_readView (stepOfReadByte_frame rfl s)
  | noteFail => rfl
  | settle => rfl
  | finish r =>
    cases r with
    | edge => cases h
    | _ => rfl
  | _ => exact accessView_of_retryView (stepOfRetry_frame (by exact h) s)

theorem settleSeq_steps (p : Params) : ∀ op ∈ settleSeq p, stepOfAccess op = true := by
  unfold settleSeq
  split
  · nofun
  · simp [stepOfAccess]

theorem writeRegSeq_steps (p : Params) (reg : BitVec 3) (v : Byte) :
    ∀ op ∈ writeRegSeq p reg v, stepOfAccess op = true := by
  simp [writeRegSeq, retrySeq, stepOfAccess, stepOfRetry, stepOfStart]

theorem readRegSeq_steps (p : Params) (reg : BitVec 3) : ∀ op ∈ readRegSeq p reg, stepOfAccess op = true := by
  simp [readRegSeq, retrySeq, stepOfAccess, stepOfRetry, stepOfStart]

theorem scanRowSeq_steps (p : Params) (y : BitVec 2) : ∀ op ∈ scanRowSeq p y, stepOfAccess op = true := by
  simp only [scanRowSeq, List.forall_mem_append]
  exact ⟨⟨⟨writeRegSeq_steps p _ _, settleSeq_steps p⟩, readRegSeq_steps p _⟩, writeRegSeq_steps p _ _⟩

/-- Settles O46: each of their steps leaves alone what the view of an access shows. -/
theorem frameOfRegisterAccess : Obligations.FrameOfRegisterAccess := by
  intro i s hi hs
  have hsteps : ∀ op ∈ stepsOf s.par i, stepOfAccess op = true := by
    rcases hi with ⟨r, b, rfl⟩ | ⟨r, rfl⟩ | ⟨y, rfl⟩ <;>
      refine List.forall_mem_append.mpr ⟨?_, by simp [stepOfAccess]⟩
    · exact writeRegSeq_steps s.par r b
    · exact readRegSeq_steps s.par r
    · exact scanRowSeq_steps s.par y
  obtain ⟨t, hexec, hview, hclass⟩ := exec_frame accessView stepOfAccess (fun _ => stepOfAccess_adds)
    (fun _ s h => stepOfAccess_frame h s) (fun _ _ _ => rfl) (fun _ _ => rfl) hsteps hs
  obtain ⟨hfixed, hscanner, hdebounce, -⟩ := frame_of_offPrimitive
    (s := { s with failAcc := false }) (t := { t with failAcc := false }) hview
  exact ⟨t, hexec, hfixed, hscanner, hdebounce, hclass⟩

end Sys2Proof.Machine
end

section
/-! PROOFS. The frames of SCAN_KEYPAD and SCAN_EDGE (42_keypad_scan.md R174, R176; 10_state.md R33, R44). -/

namespace Sys2Proof.Machine

/-- What the frame of SCAN_KEYPAD speaks of: ACC, in which it collects the nibbles, is not in it (R173). -/
def scanView (s : State) : State := { accessView s with acc := 0#16 }

theorem stepOfScan_of_access {op : SeqOp} (h : stepOfAccess op = true) : stepOfScan op = true := by
  cases op with
  | finish r =>
    cases r with
    | mask => cases h
    | _ => exact h
  | accZero => cases h
  | accRow => cases h
  | _ => exact h

theorem stepOfScan_adds {op : SeqOp} (h : stepOfScan op = true) : ∀ o ∈ op.adds, stepOfScan o = true := by
  cases op with
  | waitTick => cases h
  | attempt a d => exact fun o ho => stepOfScan_of_access (stepOfAccess_adds (by exact h) o ho)
  | retryUnlessOk a d => exact fun o ho => stepOfScan_of_access (stepOfAccess_adds (by exact h) o ho)
  | start a d => exact fun o ho => stepOfScan_of_access (stepOfAccess_adds (by exact h) o ho)
  | _ => nofun

theorem stepOfScan_frame {op : SeqOp} (h : stepOfScan op = true) (s : State) : scanView (s.doOp op) = scanView s := by
  have access (ha : stepOfAccess op = true) : scanView (s.doOp op) = scanView s :=
    congrArg (fun v : State => { v with acc := 0#16 }) (stepOfAccess_frame ha s)
  cases op with
  | accZero => rfl
  | accRow => rfl
  | finish r =>
    cases r with
    | mask => rfl
    | _ => exact access h
  | _ => exact access h

theorem scanKeypadSeq_steps (p : Params) : ∀ op ∈ scanKeypadSeq p, stepOfScan op = true := by
  refine List.forall_mem_cons.mpr ⟨rfl, fun op hmem => ?_⟩
  obtain ⟨y, -, hop⟩ := List.mem_flatMap.mp hmem
  rcases List.mem_append.mp hop with hop | hop
  · exact stepOfScan_of_access (scanRowSeq_steps p y op hop)
  · obtain rfl := List.mem_singleton.mp hop
    rfl

/-- Settles O47: each of its steps leaves alone what the view of a scan shows. -/
theorem frameOfScanKeypad : Obligations.FrameOfScanKeypad := by
  intro s hs
  have hsteps : ∀ op ∈ stepsOf s.par .scanKeypad, stepOfScan op = true :=
    List.forall_mem_append.mpr ⟨scanKeypadSeq_steps s.par, by simp [stepOfScan]⟩
  obtain ⟨t, hexec, hview, hclass⟩ := exec_frame scanView stepOfScan (fun _ => stepOfScan_adds)
    (fun _ s h => stepOfScan_frame h s) (fun _ _ _ => rfl) (fun _ _ => rfl) hsteps hs
  obtain ⟨hfixed, ⟨-, hs1, hs2, htimer⟩, hdebounce, -⟩ := frame_of_offPrimitive
    (s := { s with failAcc := false, acc := 0#16 }) (t := { t with failAcc := false, acc := 0#16 }) hview
  exact ⟨t, hexec, hfixed, hdebounce, hs1, hs2, htimer, hclass⟩

/-- Settles O48: SCAN_EDGE is the meaning of its word, and running a word stores DEBOUNCE only if it completes. -/
theorem frameOfScanEdge : Obligations.FrameOfScanEdge := by
  intro s
  have hword : runWord (encode .scanEdge) s = exec .scanEdge s := runWord_command (decode_eq_command_iff.2 rfl) s
  have hrun := hword.trans (exec_eq .scanEdge s)
  refine ⟨_, exec_eq .scanEdge s, runWord_fixed hrun, fun hleft => ?_⟩
  rcases runWord_reports hrun with ⟨-, -, -, -, -, -, -, -, hdebounce⟩ | ⟨-, -, hdone⟩
  · exact hdebounce
  · exact absurd hdone hleft

end Sys2Proof.Machine
end

section
/-! PROOFS. The scans whose phases all succeed (42_keypad_scan.md R171 to R181), against a reference device with scripted
bytes (20_memory.md R64, R65). -/

namespace Sys2Proof.Machine

/-! ## From the command to its completion -/

/-- What a scan whose phases all succeed leaves, beside what a register access does. -/
structure ScanSucceeds (s : State) (r : Mask) (e : Env) (es : List Event) (t : State) : Prop
    extends AccessSucceeds s r e es t where
  fixed : s.FixedAs t
  busStat : t.busStat = .noInfo
  attempts : t.attempts = 1#16

/-- The mask that a scan of the keypad collects in ACC (R173). -/
def scanMask (p : Params) (e : Env) : Mask := accBytes p 0#16 (rowBytes p scanOrder e)

/-- The environment in which the second scan of SCAN_EDGE begins (R176). -/
def envAfterSample (p : Params) (e : Env) : Env := (envAfterRows p scanOrder e).afterWait

/-- SCAN_ROW when every phase succeeds (R172). -/
theorem exec_scanRow_ok {y : BitVec 2} {s : State} (ht : s.todo = []) (hm : s.mode = .idle)
    (h : ScanRowOk s.par y s.env) (hq : 35 ≤ s.quiet) :
    ∃ t, exec (.scanRow y) s = .next t ∧
      ScanSucceeds s ((columnNibble s.par (rowByte s.par y s.env)).zeroExtend 16) (envAfterRow s.par y s.env)
        (scanRowEvents s.par y (rowByte s.par y s.env)) t ∧
      t.debounce = s.debounce := by
  have hrun := (reaches_scanRow (s := { s with todo := stepsOf s.par (.scanRow y), quiet := 0 }) rfl hm h).trans
    (reaches_step (op := .finish .row) rfl rfl)
  exact ⟨_, exec_completes ht (by simp [allowedIn, hm]) hrun rfl hq,
    ⟨⟨complete_completedWith .., rfl, rfl, rfl⟩, .refl s, rfl, rfl⟩, rfl⟩

/-- SCAN_KEYPAD when every phase succeeds (R174). -/
theorem exec_scanKeypad_ok {s : State} (ht : s.todo = []) (hm : s.mode = .idle) (h : RowsOk s.par scanOrder s.env)
    (hq : 142 ≤ s.quiet) :
    ∃ t, exec .scanKeypad s = .next t ∧
      ScanSucceeds s (scanMask s.par s.env) (envAfterRows s.par scanOrder s.env) (rowsEvents s.par scanOrder s.env) t ∧
      t.debounce = s.debounce := by
  obtain ⟨v, hscan⟩ := reaches_scanKeypad (s := { s with todo := stepsOf s.par .scanKeypad, quiet := 0 }) rfl hm h
  dsimp only at hscan
  unfold scanMask
  generalize accBytes .. = r, envAfterRows .. = e, rowsEvents .. = es at hscan ⊢
  have hrun := hscan.trans (reaches_step (op := .finish .mask) rfl rfl)
  exact ⟨_, exec_completes ht (by simp [allowedIn, hm]) hrun rfl (by omega),
    ⟨⟨complete_completedWith .., rfl, rfl, rfl⟩, .refl s, rfl, rfl⟩, rfl⟩

/-- SCAN_EDGE when every phase succeeds (R176). -/
theorem exec_scanEdge_ok {s : State} (ht : s.todo = []) (hm : s.mode = .idle) (h : RowsOk s.par scanOrder s.env)
    (h' : RowsOk s.par scanOrder (envAfterSample s.par s.env))
    (hq : 288 + debounceCycles s.par + s.env.extraWait ≤ s.quiet) :
    ∃ t, exec .scanEdge s = .next t ∧
      ScanSucceeds s (edgeResult (snapshot (scanMask s.par s.env) (scanMask s.par (envAfterSample s.par s.env))) s.debounce)
        (envAfterRows s.par scanOrder (envAfterSample s.par s.env))
        (rowsEvents s.par scanOrder s.env ++ .w tDebounce :: rowsEvents s.par scanOrder (envAfterSample s.par s.env)) t ∧
      t.debounce = snapshot (scanMask s.par s.env) (scanMask s.par (envAfterSample s.par s.env)) ∧ t.timer = .idle := by
  obtain ⟨v, hscans⟩ := reaches_scanEdge (s := { s with todo := stepsOf s.par .scanEdge, quiet := 0 }) rfl hm h h'
  dsimp only at hscans
  unfold scanMask
  unfold envAfterSample
  generalize (envAfterRows s.par scanOrder s.env).afterWait = e, rowsEvents s.par scanOrder s.env = es,
    accBytes s.par 0#16 (rowBytes s.par scanOrder s.env) = r at hscans ⊢
  generalize accBytes .. = r', envAfterRows .. = e', rowsEvents .. = es' at hscans ⊢
  have hrun := hscans.trans (reaches_step (op := .finish .edge) rfl rfl)
  exact ⟨_, exec_completes ht (by simp [allowedIn, hm]) hrun rfl (by omega),
    ⟨⟨complete_completedWith .., rfl, rfl, rfl⟩, .refl s, rfl, rfl⟩, rfl, rfl⟩

/-! ## Scripted bytes -/

theorem scanMask_four {p : Params} {e : Env} {v3 v2 v1 v0 : Byte} (h : rowBytes p scanOrder e = [v3, v2, v1, v0]) :
    scanMask p e = fourNibbles (columnNibble p v3) (columnNibble p v2) (columnNibble p v1) (columnNibble p v0) := by
  rw [scanMask, h, accBytes_four]

theorem plain_envAfterSample {e : Env} (h : e.Plain) (p : Params) : (envAfterSample p e).Plain :=
  plain_afterWait (plain_envAfterRows p scanOrder h)

theorem envAfterSample_rxs {e : Env} (h : e.Plain) (p : Params) : (envAfterSample p e).rxs = e.rxs.drop 4 := by
  rw [envAfterSample, afterWait_rxs, envAfterRows_rxs p scanOrder h]
  rfl

theorem envAfterSample_storeOk {e : Env} (h : e.Plain) (hs : StoreOk e.device.store) (p : Params) :
    StoreOk (envAfterSample p e).device.store := by
  rw [envAfterSample, afterWait_device]
  exact envAfterRows_storeOk p scanOrder h hs

/-- A scan leaves the row-output register all ones and every other byte as it was (R173). -/
theorem envAfterScan_read {e : Env} (h : e.Plain) (hs : StoreOk e.device.store) (p : Params) (x : Nat) :
    (envAfterRows p scanOrder e).device.store.read x = if x = p.rowReg.toNat then 0xFF#8 else e.device.store.read x :=
  envAfterRows_read p scanOrder (by decide) x h hs

/-- The two scans of SCAN_EDGE leave the row-output register all ones and every other byte as it was (R176). -/
theorem envAfterScans_read {e : Env} (h : e.Plain) (hs : StoreOk e.device.store) (p : Params) (x : Nat) :
    (envAfterRows p scanOrder (envAfterSample p e)).device.store.read x =
      if x = p.rowReg.toNat then 0xFF#8 else e.device.store.read x := by
  rw [envAfterScan_read (plain_envAfterSample h p) (envAfterSample_storeOk h hs p), envAfterSample, afterWait_device,
    envAfterScan_read h hs]
  split <;> rfl

theorem State.CompletedWith.result {r : Mask} {f : Bool} {t : State} (h : t.CompletedWith r f) : t.result = r := by
  obtain ⟨hresult, -⟩ := h
  exact hresult

theorem scanEvents_length (p : Params) (e : Env) :
    (rowsEvents p scanOrder e).length = if p.rowSettle = 0 then 68 else 72 := by
  rw [rowsEvents_length]
  split <;> rfl

/-- Settles O31: a reference device lets every phase succeed, and the byte read is the script's. -/
theorem scanRowCompletes : Obligations.ScanRowCompletes := by
  intro y v vs s ht hf hm hplain hrxs hcanon hq p
  obtain ⟨t, hexec, h, hdebounce⟩ := exec_scanRow_ok ht hm (plain_scanRowOk hplain s.par y) (by omega)
  rw [rowByte_scripted hplain hrxs] at h
  refine ⟨t, hexec, hf ▸ h.completed, h.fixed, h.idle, h.busStat, h.attempts, hdebounce, h.trace, fun a => ?_⟩
  rw [State.storeByte, h.env]
  exact envAfterRow_read hplain hcanon ..

/-- Settles O33: the bytes of the four rows are the next four of the script. -/
theorem scanKeypadCompletes : Obligations.ScanKeypadCompletes := by
  intro v3 v2 v1 v0 vs s ht hf hm hplain hrxs hcanon hq n row
  have hbytes : rowBytes s.par scanOrder s.env = [v3, v2, v1, v0] := rowBytes_scripted _ _ _ vs hplain rfl hrxs
  obtain ⟨t, hexec, h, hdebounce⟩ := exec_scanKeypad_ok ht hm (plain_rowsOk s.par scanOrder hplain) hq
  refine ⟨t, hexec, scanMask_four hbytes ▸ hf ▸ h.completed, h.fixed, h.idle, h.busStat, h.attempts, hdebounce,
    rowsEvents_four hbytes ▸ h.trace, ?_, fun a => ?_⟩
  · rw [h.trace, List.length_append, scanEvents_length]
  · rw [State.storeByte, h.env]
    exact envAfterScan_read hplain hcanon ..

/-- Settles O35: each of the two scans reads its four bytes of the script. -/
theorem scanEdgeCompletes : Obligations.ScanEdgeCompletes := by
  intro a3 a2 a1 a0 b3 b2 b1 b0 vs s ht hf hm hplain hrxs hcanon hq n row d
  have hplain' := plain_envAfterSample hplain s.par
  have hbytes : rowBytes s.par scanOrder s.env = [a3, a2, a1, a0] :=
    rowBytes_scripted _ _ _ (b3 :: b2 :: b1 :: b0 :: vs) hplain rfl hrxs
  have hbytes' : rowBytes s.par scanOrder (envAfterSample s.par s.env) = [b3, b2, b1, b0] :=
    rowBytes_scripted _ _ _ vs hplain' rfl (by rw [envAfterSample_rxs hplain, hrxs]; rfl)
  obtain ⟨t, hexec, h, hdebounce, htimer⟩ := exec_scanEdge_ok ht hm (plain_rowsOk s.par scanOrder hplain)
    (plain_rowsOk s.par scanOrder hplain') hq
  have hlength : t.trace.length = s.trace.length + (if s.par.rowSettle = 0 then 137 else 145) := by
    rw [h.trace, List.length_append, List.length_append, List.length_cons, scanEvents_length, scanEvents_length]
    split <;> rfl
  rw [rowsEvents_four hbytes, rowsEvents_four hbytes', scanMask_four hbytes, scanMask_four hbytes'] at h
  rw [scanMask_four hbytes, scanMask_four hbytes'] at hdebounce
  have hcompleted : t.CompletedWith (~~~(~~~d &&& s.debounce)) false := hf ▸ h.completed
  refine ⟨t, hexec, hcompleted, hdebounce, h.fixed, h.idle, h.busStat, h.attempts, htimer, h.trace, hlength,
    fun i hi => ?_, fun a => ?_⟩
  · rw [hcompleted.result]
    simp [hi]
  · rw [State.storeByte, h.env]
    exact envAfterScans_read hplain hcanon ..

end Sys2Proof.Machine
end

section
/-! PROOFS. The scans of the keypad expander SIMK with the same keys pressed throughout (20_memory.md R65;
42_keypad_scan.md R175, R182). -/

namespace Sys2Proof.Machine

/-- SIMK with the keys `k` pressed in every coming read, and no answer scripted (log entry 12). -/
def Env.KeysHeld (k : Mask) (e : Env) : Prop :=
  e.Plain ∧ e.rxs = [] ∧ ∃ m, e.device = .simk m [k] ∧ StoreOk m.mx

theorem Env.KeysHeld.afterWait {k : Mask} {e : Env} (h : e.KeysHeld k) : e.afterWait.KeysHeld k := h

/-- A scan reads a 0 for each pressed key (R175). -/
theorem scanMask_keysHeld {p : Params} {k : Mask} {e : Env} (hw : defaultWiring p) (h : e.KeysHeld k) :
    scanMask p e = ~~~k := by
  obtain ⟨hplain, hrxs, m, hdev, hstore⟩ := h
  exact accBytes_simk hw hplain hdev hstore hrxs 0#16

/-- A scan does not touch the keys. -/
theorem keysHeld_envAfterRows {p : Params} {k : Mask} {e : Env} (hw : defaultWiring p) (h : e.KeysHeld k) :
    (envAfterRows p scanOrder e).KeysHeld k := by
  obtain ⟨hplain, hrxs, m, hdev, hstore⟩ := h
  obtain ⟨-, m', hdev', hstore', hrxs'⟩ := rowBytes_simk hw scanOrder hplain hdev hstore hrxs
  exact ⟨plain_envAfterRows p scanOrder hplain, hrxs', m', hdev', hstore'⟩

theorem keysHeld_envAfterSample {p : Params} {k : Mask} {e : Env} (hw : defaultWiring p) (h : e.KeysHeld k) :
    (envAfterSample p e).KeysHeld k := (keysHeld_envAfterRows hw h).afterWait

/-- Settles O34: the mask that the scan collects is the complement of the keys. -/
theorem scanKeypadSeesPressedKeys : Obligations.ScanKeypadSeesPressedKeys := by
  intro m pressed s ht hf hm hplain hdev hrxs hcanon hw hq
  have hstore : StoreOk s.env.device.store := hcanon
  have hkeys : s.env.KeysHeld pressed := ⟨hplain, hrxs, m, hdev, by rwa [hdev] at hstore⟩
  obtain ⟨t, hexec, h, hdebounce⟩ := exec_scanKeypad_ok ht hm (plain_rowsOk s.par scanOrder hplain) hq
  exact ⟨t, hexec, scanMask_keysHeld hw hkeys ▸ hf ▸ h.completed, hdebounce⟩

/-! ## Two SCAN_EDGE in a row -/

theorem sameWait_rows (p : Params) (ys : List (BitVec 2)) : ∀ e : Env, SameWait e (envAfterRows p ys e) := by
  induction ys with
  | nil => exact fun _ => ⟨rfl, rfl⟩
  | cons y ys ih => exact fun e => SameWait.trans (envAfterRow_wait p y e) (ih _)

theorem SameWait.afterWait {e f : Env} (h : SameWait e f) : SameWait e.afterWait f.afterWait := by
  obtain ⟨hwaits, hwaited⟩ := h
  exact ⟨congrArg List.tail hwaits, congrArg (· + 1) hwaited⟩

/-- One SCAN_EDGE with the keys `k` held: both samples are their complement, the keys are still held afterwards, and the
length of the next wait is the one that followed (R180, R182). -/
theorem exec_scanEdge_keysHeld {s : State} {k : Mask} (ht : s.todo = []) (hf : s.failAcc = false) (hm : s.mode = .idle)
    (hw : defaultWiring s.par) (hk : s.env.KeysHeld k) (hq : 288 + debounceCycles s.par + s.env.extraWait ≤ s.quiet) :
    ∃ t, exec .scanEdge s = .next t ∧ t.CompletedWith (edgeResult (~~~k) s.debounce) false ∧ t.debounce = ~~~k ∧
      t.mode = .idle ∧ t.par = s.par ∧ t.env.KeysHeld k ∧ t.env.extraWait = s.env.afterWait.extraWait := by
  have hk' := keysHeld_envAfterSample hw hk
  have hwait : SameWait s.env.afterWait (envAfterRows s.par scanOrder (envAfterSample s.par s.env)) :=
    (sameWait_rows s.par scanOrder s.env).afterWait.trans (sameWait_rows ..)
  obtain ⟨t, hexec, h, hdebounce, -⟩ := exec_scanEdge_ok ht hm (plain_rowsOk s.par scanOrder hk.1)
    (plain_rowsOk s.par scanOrder hk'.1) hq
  rw [scanMask_keysHeld hw hk, scanMask_keysHeld hw hk', snapshot, BitVec.or_self] at h hdebounce
  obtain ⟨-, -, -, -, hpar, -⟩ := h.fixed
  exact ⟨t, hexec, hf ▸ h.completed, hdebounce, h.idle, hpar, h.env ▸ keysHeld_envAfterRows hw hk',
    h.env ▸ hwait.extraWait⟩

/-- Settles O38: the second SCAN_EDGE finds the snapshot of the same keys in DEBOUNCE. -/
theorem scanEdgeIdempotent : Obligations.ScanEdgeIdempotent := by
  intro m pressed q s ht hf hm hplain hdev hrxs hcanon hw hq hq'
  have hstore : StoreOk s.env.device.store := hcanon
  have hkeys : s.env.KeysHeld pressed := ⟨hplain, hrxs, m, hdev, by rwa [hdev] at hstore⟩
  obtain ⟨t, hfirst, h, hdebounce, hidle, hpar, hkeys', hwait⟩ := exec_scanEdge_keysHeld ht hf hm hw hkeys hq
  obtain ⟨u, hsecond, h', hdebounce', -⟩ := exec_scanEdge_keysHeld
    (s := { t.accept (encode .scanEdge) with quiet := q }) h.todo rfl hidle (hpar ▸ hw) hkeys' (by
      simp only [State.accept_par, State.accept_env, hpar, hwait]
      exact hq')
  refine ⟨t, u, hfirst, ?_, hdebounce, hsecond, ?_, hdebounce'⟩
  · simpa [edgeResult, newlyPressed] using h
  · simpa [edgeResult, newlyPressed, hdebounce] using h'

end Sys2Proof.Machine
end

section
/-! PROOFS. The scans once their retries are granted, for every answer to every other phase (42_keypad_scan.md R171 to R176,
R184). -/

namespace Sys2Proof.Machine

theorem SameButBus.fixedAs {s t : State} (h : SameButBus s t) : s.FixedAs t := by
  rw [h]
  exact .refl s

theorem SameButBus.debounce {s t : State} (h : SameButBus s t) : t.debounce = s.debounce := by
  rw [h]

/-- SCAN_ROW and SCAN_KEYPAD complete with what their steps leave: the report `r` follows (R172, R174). -/
theorem exec_access_completes {i : Instr} {r : Report} {s t : State} {e : Env} {v : Byte} {acc : Mask} {failed : Bool}
    {k n : Nat} {w : Mask} (ht : s.todo = []) (ha : allowedIn s.mode i = true) (hf : s.failAcc = false)
    (hrun : Reaches n { s with todo := stepsOf s.par i, quiet := 0 } t)
    (h : AccessLeaves { s with todo := stepsOf s.par i, quiet := 0 } e v acc failed k [.finish r] t)
    (hr : t.opFinish r = t.complete w t.failAcc false false) (hq : n + 1 ≤ s.quiet) :
    ∃ u, exec i s = .next u ∧ u.CompletedWith w failed ∧ s.FixedAs u ∧ u.mode = .idle ∧ u.env = e ∧
      u.attempts.toNat = min (k + 1) 0xFFFF ∧ u.debounce = s.debounce := by
  have hfail : t.failAcc = failed := h.failAcc.trans (by simp [hf])
  have hfinish : Reaches 1 t (t.complete w failed false false) :=
    reaches_step h.todo (by rw [← hfail, ← hr]; rfl)
  exact ⟨_, exec_completes ht ha (hrun.trans hfinish) rfl hq, complete_completedWith .., h.same.fixedAs, h.idle, h.env,
    h.attempts, h.same.debounce⟩

/-- SCAN_ROW once its three retries are granted (R172, R184). -/
theorem exec_scanRow_any {y : BitVec 2} {k : RowTries} {s : State} (ht : s.todo = []) (hf : s.failAcc = false)
    (hm : s.mode = .idle) (hg : rowGranted s.par y k s.env) (hq : 5 * k.refused + 36 ≤ s.quiet) :
    let o := rowResult s.par y k s.env
    ∃ t : State, exec (.scanRow y) s = .next t ∧ t.CompletedWith (o.value.zeroExtend 16) o.failed ∧ s.FixedAs t ∧
      t.mode = .idle ∧ t.env = o.env ∧ t.attempts.toNat = min (k.restore + 1) 0xFFFF ∧ t.debounce = s.debounce := by
  intro o
  obtain ⟨t, hrun, h⟩ :=
    reaches_scanRow_any (s := { s with todo := stepsOf s.par (.scanRow y), quiet := 0 }) rfl hg
  have hvalue : o.value = columnNibble t.par t.rx := by rw [h.rx, h.same.par]; rfl
  exact exec_access_completes ht (by simp [allowedIn, hm]) hf hrun h (by rw [hvalue]; rfl) (by omega)

/-- SCAN_KEYPAD once its twelve retries are granted (R174, R184). -/
theorem exec_scanKeypad_any {k : Fin 4 → RowTries} {s : State} (ht : s.todo = []) (hf : s.failAcc = false)
    (hm : s.mode = .idle) (hg : scanGranted s.par k s.env) (hq : 5 * refusedInScan k + 142 ≤ s.quiet) :
    let o := scanResult s.par k s.env
    ∃ t : State, exec .scanKeypad s = .next t ∧ t.CompletedWith o.value o.failed ∧ s.FixedAs t ∧ t.mode = .idle ∧
      t.env = o.env ∧ t.attempts.toNat = min ((k 0).restore + 1) 0xFFFF ∧ t.debounce = s.debounce := by
  intro o
  obtain ⟨t, v, hrun, h⟩ :=
    reaches_scanKeypad_any (s := { s with todo := stepsOf s.par .scanKeypad, quiet := 0 }) rfl hg
  have hvalue : o.value = t.acc := h.acc.symm
  exact exec_access_completes ht (by simp [allowedIn, hm]) hf hrun h (by rw [hvalue]; rfl) (by omega)

/-- SCAN_EDGE once its twenty-four retries are granted (R176, R184). -/
theorem exec_scanEdge_any {k l : Fin 4 → RowTries} {s : State} (ht : s.todo = []) (hf : s.failAcc = false)
    (hm : s.mode = .idle) (hg : scanGranted s.par k s.env)
    (hg' : scanGranted s.par l (scanResult s.par k s.env).env.afterWait)
    (hq : 5 * (refusedInScan k + refusedInScan l) + debounceCycles s.par + s.env.extraWait + 288 ≤ s.quiet) :
    let a := scanResult s.par k s.env
    let b := scanResult s.par l a.env.afterWait
    let d := snapshot a.value b.value
    ∃ t : State, exec .scanEdge s = .next t ∧ t.CompletedWith (edgeResult d s.debounce) (a.failed || b.failed) ∧
      t.debounce = d ∧ s.FixedAs t ∧ t.mode = .idle ∧ t.env = b.env ∧
      t.attempts.toNat = min ((l 0).restore + 1) 0xFFFF ∧ t.timer = .idle := by
  intro a b d
  obtain ⟨t, hrun, henv, hs1, hs2, hfail, hidle, hattempts, htodo, hsame⟩ :=
    reaches_scanEdge_any (s := { s with todo := stepsOf s.par .scanEdge, quiet := 0 }) rfl hg hg'
  have hfinish : Reaches 1 t (({ t with debounce := d } : State).complete (edgeResult d s.debounce) (a.failed || b.failed)
      false false) := reaches_step htodo (by
    have hfail' : t.failAcc = (a.failed || b.failed) := by simpa [hf] using hfail
    have hdebounce : t.debounce = s.debounce := hsame.debounce
    rw [← hfail', ← hdebounce, show d = snapshot t.s1 t.s2 by rw [hs1, hs2]]
    rfl)
  have htimer : t.timer = .idle := by rw [hsame]
  exact ⟨_, exec_completes ht (by simp [allowedIn, hm]) (hrun.trans hfinish) rfl (by simp only; omega),
    complete_completedWith .., rfl, hsame.fixedAs, hidle, henv, hattempts, htimer⟩

/-- Settles O32: for each scan, what its steps leave and the report. -/
theorem scansCompleteForEveryAnswer : Obligations.ScansCompleteForEveryAnswer :=
  ⟨fun _ _ _ => exec_scanRow_any, fun _ _ => exec_scanKeypad_any, fun _ _ _ => exec_scanEdge_any⟩

end Sys2Proof.Machine
end

section
/-! PROOFS. The debounce wait of SCAN_EDGE counts down its timer (42_keypad_scan.md R178; 10_state.md R39). -/

namespace Sys2Proof.Machine

/-- A command that is running goes on, by one step at least (R36). -/
theorem exec_continues (i : Instr) {s : State} (ht : s.todo ≠ []) : exec i s = .next (s.burst (max s.quiet 1)) := by
  obtain ⟨op, rest, hcons⟩ := List.exists_cons_of_ne_nil ht
  simp [exec_eq, State.command, hcons]

/-- A cycle of the wait that is not its last (R178). -/
theorem doOp_waitTick_counting {s : State} {k : Nat} (h : s.timer = .counting (k + 1)) :
    s.doOp .waitTick = { s with timer := .counting k, todo := .waitTick :: s.todo } := by
  simp only [State.doOp, State.opWaitTick, h]

/-- While cycles are left the wait does nothing but count them. -/
theorem runOps_waitTick {rest : List SeqOp} (n : Nat) : ∀ {k : Nat} {s : State}, s.todo = .waitTick :: rest →
    s.timer = .counting k → n ≤ k → State.runOps n s = { s with timer := .counting (k - n) } := by
  induction n with
  | zero => intro k s _ hc _; simp [← hc]
  | succ n ih =>
    intro k s ht hc hk
    obtain ⟨k, rfl⟩ : ∃ j, k = j + 1 := ⟨k - 1, by omega⟩
    rw [runOps_cons ht, doOp_waitTick_counting (s := { s with todo := rest }) hc, ih rfl rfl (by omega), ← ht,
      Nat.add_sub_add_right]

/-- With the steps `rest` after it, the wait has at least `m` cycles to go, or is still ahead and at least that long. -/
def WaitAhead (rest : List SeqOp) (m : Nat) (s : State) : Prop :=
  (m ≤ debounceCycles s.par ∧ ∃ pre : List SeqOp, (∀ op ∈ pre, op.isFinish = false) ∧
    s.todo = pre ++ .waitBegin :: .waitTick :: rest) ∨
  ∃ k, m ≤ k ∧ s.timer = .counting k ∧ s.todo = .waitTick :: rest

theorem WaitAhead.todo {rest : List SeqOp} {m : Nat} {s : State} (h : WaitAhead rest m s) :
    ∃ pre, s.todo = pre ++ .waitTick :: rest := by
  rcases h with ⟨-, pre, -, ht⟩ | ⟨k, -, -, ht⟩
  · exact ⟨pre ++ [.waitBegin], by simp [ht]⟩
  · exact ⟨[], ht⟩

/-- A step of the sequencer takes one cycle of the wait at most. -/
theorem waitAhead_step {rest r : List SeqOp} {m : Nat} {s : State} {op : SeqOp} (h : WaitAhead rest (m + 1) s)
    (ht : s.todo = op :: r) : WaitAhead rest m (({ s with todo := r } : State).doOp op) := by
  rcases h with ⟨hm, pre, hpre, htodo⟩ | ⟨k, hk, hc, htodo⟩
  · cases pre with
    | nil =>
      obtain ⟨rfl, rfl⟩ := List.cons.inj (ht.symm.trans htodo)
      exact .inr ⟨_, Nat.le_add_right_of_le (Nat.le_of_succ_le hm), rfl, rfl⟩
    | cons o pre =>
      obtain ⟨rfl, rfl⟩ := List.cons.inj (ht.symm.trans htodo)
      obtain ⟨hop, hpre⟩ := List.forall_mem_cons.mp hpre
      obtain ⟨added, hadded, hleft⟩ := doOp_todo hop { s with todo := pre ++ .waitBegin :: .waitTick :: rest }
      refine .inl ⟨by rw [doOp_par]; exact Nat.le_of_succ_le hm, added ++ pre, ?_,
        hleft.trans (List.append_assoc ..).symm⟩
      exact List.forall_mem_append.mpr ⟨hadded, hpre⟩
  · obtain ⟨rfl, rfl⟩ := List.cons.inj (ht.symm.trans htodo)
    obtain ⟨k, rfl⟩ : ∃ j, k = j + 1 := ⟨k - 1, by omega⟩
    rw [doOp_waitTick_counting (s := { s with todo := r }) hc]
    exact .inr ⟨k, by omega, rfl, rfl⟩

theorem waitAhead_run {rest : List SeqOp} (m n : Nat) : ∀ {s : State}, WaitAhead rest (m + n) s →
    WaitAhead rest m (State.runOps n s) := by
  induction n with
  | zero => exact fun h => h
  | succ n ih =>
    intro s h
    obtain ⟨pre, htodo⟩ := h.todo
    obtain ⟨op, r, ht⟩ := List.exists_cons_of_ne_nil (l := s.todo) (by simp [htodo])
    rw [runOps_cons ht]
    exact ih (waitAhead_step h ht)

/-- SCAN_EDGE begins with its whole wait ahead (R176). -/
theorem waitAhead_scanEdge {s : State} (ht : s.todo = stepsOf s.par .scanEdge) :
    WaitAhead (scanKeypadSeq s.par ++ [.saveS2, .finish .edge]) (debounceCycles s.par) s := by
  refine .inl ⟨Nat.le_refl _, scanKeypadSeq s.par ++ [.saveS1], ?_, by simp [ht, stepsOf, scanEdgeSeq]⟩
  exact List.forall_mem_append.mpr ⟨scanKeypadSeq_unfinished s.par, by simp [SeqOp.isFinish]⟩

/-- R178: the least whole number of cycles that take 20 ms. -/
theorem debounceCycles_least (p : Params) :
    20 * p.fClk ≤ 1000 * debounceCycles p ∧ ∀ n, 20 * p.fClk ≤ 1000 * n → debounceCycles p ≤ n := by
  simp only [debounceCycles, tDebounce]
  exact ⟨by omega, fun n hn => by omega⟩

/-- However few steps SCAN_EDGE has taken, at most as many cycles of its wait are over (R178). -/
theorem exec_scanEdge_waitAhead {s : State} (ht : s.todo = []) (hm : s.mode = .idle)
    (hq : s.quiet ≤ debounceCycles s.par) :
    ∃ (t : State) (pre : List SeqOp), exec .scanEdge s = .next t ∧
      t.todo = pre ++ .waitTick :: (scanKeypadSeq s.par ++ [.saveS2, .finish .edge]) := by
  have hbegin := waitAhead_scanEdge (s := { s with todo := stepsOf s.par .scanEdge, quiet := 0 }) rfl
  obtain ⟨k, hk⟩ := Nat.exists_eq_add_of_le' hq
  obtain ⟨pre, hpre⟩ := (waitAhead_run k s.quiet (hk ▸ hbegin)).todo
  exact ⟨_, pre, exec_begins ht (by simp [allowedIn, hm]), hpre⟩

/-- A burst that goes on with the wait, and no further (R39). -/
theorem exec_waitTick (i : Instr) {s : State} {rest : List SeqOp} {k n : Nat} (ht : s.todo = .waitTick :: rest)
    (hc : s.timer = .counting k) (h1 : 1 ≤ n) (hk : n ≤ k) :
    exec i { s with quiet := n } = .next { s with timer := .counting (k - n), quiet := 0 } := by
  rw [exec_continues i (by simp [ht])]
  simp only [State.burst, Nat.max_eq_left h1]
  rw [runOps_waitTick n (by exact ht) (by exact hc) hk]

/-- A burst that loads the timer and takes `n` cycles of the wait (R39, R178). -/
theorem exec_waitBegin (i : Instr) {s : State} {rest : List SeqOp} {n : Nat}
    (ht : s.todo = .waitBegin :: .waitTick :: rest) (hn : n ≤ debounceCycles s.par) :
    exec i { s with quiet := n + 1 } = .next { s with
      timer := .counting (debounceCycles s.par + s.env.extraWait - n), env := s.env.afterWait
      todo := .waitTick :: rest, quiet := 0 } := by
  rw [exec_continues i (by simp [ht])]
  simp only [State.burst, Nat.max_eq_left (Nat.le_add_left 1 n)]
  rw [runOps_cons (by exact ht), runOps_waitTick (rest := rest) n rfl rfl (Nat.le_add_right_of_le hn)]
  rfl

/-- Settles O36: each sequencer step takes one cycle of the wait at most. -/
theorem debounceWaitLasts : Obligations.DebounceWaitLasts :=
  ⟨debounceCycles_least, fun _ => exec_scanEdge_waitAhead, fun _ _ _ => exec_waitBegin .scanEdge,
    fun _ _ _ _ => exec_waitTick .scanEdge⟩

end Sys2Proof.Machine
end

section
/-! PROOFS. Column reads that are not acknowledged, against SIMX, and a failure once noted (42_keypad_scan.md R184;
41_register_access.md R151). -/

namespace Sys2Proof.Machine

/-- The premises of a scan against SIMX with scripted column reads (R184, log entry 2). -/
theorem scriptedReads_of_simx {s : State} {m : SimX} {rs : List (Option Byte)} {ad : List AckAnswer} {vs : List Byte}
    (hcanon : s.StoreCanonical) (hdev : s.env.device = .simx m) (hstarts : s.env.starts = []) (htxs : s.env.txs = [])
    (haddrs : s.env.addrs = scriptedReads rs ++ ad) (hrxs : s.env.rxs = rs.filterMap id ++ vs) :
    ScriptedReads s.env rs ad vs := by
  have hstore : StoreOk s.env.device.store := hcanon
  exact ⟨⟨m, hdev, by rwa [hdev] at hstore⟩, hstarts, htxs, haddrs, hrxs⟩

/-- SCAN_KEYPAD with its four column reads as the script says (R173, R184). -/
theorem exec_scanKeypad_scripted {s : State} {r3 r2 r1 r0 : Option Byte} {ad : List AckAnswer} {vs : List Byte}
    (ht : s.todo = []) (hf : s.failAcc = false) (hm : s.mode = .idle)
    (he : ScriptedReads s.env [r3, r2, r1, r0] ad vs) (hq : 142 ≤ s.quiet) :
    let n := nibbleOf s.par
    ∃ t : State, exec .scanKeypad s = .next t ∧
      t.CompletedWith (fourNibbles (n r3) (n r2) (n r1) (n r0)) ([r3, r2, r1, r0].any (·.isNone)) ∧
      t.debounce = s.debounce ∧ t.mode = .idle ∧ t.storeByte s.par.rowReg.toNat = 0xFF#8 := by
  intro n
  obtain ⟨e, v, es, hscan, -, -, hstore⟩ :=
    reaches_scanKeypad_scripted (s := { s with todo := stepsOf s.par .scanKeypad, quiet := 0 }) rfl hm he
  have hrun := hscan.trans (reaches_step (op := .finish .mask) rfl rfl)
  refine ⟨_, exec_completes ht (by simp [allowedIn, hm]) hrun rfl (by omega), ?_, rfl, rfl, hstore⟩
  simp only [hf, Bool.false_or]
  exact complete_completedWith ..

/-- SCAN_EDGE with its eight column reads as the script says (R176, R184). -/
theorem exec_scanEdge_scripted {s : State} {a3 a2 a1 a0 b3 b2 b1 b0 : Option Byte} {ad : List AckAnswer}
    {vs : List Byte} (ht : s.todo = []) (hf : s.failAcc = false) (hm : s.mode = .idle)
    (he : ScriptedReads s.env [a3, a2, a1, a0, b3, b2, b1, b0] ad vs)
    (hq : 288 + debounceCycles s.par + s.env.extraWait ≤ s.quiet) :
    let n := nibbleOf s.par
    let d := snapshot (fourNibbles (n a3) (n a2) (n a1) (n a0)) (fourNibbles (n b3) (n b2) (n b1) (n b0))
    ∃ t : State, exec .scanEdge s = .next t ∧
      t.CompletedWith (edgeResult d s.debounce) ([a3, a2, a1, a0, b3, b2, b1, b0].any (·.isNone)) ∧
      t.debounce = d ∧ t.mode = .idle ∧ t.storeByte s.par.rowReg.toNat = 0xFF#8 := by
  intro n d
  obtain ⟨e, v, es, hscans, hstore⟩ :=
    reaches_scanEdge_scripted (s := { s with todo := stepsOf s.par .scanEdge, quiet := 0 }) rfl hm he
  have hrun := hscans.trans (reaches_step (op := .finish .edge) rfl rfl)
  refine ⟨_, exec_completes ht (by simp [allowedIn, hm]) hrun rfl (by simp only; omega), ?_, rfl, rfl, hstore⟩
  simp only [hf, Bool.false_or]
  exact complete_completedWith ..

/-- The completion of SCAN_EDGE, alone in its burst (R176 steps 4 to 7). -/
theorem exec_scanEdge_last {s : State} (ht : s.todo = [.finish .edge]) :
    ∃ t : State, exec .scanEdge s = .next t ∧
      t.CompletedWith (edgeResult (snapshot s.s1 s.s2) s.debounce) s.failAcc ∧ t.debounce = snapshot s.s1 s.s2 := by
  refine ⟨_, exec_continues .scanEdge (by simp [ht]), ?_⟩
  have hrun := (reaches_step (s := { s with quiet := 0 }) ht rfl).run (n := max s.quiet 1) rfl (by omega)
  rw [State.burst, hrun]
  exact ⟨complete_completedWith .., rfl⟩

/-- A failure once noted stays noted until reset is asserted (R184). -/
theorem failAcc_sticky {s t : State} (hb : s.busy = true) (hf : s.failAcc = true) (h : step s = .next t) :
    t.failAcc = true ∨ ∃ k u, s.nextTurn = .host (.assertReset k) u := by
  cases step_effect h with
  | unseen _ _ _ _ _ _ h => subst h; exact .inl hf
  | goesOn _ hrun =>
    exact .inl (runWord_keeps (fun x => x.failAcc = true) (fun op _ hx => doOp_failAcc hx op) (fun _ _ hx => hx)
      (fun _ _ hx => hx) (fun _ _ _ _ _ hx => hx) hf hrun)
  | reset k q ts hn _ => exact .inr ⟨k, _, hn⟩
  | accepted w q ts _ hidle _ => simp [hb] at hidle

/-! ## A row scan whose column read is not acknowledged -/

/-- SIMX in state `m`, with the coming answers to addresses scripted and no others to the controller's bytes. -/
structure Env.SimxAnswering (m : SimX) (as : List AckAnswer) (e : Env) : Prop where
  device : e.device = .simx m
  starts : e.starts = []
  txs : e.txs = []
  addrs : e.addrs = as

theorem Env.SimxAnswering.startAnswer {m : SimX} {as : List AckAnswer} {e : Env} (h : e.SimxAnswering m as) :
    e.startAnswer = .ok := by
  simp [Env.startAnswer, h.starts, h.device]

theorem Env.SimxAnswering.txAnswer {m : SimX} {as : List AckAnswer} {e : Env} (h : e.SimxAnswering m as) :
    e.txAnswer = .ack := by
  simp [Env.txAnswer, h.txs, h.device]

/-- SIMX grants an attempt exactly if the script acknowledges the address. -/
theorem Env.SimxAnswering.attemptOk {m : SimX} {x : AckAnswer} {as : List AckAnswer} {e : Env}
    (h : e.SimxAnswering m (x :: as)) (p : Params) (a : BitVec 7) (d : Dir) :
    attemptOk p a d e = decide (x = .ack) := by
  simp [Machine.attemptOk, h.startAnswer, addressAnswer_scripted h.addrs]

theorem Env.SimxAnswering.afterAttempt {m : SimX} {x : AckAnswer} {as : List AckAnswer} {e : Env}
    (h : e.SimxAnswering m (x :: as)) (a : BitVec 7) (d : Dir) :
    (envAfterAttempt a d e).SimxAnswering (m.afterAddress (addressByte a d)) as := by
  obtain ⟨hstarts, haddrs⟩ := envAfterAttempt_scripts h.startAnswer a d
  rw [h.starts] at hstarts
  rw [h.addrs] at haddrs
  have henv : envAfterAttempt a d e = e.afterStart.afterAddress (addressByte a d) := if_pos h.startAnswer
  exact ⟨by rw [henv, afterAddress_device, afterStart_device, h.device]; rfl, hstarts, by rw [henv]; exact h.txs, haddrs⟩

theorem Env.SimxAnswering.afterTx {m : SimX} {as : List AckAnswer} {e : Env} (h : e.SimxAnswering m as) (b : Byte) :
    (e.afterTx b).SimxAnswering (m.afterTx b) as :=
  ⟨by rw [afterTx_device, h.device]; rfl, h.starts, by simp [Env.afterTx, h.txs], h.addrs⟩

/-- The address and the register number of an access, acknowledged: the pointer is the register (R64, R153). -/
theorem Env.SimxAnswering.afterPointer {m : SimX} {as : List AckAnswer} {e : Env} (h : e.SimxAnswering m (.ack :: as))
    (a : BitVec 7) (reg : BitVec 3) :
    ((envAfterAttempt a .write e).afterTx (regByte reg)).SimxAnswering
      { mx := m.mx, px := reg, pointerNext := false } as := by
  rw [← afterPointer_sim m a reg]
  exact (h.afterAttempt a .write).afterTx _

/-- A register write to SIMX, its address acknowledged (R153). -/
theorem Env.SimxAnswering.writeResult {m : SimX} {as : List AckAnswer} {e : Env} (h : e.SimxAnswering m (.ack :: as))
    (p : Params) (reg : BitVec 3) (v : Byte) :
    (writeResult p reg v 0 e).failed = false ∧
      (writeResult p reg v 0 e).env.SimxAnswering { mx := m.mx.write reg.toNat v, px := reg, pointerNext := false } as := by
  have hpointer := h.afterPointer p.periphAddr reg
  have haddress := (h.afterAttempt p.periphAddr .write).txAnswer
  simp only [Machine.writeResult, envWhenGranted, haddress, hpointer.txAnswer]
  exact ⟨rfl, hpointer.afterTx v⟩

/-- A register read of SIMX, its repeated start not acknowledged: the read is skipped (R151, R155). -/
theorem Env.SimxAnswering.readResult {m : SimX} {as : List AckAnswer} {e : Env}
    (h : e.SimxAnswering m (.ack :: .nack :: as)) (p : Params) (reg : BitVec 3) :
    (readResult p reg 0 e).failed = true ∧ (readResult p reg 0 e).value = 0xFF#8 ∧
      ∃ m', (readResult p reg 0 e).env.SimxAnswering m' as ∧ m'.mx = m.mx := by
  have hpointer := h.afterPointer p.periphAddr reg
  simp only [Machine.readResult, envWhenGranted, hpointer.attemptOk]
  exact ⟨rfl, rfl, _, hpointer.afterAttempt p.periphAddr .read, rfl⟩

/-- A row scan against SIMX whose column read is answered NACK at its repeated start: all three accesses are made, the read
is skipped, and the row register is restored (R151, R171). -/
theorem rowResult_read_nack {p : Params} {e : Env} {m : SimX} {ad : List AckAnswer} (y : BitVec 2)
    (h : e.SimxAnswering m (.ack :: .ack :: .nack :: .ack :: ad)) (hs : StoreOk m.mx) :
    let k : RowTries := ⟨0, 0, 0⟩
    rowGranted p y k e ∧ (rowResult p y k e).failed = true ∧ (rowResult p y k e).value = 0xF#4 ∧
      (rowResult p y k e).env.device.store.read p.rowReg.toNat = 0xFF#8 := by
  intro k
  obtain ⟨-, hselect⟩ := h.writeResult p p.rowReg (~~~(1#8 <<< (p.rowBit.get y.toFin).toNat))
  obtain ⟨hfailed, hvalue, m', hread, hmx⟩ := hselect.readResult p p.colReg
  obtain ⟨-, hrestore⟩ := hread.writeResult p p.rowReg 0xFF#8
  have hs' : StoreOk m'.mx := hmx ▸ storeOk_write hs p.rowReg.isLt _
  refine ⟨⟨h.attemptOk .., hselect.attemptOk .., hread.attemptOk ..⟩, ?_, ?_, ?_⟩
  · simp [rowResult, columnResult, selectResult, k, hfailed]
  · exact (congrArg (columnNibble p) hvalue).trans (columnNibble_ones p)
  · rw [show (rowResult p y k e).env.device = _ from hrestore.device]
    exact (Memory.read_write hs'.1 ..).trans (if_pos rfl)

/-- Settles O37: a row whose read fails by its answers, the scans by their script, and the two steps by themselves. -/
theorem scanFailuresReported : Obligations.ScanFailuresReported := by
  refine ⟨?_, ?_, ?_, fun s => exec_scanEdge_last, fun s t => failAcc_sticky⟩
  · intro y m ad s ht hf hm hcanon hdev hstarts haddrs htxs hq
    have hstore : StoreOk s.env.device.store := hcanon
    rw [hdev] at hstore
    obtain ⟨hg, hfailed, hvalue, hrow⟩ := rowResult_read_nack (p := s.par) y ⟨hdev, hstarts, htxs, haddrs⟩ hstore
    obtain ⟨t, hexec, hcompleted, -, hidle, henv, -, hdebounce⟩ := exec_scanRow_any ht hf hm hg hq
    rw [hfailed, hvalue] at hcompleted
    exact ⟨t, hexec, hcompleted, hidle, by rw [State.storeByte, henv, hrow], hdebounce⟩
  · intro m r3 r2 r1 r0 ad vs s ht hf hm hcanon hdev hstarts htxs haddrs hrxs hq
    exact exec_scanKeypad_scripted ht hf hm (scriptedReads_of_simx hcanon hdev hstarts htxs haddrs hrxs) hq
  · intro m a3 a2 a1 a0 b3 b2 b1 b0 ad vs s ht hf hm hcanon hdev hstarts htxs haddrs hrxs hq
    exact exec_scanEdge_scripted ht hf hm (scriptedReads_of_simx hcanon hdev hstarts htxs haddrs hrxs) hq

end Sys2Proof.Machine
end

section
/-! PROOFS. TRANSLATE (43_translate.md): the mask has one clear bit exactly when `zeroBits` gives that one position, and
the command reports the code of the symbol there and touches nothing else. -/

namespace Sys2Proof.Machine

/-! ## The one clear bit of a mask (R9, R200) -/

theorem mem_zeroBits {m : Mask} {j : Fin 16} : j ∈ zeroBits m ↔ m.getLsbD j.val = false := by simp [zeroBits]

theorem nodup_zeroBits (m : Mask) : (zeroBits m).Nodup := (List.nodup_finRange 16).filter _

theorem zeroBits_eq_singleton_iff {m : Mask} {i : Fin 16} :
    zeroBits m = [i] ↔ ∀ j : Fin 16, m.getLsbD j.val = false ↔ j = i := by
  rw [← List.perm_singleton, List.perm_ext_iff_of_nodup (nodup_zeroBits m) (List.nodup_singleton i)]
  simp only [mem_zeroBits, List.mem_singleton]

theorem zeroBits_clearBit (i : Fin 16) : zeroBits (~~~(1#16 <<< i.val)) = [i] := by
  rw [zeroBits_eq_singleton_iff]
  revert i
  decide

/-! ## TRANSLATE's byte (R200, R203, R205) -/

theorem symbolCode_ne_noneCode (k : KeySymbol) : symbolCode k ≠ noneCode := by cases k <;> decide

theorem translateCode_of_singleton {m : Mask} {i : Fin 16} (h : zeroBits m = [i]) (p : Params) :
    translateCode p m = symbolCode (p.keymap.get i) := by
  simp only [translateCode, h]

theorem translateCode_of_not_singleton {m : Mask} (h : ¬ ∃ i, zeroBits m = [i]) (p : Params) :
    translateCode p m = noneCode := by
  unfold translateCode
  split
  next i hi => exact absurd ⟨i, hi⟩ h
  next => rfl

theorem translateCode_ne_noneCode_iff (p : Params) (m : Mask) :
    translateCode p m ≠ noneCode ↔ ∃ i, zeroBits m = [i] := by
  constructor
  · exact fun hcode => by_contra fun h => hcode (translateCode_of_not_singleton h p)
  · rintro ⟨i, hi⟩
    rw [translateCode_of_singleton hi]
    exact symbolCode_ne_noneCode _

/-- Settles O40: no symbol has the code NONE_CODE; the sixteen masks have the bits 0 to 15 clear, in this order. -/
theorem translateSingleton : Obligations.TranslateSingleton := by
  refine ⟨fun p m => ?_, fun p hp => ?_⟩
  · simp only [← zeroBits_eq_singleton_iff]
    exact translateCode_ne_noneCode_iff p m
  · have hcode : translateCode p ∘ (fun i : Fin 16 => ~~~(1#16 <<< i.val)) = symbolCode ∘ defaultKeymap.get :=
      funext fun i => hp ▸ translateCode_of_singleton (zeroBits_clearBit i) p
    calc _ = ((List.finRange 16).map fun i => ~~~(1#16 <<< i.val)).map (translateCode p) := rfl
      _ = (List.finRange 16).map (symbolCode ∘ defaultKeymap.get) := by rw [List.map_map, hcode]
      _ = _ := by decide

/-! ## The command -/

/-- TRANSLATE is one sequencer step, its completion (R200, R221). -/
theorem exec_translate_completes (m : Mask) {s : State} (ht : s.todo = []) (hq : 1 ≤ s.quiet) :
    exec (.translate m) s = .next { s with
      result := (translateCode s.par m).zeroExtend 16, fail := false, seqErr := false, illegal := false
      busy := false, done := true, quiet := 0 } := by
  rw [exec_completes ht rfl (reaches_finish_value rfl) rfl hq]
  simp only [State.complete, ht]

/-- Settles O39: the completion of TRANSLATE, with its code for a mask with one clear bit and for any other. -/
theorem translateCompletes : Obligations.TranslateCompletes := by
  intro m s ht hq t
  simp only [← zeroBits_eq_singleton_iff]
  refine ⟨fun i hi => ?_, fun h => ?_⟩
  · rw [exec_translate_completes m ht hq, translateCode_of_singleton hi]
  · rw [exec_translate_completes m ht hq, translateCode_of_not_singleton h]
    rfl

/-- The state without what a completion changes: RESULT, STATUS but for OVR and BUSMODE, the sequencer's position and
the quiet budget (R221). -/
def State.offCompletion (s : State) : State :=
  { s with
    result := 0#16, fail := false, seqErr := false, illegal := false, busy := false, done := false, todo := []
    quiet := 0 }

theorem stepOfTranslate_adds {op : SeqOp} (h : stepOfTranslate op = true) :
    ∀ o ∈ op.adds, stepOfTranslate o = true := by
  cases op with
  | finish r => nofun
  | _ => cases h

theorem stepOfTranslate_frame {op : SeqOp} (h : stepOfTranslate op = true) (s : State) :
    (s.doOp op).offCompletion = s.offCompletion := by
  cases op with
  | finish r =>
    cases r with
    | value v => rfl
    | _ => cases h
  | _ => cases h

/-- Settles O45: TRANSLATE's steps are completions, and a completion is all that a burst of them does. -/
theorem frameOfTranslate : Obligations.FrameOfTranslate := by
  intro m s hs
  have hsteps : ∀ op ∈ stepsOf s.par (.translate m), stepOfTranslate op = true := by simp [stepsOf, stepOfTranslate]
  obtain ⟨t, hexec, hview, -⟩ := exec_frame State.offCompletion stepOfTranslate (fun _ => stepOfTranslate_adds)
    (fun _ s h => stepOfTranslate_frame h s) (fun _ _ _ => rfl) (fun _ _ => rfl) hsteps hs
  have hfield {β : Type} (g : State → β) : g t.offCompletion = g s.offCompletion := congrArg g hview
  obtain ⟨hfixed, hscanner, hdebounce, hfailAcc⟩ := frame_of_offPrimitive (hfield State.offPrimitive)
  exact ⟨t, hexec, hfixed, hscanner, hdebounce, hfield State.attempts, hfield State.mode, hfield State.busStat,
    hfield State.trace, hfield State.env, hfield State.sclDrv, hfield State.sdaDrv, hfailAcc, hfield State.rx,
    hfield State.stepFail⟩

end Sys2Proof.Machine
end

section
/-! PROOFS. A host write to CMD: it is dropped while BUSY, and else its word is accepted and run or found illegal
(60_exceptions.md R220, R223, R226). -/

namespace Sys2Proof.Machine

/-- A due write to CMD out of reset is dropped while BUSY, and accepted and run in the same step otherwise. -/
theorem step_writeCmd {s : State} {q : Nat} {ts : List HostTurn} {w : Word} (hdue : s.Due (.write 0x00#6 4 w) q ts)
    (hreset : s.inReset = false) :
    step s = if s.busy then .next (s.served q ts).dropWrite else runWord w ((s.served q ts).accept w) := by
  have hserve : (s.served q ts).serve (.write 0x00#6 4 w) =
      if s.busy then .done (s.served q ts).dropWrite else .issued ((s.served q ts).accept w) := by
    have hreset' : (s.served q ts).inReset = false := hreset
    simp only [State.serve, supported_word (off := 0x00#6) rfl, hreset', if_true]
    rfl
  rw [step_due hdue, hserve]
  cases s.busy <;> rfl

theorem step_writeCmd_idle {s : State} {q : Nat} {ts : List HostTurn} {w : Word}
    (hdue : s.Due (.write 0x00#6 4 w) q ts) (hreset : s.inReset = false) (hb : s.busy = false) :
    step s = runWord w ((s.served q ts).accept w) := by
  simp [step_writeCmd hdue hreset, hb]

theorem runWord_illegal {w : Word} {why : Illegal} (h : decode w = .illegal why) (s : State) :
    runWord w s = .next s.raiseIllegal := by
  unfold runWord
  rw [h]

/-- Settles O12: the accepted word is run in the state that acceptance leaves. -/
theorem stepRunsAcceptedCommand : Obligations.StepRunsAcceptedCommand := by
  intro s q ts w i hdue hreset hb hi
  rw [step_writeCmd_idle hdue hreset hb, runWord_command hi]
  rfl

/-- Settles O14: running an accepted word that does not decode is the completion with ILLEGAL. -/
theorem illegalWordCompletes : Obligations.IllegalWordCompletes := by
  intro s q ts w why hdue hreset hb hill
  rw [step_writeCmd_idle hdue hreset hb, runWord_illegal hill]
  rfl

theorem runWord_ovr {w : Word} {s t : State} (h : runWord w s = .next t) : t.ovr = s.ovr := by
  obtain ⟨-, -, hovr, -⟩ := runWord_fixed h
  exact hovr

/-- A host access leaves OVR at 1, unless it asserts reset, which takes it back to 0 (R226). -/
theorem Access.ovr {a : HostAccess} {u t : State} (h : Access a u t) (hovr : u.ovr = true) :
    t.ovr = true ∨ (t.ovr = false ∧ ∃ k, a = .assertReset k) := by
  cases h with
  | read v h => subst h; exact .inl hovr
  | ignored h => subst h; exact .inl hovr
  | div v _ h => subst h; exact .inl hovr
  | dropped _ h => subst h; exact .inl rfl
  | reset k ha h => subst h; exact .inr ⟨rfl, k, ha⟩
  | release h => subst h; exact .inl hovr
  | accepted w _ _ _ hrun => exact .inl ((runWord_ovr hrun).trans hovr)

/-- Settles O11: no command touches OVR, and of the host's accesses only the assertion of reset clears it. -/
theorem writeWhileBusyIsDropped : Obligations.WriteWhileBusyIsDropped := by
  refine ⟨fun s q ts w hdue hreset hb => ?_, fun s t h hovr => ?_⟩
  · rw [step_writeCmd hdue hreset, if_pos hb]
    rfl
  · rcases step_cases h with ⟨-, rfl⟩ | ⟨-, -, hrun⟩ | ⟨a, q, ts, -, hn, hacc⟩
    · exact .inl hovr
    · exact .inl ((runWord_ovr hrun).trans hovr)
    · refine (hacc.ovr hovr).imp_right ?_
      rintro ⟨hclear, k, rfl⟩
      exact ⟨hclear, k, _, hn⟩

end Sys2Proof.Machine
end

section
/-! PROOFS. The error bits of STATUS: which commands are refused in which bus mode, and that ILLEGAL, SEQERR and FAIL
exclude each other (60_exceptions.md R220 to R224, R228). -/

namespace Sys2Proof.Machine

/-! ## What a step of the sequencer makes of the error bits -/

/-- A step of the sequencer reports nothing, or completes the command without SEQERR and ILLEGAL (R221, R222). -/
theorem doOp_errors (op : SeqOp) (s : State) :
    SameReports s (s.doOp op) ∨
      (Completed (s.doOp op) ∧ (s.doOp op).seqErr = false ∧ (s.doOp op).illegal = false) := by
  cases op with
  | finish r => exact .inr ⟨opFinish_completed r s, by cases r <;> exact ⟨rfl, rfl⟩⟩
  | _ => exact .inl (sameReports_step rfl (.refl s))

theorem doOp_seqErr {s : State} (h : s.seqErr = false) (op : SeqOp) : (s.doOp op).seqErr = false := by
  rcases doOp_errors op s with ⟨-, -, -, -, -, -, hseq, -⟩ | ⟨-, hseq, -⟩
  · exact hseq.trans h
  · exact hseq

theorem burst_seqErr (n : Nat) {s : State} (h : s.seqErr = false) : (s.burst n).seqErr = false :=
  runOps_keeps (fun x => x.seqErr = false) (fun op rest x h _ => doOp_seqErr (s := { x with todo := rest }) h op) n
    { s with quiet := 0 } h

/-! ## Refusals -/

/-- A command whose precondition fails is refused with its RESULT, and nothing else changes (R222, R224). -/
theorem exec_refused {i : Instr} {s : State} (ht : s.todo = []) (ha : allowedIn s.mode i = false) :
    exec i s = .next (s.refusedWith (refusedWord i)) := by
  simp only [exec_eq, State.command, ht, ha]
  rfl

/-- A command that is not refused leaves SEQERR at 0, however far its burst gets. -/
theorem exec_seqErr {i : Instr} {s : State} (ha : allowedIn s.mode i = true) (h : s.seqErr = false) :
    ∃ t : State, exec i s = .next t ∧ t.seqErr = false := by
  refine ⟨_, exec_eq i s, ?_⟩
  rcases command_cases (allowedIn s.mode i) (refusedWord i) (stepsOf s.par i) s with
    ⟨-, hrefused, -⟩ | ⟨-, -, hbegin⟩ | ⟨-, hgoesOn⟩
  · simp [ha] at hrefused
  · rw [hbegin]
    exact burst_seqErr _ h
  · rw [hgoesOn]
    exact burst_seqErr _ h

/-- Settles O17: the bus mode fails each precondition of the command table, and the other five commands have none. -/
theorem refusedOutsideMode : Obligations.RefusedOutsideMode := by
  refine ⟨fun s ht => ⟨fun b hm => ?_, fun k hm => ?_, fun hm => ?_⟩, fun i s hi h => ?_⟩
  · exact exec_refused ht (decide_eq_false hm)
  · exact exec_refused ht (decide_eq_false hm)
  · have hidle : decide (s.mode = .idle) = false := decide_eq_false hm
    exact ⟨fun _ _ => exec_refused ht hidle, fun _ => exec_refused ht hidle, fun _ => exec_refused ht hidle,
      exec_refused ht hidle, exec_refused ht hidle⟩
  · have ha : allowedIn s.mode i = true := by
      rcases hi with ⟨a, d, rfl⟩ | ⟨a, d, rfl⟩ | ⟨a, d, rfl⟩ | rfl | ⟨m, rfl⟩ <;> rfl
    exact exec_seqErr ha h

/-! ## One error at most -/

theorem SameReports.statusExclusive {u s : State} (h : SameReports u s) (hu : u.StatusExclusive) :
    s.StatusExclusive := by
  obtain ⟨-, -, hbusy, hdone, -, hfail, hseq, hill, -⟩ := h
  simpa only [State.StatusExclusive, hbusy, hdone, hfail, hseq, hill] using hu

/-- A completion that raises one error at most is a proper report (R221, R228). -/
theorem Completed.statusExclusive {t : State} (h : Completed t)
    (hone : atMostOne t.fail t.seqErr t.illegal = true) : t.StatusExclusive := by
  obtain ⟨hb, hd, -⟩ := h
  exact ⟨hone, fun h => by simp [hb] at h, fun h => by simp [hd] at h⟩

theorem doOp_statusExclusive {s : State} (h : s.StatusExclusive) (op : SeqOp) : (s.doOp op).StatusExclusive := by
  rcases doOp_errors op s with hsame | ⟨hdone, hseq, hill⟩
  · exact hsame.statusExclusive h
  · exact hdone.statusExclusive (by simp [hseq, hill, atMostOne])

theorem burst_statusExclusive (n : Nat) {s : State} (h : s.StatusExclusive) : (s.burst n).StatusExclusive :=
  runOps_keeps State.StatusExclusive (fun op rest x h _ => doOp_statusExclusive (s := { x with todo := rest }) h op) n
    { s with quiet := 0 } h

/-- A word raises ILLEGAL, or SEQERR, or leaves it to its steps to report FAIL (R228). -/
theorem runWord_statusExclusive {w : Word} {s t : State} (hs : s.StatusExclusive) (h : runWord w s = .next t) :
    t.StatusExclusive := by
  rcases runWord_cases h with ⟨-, rfl⟩ | ⟨i, -, ⟨-, rfl⟩ | ⟨-, -, rfl⟩ | ⟨-, rfl⟩⟩
  · exact Completed.statusExclusive ⟨rfl, rfl, rfl⟩ rfl
  · exact Completed.statusExclusive ⟨rfl, rfl, rfl⟩ rfl
  · exact burst_statusExclusive s.quiet (s := { s with todo := stepsOf s.par i }) hs
  · exact burst_statusExclusive _ hs

/-- Acceptance clears all that STATUS reports of the command before (R220). -/
theorem accept_statusExclusive (w : Word) (s : State) : (s.accept w).StatusExclusive :=
  ⟨rfl, fun _ => rfl, fun _ => ⟨rfl, rfl, rfl⟩⟩

theorem assertReset_statusExclusive (k : Bool) (s : State) : (s.assertReset k).StatusExclusive :=
  ⟨rfl, fun _ => rfl, fun _ => ⟨rfl, rfl, rfl⟩⟩

/-- Settles O52: acceptance and reset clear the three reports, and a command then raises one of them at most. -/
theorem stepKeepsStatusExclusive : Obligations.StepKeepsStatusExclusive := by
  intro s t hs h
  cases step_effect h with
  | unseen _ _ _ _ _ _ h => subst h; exact hs
  | goesOn _ hrun => exact runWord_statusExclusive hs hrun
  | reset k _ _ _ h => subst h; exact assertReset_statusExclusive k _
  | accepted w _ _ _ _ hrun => exact runWord_statusExclusive (accept_statusExclusive w _) hrun

end Sys2Proof.Machine
end

section
/-! PROOFS. Reset (70_reset_and_hazards.md R260 to R267): the reset state, what the assertion and the release of reset
do, and what a reset does right after a command is accepted. -/

namespace Sys2Proof.Machine

/-! ## The reset state -/

/-- Settles O5: the values written in `State.reset`. -/
theorem resetValues : Obligations.ResetValues := by
  unfold Obligations.ResetValues
  decide

theorem reset_atReset : State.reset.AtReset := by
  unfold State.AtReset
  decide

/-- The assertion of reset gives the reset state, whatever it finds (R263). -/
theorem assertReset_atReset (k : Bool) (s : State) : (s.assertReset k).AtReset := reset_atReset

theorem State.AtReset.busy {s : State} (h : s.AtReset) : s.busy = false := by
  obtain ⟨-, hb, -⟩ := h
  exact hb

theorem resetHeld_of_released {s : State} (h : s.inReset = false) : s.ResetHeld := fun hr => by
  simp [h] at hr

/-- A controller that is BUSY is out of reset (R260). -/
theorem State.ResetHeld.released {s : State} (h : s.ResetHeld) (hb : s.busy = true) : s.inReset = false := by
  by_contra hr
  simp [(h (by simpa using hr)).busy] at hb

theorem runWord_inReset {w : Word} {s t : State} (h : runWord w s = .next t) : t.inReset = s.inReset := by
  obtain ⟨-, -, -, -, -, hr, -⟩ := runWord_fixed h
  exact hr

/-- A host access that could change the reset state is served out of reset only, or is the assertion of reset. -/
theorem Access.resetHeld {a : HostAccess} {u t : State} (h : Access a u t) (hu : u.ResetHeld) : t.ResetHeld := by
  cases h with
  | read v h => subst h; exact hu
  | ignored h => subst h; exact hu
  | div v hr h => subst h; exact resetHeld_of_released hr
  | dropped hb h => subst h; exact resetHeld_of_released (hu.released hb)
  | reset k _ h => subst h; exact fun _ => assertReset_atReset k u
  | release h => subst h; exact resetHeld_of_released rfl
  | accepted w _ hr _ hrun => exact resetHeld_of_released ((runWord_inReset hrun).trans hr)

/-- Settles O53: commands run out of reset only, and so are the accesses served that change the reset state. -/
theorem stepKeepsResetHeld : Obligations.StepKeepsResetHeld := by
  intro s t hs h
  rcases step_cases h with ⟨-, rfl⟩ | ⟨-, hb, hrun⟩ | ⟨a, q, ts, -, -, hacc⟩
  · exact hs
  · exact resetHeld_of_released ((runWord_inReset hrun).trans (hs.released hb))
  · exact hacc.resetHeld hs

/-- Settles O59: the sequencer is idle, the bus too, and the device has no store. -/
theorem resetMeetsInvariants : Obligations.ResetMeetsInvariants := by
  refine ⟨rfl, ⟨rfl, rfl⟩, rfl, ?_, ?_, ?_, ?_⟩
  · exact assertReset_statusExclusive false State.reset
  · exact fun _ => reset_atReset
  · exact edge_of_idle rfl
  · exact ⟨⟨.nil, nofun⟩, nofun⟩

/-! ## The assertion of reset -/

theorem step_assertReset {k : Bool} {q : Nat} {ts : List HostTurn} {s : State} (h : s.Due (.assertReset k) q ts) :
    step s = .next ((s.served q ts).assertReset k) := step_due h

/-- STATUS and BUSSTAT as the host reads them in the reset state (R261). -/
theorem State.AtReset.codes {s : State} (h : s.AtReset) : s.statusByte = 0x00#8 ∧ statCode s.busStat = 0xF8#8 := by
  obtain ⟨-, hb, hd, hf, hse, hi, ho, hm, -, -, hbs, -⟩ := h
  simp [State.statusByte, hb, hd, hf, hse, hi, ho, hm, hbs, modeBits, statCode]

/-- Without a quiet step an accepted command has taken none of its own when the host's next access is due: nothing is
recorded yet (R220, R263). -/
theorem step_accepts_unquiet {a : HostAccess} {q : Nat} {ts : List HostTurn} {s : State} {w : Word} {i : Instr}
    (hdue : s.Due (.write 0x00#6 4 w) 0 (⟨a, q⟩ :: ts)) (hr : s.inReset = false) (hb : s.busy = false)
    (ht : s.todo = []) (hi : decode w = .command i) :
    ∃ t : State, step s = .next t ∧ t.cur = w ∧ t.trace = s.trace ∧ t.Due a q ts := by
  rw [step_writeCmd_idle hdue hr hb, runWord_command hi, exec_eq]
  refine ⟨_, rfl, ?_⟩
  rcases command_cases (allowedIn s.mode i) (refusedWord i) (stepsOf s.par i)
      ((s.served 0 (⟨a, q⟩ :: ts)).accept w) with ⟨-, -, hrefused⟩ | ⟨-, -, hbegun⟩ | ⟨hne, -⟩
  · exact hrefused ▸ ⟨rfl, rfl, rfl, .inl rfl⟩
  · exact hbegun ▸ ⟨rfl, rfl, rfl, .inr rfl⟩
  · exact absurd ht hne

/-- A reset that comes right after the acceptance of a command leaves the reset state and no event of the command
(R263, log entry 27). -/
theorem reset_after_acceptance {k : Bool} {q : Nat} {ts : List HostTurn} {s : State} {w : Word} {i : Instr}
    (hdue : s.Due (.write 0x00#6 4 w) 0 (⟨.assertReset k, q⟩ :: ts)) (hr : s.inReset = false) (hb : s.busy = false)
    (ht : s.todo = []) (hi : decode w = .command i) :
    ∃ t u : State, step s = .next t ∧ t.cur = w ∧ step t = .next u ∧ u.AtReset ∧ u.trace = s.trace := by
  obtain ⟨t, hstep, hcur, htrace, hdue'⟩ := step_accepts_unquiet hdue hr hb ht hi
  exact ⟨t, _, hstep, hcur, step_assertReset hdue', assertReset_atReset k _, htrace⟩

/-- Settles O6: both resets leave the reset state and the trace as it was. -/
theorem resetAbortsCommand : Obligations.ResetAbortsCommand := by
  refine ⟨fun s k q ts hdue => ?_, fun s w i k q ts hdue hr hb ht hi => ?_⟩
  · obtain ⟨hstatus, hbusStat⟩ := (assertReset_atReset k (s.served q ts)).codes
    exact ⟨_, step_assertReset hdue, rfl, hstatus, rfl, rfl, hbusStat, rfl, rfl, rfl, rfl, rfl, rfl, rfl, rfl, rfl,
      le_rfl⟩
  · obtain ⟨t, u, hstep, hcur, hstep', hreset, htrace⟩ := reset_after_acceptance hdue hr hb ht hi
    exact ⟨t, u, hstep, hcur, hstep', hreset, (congrArg _ htrace).le⟩

/-! ## The reset input -/

/-- While reset is asserted an aligned write changes nothing but the schedule (R260). -/
theorem step_write_inReset {off : BitVec 6} {v : Word} {q : Nat} {ts : List HostTurn} {s : State}
    (hdue : s.Due (.write off 4 v) q ts) (halign : off.extractLsb' 0 2 = 0#2) (hr : s.inReset = true) :
    step s = .next (s.served q ts) := by
  have hr' : (s.served q ts).inReset = true := hr
  rw [step_due hdue]
  simp only [State.serve, supported_word halign, hr', if_true]

theorem step_releaseReset {q : Nat} {ts : List HostTurn} {s : State} (h : s.Due .releaseReset q ts) :
    step s = .next { s.served q ts with inReset := false } := step_due h

/-- In the reset state acceptance has no report to clear (R220, R261). -/
theorem State.AtReset.accept {s : State} (h : s.AtReset) (w : Word) :
    s.accept w = { s with cmd := w, cur := w, busy := true } := by
  obtain ⟨-, -, hd, hf, hse, hi, -, -, -, -, -, -, -, -, -, hfa, -⟩ := h
  simp [State.accept, hd, hf, hse, hi, hfa]

/-- A command accepted in the reset state begins with the reset state's registers (R264). -/
theorem step_writeCmd_atReset {q : Nat} {ts : List HostTurn} {s : State} {w : Word} {i : Instr} (hs : s.AtReset)
    (hr : s.inReset = false) (hdue : s.Due (.write 0x00#6 4 w) q ts) (hi : decode w = .command i) :
    step s = exec i { s.served q ts with cmd := w, cur := w, busy := true } := by
  have hs' : (s.served q ts).AtReset := hs
  rw [step_writeCmd_idle hdue hr hs.busy, runWord_command hi, hs'.accept]

/-- A peripheral that is there may be left in the middle of a byte: its later answers are open (R267). -/
theorem cut_of_ne_absent {d : Device} (h : d ≠ .absent) : d.cut = .free := by
  cases d with
  | absent => exact absurd rfl h
  | _ => rfl

theorem cutsTransaction_of_owned {s : State} (h : s.mode ≠ .idle) (k : Bool) : s.cutsTransaction k = true := by
  simp [State.cutsTransaction, h]

/-- Between phases there is nothing to cut on an IDLE bus (R267). -/
theorem cutsTransaction_idle {s : State} (h : s.mode = .idle) : s.cutsTransaction false = false := by
  simp only [State.cutsTransaction, h]
  split <;> rfl

theorem assertReset_env_owned {s : State} (hm : s.mode ≠ .idle) (hd : s.env.device ≠ .absent) (k : Bool) :
    (s.assertReset k).env = { s.env with device := .free } := by
  simp [cutsTransaction_of_owned hm, cut_of_ne_absent hd]

theorem assertReset_env_idle {s : State} (hm : s.mode = .idle) : (s.assertReset false).env = s.env := by
  simp [cutsTransaction_idle hm]

/-- Settles O7: the writes, the release, the command after it, the environment and the phase cut, one lemma each. -/
theorem resetInput : Obligations.ResetInput := by
  refine ⟨fun _ _ _ _ _ => step_write_inReset, fun _ _ _ => step_releaseReset, fun s q r ts w i hdue hs hr hi => ?_,
    fun s k q ts hdue => ?_, fun s w i k q ts hdue hr hb ht hi => ?_⟩
  · have hreset : ({ s.served q (⟨.write 0x00#6 4 w, r⟩ :: ts) with inReset := false } : State).AtReset := hs hr
    exact ⟨_, step_releaseReset hdue, step_writeCmd_atReset hreset rfl ⟨rfl, .inl hreset.busy⟩ hi⟩
  · refine ⟨_, step_assertReset hdue, rfl, fun hm hd => ?_, fun hm hk => ?_⟩
    · exact assertReset_env_owned (s := s.served q ts) hm hd k
    · subst hk
      exact assertReset_env_idle (s := s.served q ts) hm
  · obtain ⟨t, u, hstep, -, hstep', -, htrace⟩ := reset_after_acceptance hdue hr hb ht hi
    exact ⟨t, u, hstep, hstep', htrace⟩

end Sys2Proof.Machine
end

section
/-! PROOFS. What changes DEBOUNCE: the step that completes SCAN_EDGE, and reset (10_state.md R33; 42_keypad_scan.md
R176). -/

namespace Sys2Proof.Machine

/-- A SCAN_EDGE is complete and DEBOUNCE holds the snapshot of its two samples (R176, log entry 25). -/
def State.EdgeStored (t : State) : Prop :=
  Completed t ∧ decode t.cur = .command .scanEdge ∧ t.debounce = snapshot t.s1 t.s2

/-- The step that stores DEBOUNCE completes the command. -/
theorem doOp_finish_edge {s : State} (h : decode s.cur = .command .scanEdge) : (s.doOp (.finish .edge)).EdgeStored :=
  ⟨opFinish_completed .edge s, h, rfl⟩

/-- A burst changes DEBOUNCE only if it completes a SCAN_EDGE, after which no step is left. -/
theorem burst_debounce (n : Nat) {s : State} (h : s.EdgeOnlyInScanEdge) :
    (s.burst n).debounce = s.debounce ∨ (s.burst n).EdgeStored := by
  refine (runOps_keeps (fun x => x.EdgeOnlyInScanEdge ∧ (x.debounce = s.debounce ∨ x.EdgeStored)) ?_ n
    { s with quiet := 0 } ⟨h, .inl rfl⟩).2
  rintro op rest x ⟨hx, hsame | ⟨⟨-, -, hnil⟩, -⟩⟩ ht
  · refine ⟨doOp_edge hx ht, ?_⟩
    by_cases hop : op = .finish .edge
    · subst hop
      exact .inr (doOp_finish_edge (s := { x with todo := rest }) (hx (by simp [ht])))
    · exact .inl ((doOp_debounce hop _).trans hsame)
  · simp [hnil] at ht

/-- Running the word in CUR changes DEBOUNCE only if it completes a SCAN_EDGE. -/
theorem runWord_debounce {s t : State} (hs : s.EdgeOnlyInScanEdge) (h : runWord s.cur s = .next t) :
    t.debounce = s.debounce ∨ t.EdgeStored := by
  rcases runWord_cases h with ⟨-, rfl⟩ | ⟨i, hi, ⟨-, rfl⟩ | ⟨-, -, rfl⟩ | ⟨-, rfl⟩⟩
  · exact .inl rfl
  · exact .inl rfl
  · exact burst_debounce s.quiet (s := { s with todo := stepsOf s.par i }) fun hmem =>
      hi.trans (congrArg _ (stepsOf_edge hmem))
  · exact burst_debounce _ hs

/-- Settles O55: a step that is no reset changes DEBOUNCE by running a word, one that was running or is accepted with
no step left of another. -/
theorem debounceHasOneWriter : Obligations.DebounceHasOneWriter := by
  intro s t hrunning hs h hne
  cases step_effect h with
  | unseen _ _ _ _ _ _ h => subst h; exact absurd rfl hne
  | reset k q ts hn h => subst h; exact .inl ⟨⟨k, _, hn⟩, rfl⟩
  | goesOn hb hrun =>
    obtain ⟨⟨hbusy, hdone, -⟩, hcmd, hstored⟩ := (runWord_debounce hs hrun).resolve_left hne
    obtain ⟨-, hcur, -⟩ := runWord_fixed hrun
    exact .inr ⟨hcmd, hbusy, hdone, hstored, .inl ⟨hb, hcur⟩⟩
  | accepted w q ts hn hb hrun =>
    have hedge : ((s.served q ts).accept w).EdgeOnlyInScanEdge := edge_of_idle ((running_idle hb).mp hrunning)
    obtain ⟨⟨hbusy, hdone, -⟩, hcmd, hstored⟩ := (runWord_debounce hedge hrun).resolve_left hne
    exact .inr ⟨hcmd, hbusy, hdone, hstored, .inr ⟨w, _, hn, hb⟩⟩

end Sys2Proof.Machine
end
